-- ==== Sys2Proof/Word.lean ====
section
/-!
DEFINITION. The words of the unit: a byte and a 32-bit register value (00_scope.md R12).
All values are unsigned; bit 0 is the least significant bit.
-/

namespace Sys2Proof

/-- A byte of DMEM, a field element, a share index (00_scope.md R12, 40_field.md R130). -/
abbrev Byte := BitVec 8

/-- A 32-bit register value or command word (00_scope.md R12, 30_encoding.md R101). -/
abbrev Word := BitVec 32

/-- `cdiv(a, b) = ⌈a / b⌉` for `b > 0` (00_scope.md R15). -/
def cdiv (a b : Nat) : Nat := (a + (b - 1)) / b

end Sys2Proof
end

