-- ==== Sys2Proof/Syntax.lean ====
section
/-!
DEFINITION. The seventeen commands (30_encoding.md R102), one constructor per row of
spec/opcode_table.json. A command word has no operand field (R100): every operand is in ARG0..ARG5
(R106), so no constructor carries data.
-/

namespace Sys2Proof

inductive Instr where
  /-- GF_ADD, 40_field.md R137. -/
  | gfAdd
  /-- GF_SUB, 40_field.md R138. -/
  | gfSub
  /-- GF_MUL, 40_field.md R139. -/
  | gfMul
  /-- GF_DIV, 40_field.md R140. -/
  | gfDiv
  /-- SSS_SPLIT, 41_sharing.md R151. -/
  | sssSplit
  /-- SSS_RECON, 41_sharing.md R154. -/
  | sssRecon
  /-- BP_PACK, 42_bitpack.md R171. -/
  | bpPack
  /-- BP_UNPACK, 42_bitpack.md R172. -/
  | bpUnpack
  /-- SF_FRAME, 43_framing.md R196. -/
  | sfFrame
  /-- SF_UNFRAME, 43_framing.md R199. -/
  | sfUnframe
  /-- CK_B39_ENC, 44_checksum.md R221. -/
  | ckB39Enc
  /-- CK_B39_DEC, 44_checksum.md R222. -/
  | ckB39Dec
  /-- KDF_SLIP, 45_kdf.md R241. -/
  | kdfSlip
  /-- KDF_BIP, 45_kdf.md R242. -/
  | kdfBip
  /-- ACC_RESET, 46_accumulator.md R260. -/
  | accReset
  /-- ACC_ADD, 46_accumulator.md R261. -/
  | accAdd
  /-- ACC_MERGE, 46_accumulator.md R264. -/
  | accMerge
  deriving DecidableEq, Repr

end Sys2Proof
end

