-- ==== Sys2Proof/WellFormed.lean ====
section
/-!
DEFINITION. What makes a 32-bit word a command word (30_encoding.md R100, R102, R103). A term of
`Instr` itself carries no field (R100: "There is no register field, immediate field or mode field in
the word"), so `Instr.wellFormed` has nothing to refuse; the checks are on words.
-/

namespace Sys2Proof

/-- The seventeen assigned values of OPCODE (30_encoding.md R102). -/
def assignedOpcodes : List Nat :=
  [0x01, 0x02, 0x03, 0x04, 0x10, 0x11, 0x20, 0x21, 0x30, 0x31, 0x40, 0x41, 0x50, 0x51, 0x60, 0x61, 0x62]

/-- Bits [31:8] must be zero (30_encoding.md R100, field MBZ). -/
def CommandWord.mbzZero (w : Word) : Bool := w.toNat / 256 == 0

/-- Bits [7:0] are one of the seventeen assigned opcodes (30_encoding.md R102). -/
def CommandWord.opcodeAssigned (w : Word) : Bool := assignedOpcodes.contains (w.toNat % 256)

/-- "A word selects a command iff bits [31:8] are zero and bits [7:0] are one of these seventeen
values" (30_encoding.md R102). -/
def CommandWord.wellFormed (w : Word) : Bool :=
  CommandWord.mbzZero w && CommandWord.opcodeAssigned w

/-- Every command is well formed: it has no operand in the word (30_encoding.md R100, R106). -/
def Instr.wellFormed : Instr → Bool
  | .gfAdd | .gfSub | .gfMul | .gfDiv | .sssSplit | .sssRecon | .bpPack | .bpUnpack | .sfFrame
  | .sfUnframe | .ckB39Enc | .ckB39Dec | .kdfSlip | .kdfBip | .accReset | .accAdd | .accMerge => true

end Sys2Proof
end

