-- ==== Sys2Proof/Decode.lean ====
section
/-!
DEFINITION. The decoder of command words and, after it, the encoder (30_encoding.md R100 to R105).
-/

namespace Sys2Proof

/-- Why a word is illegal (30_encoding.md R103). Both reasons complete as IllegalCommand(word). -/
inductive DecodeReject where
  /-- Some bit of [31:8] is 1 (30_encoding.md R100, R103). -/
  | mbzNonzero
  /-- OPCODE is not in the table of R102 (30_encoding.md R103, R104). -/
  | opcodeUnassigned
  deriving DecidableEq, Repr

/-- The opcode map of 30_encoding.md R102. -/
def decodeOpcode (op : Nat) : Except DecodeReject Instr :=
  match op with
  | 0x01 => .ok .gfAdd
  | 0x02 => .ok .gfSub
  | 0x03 => .ok .gfMul
  | 0x04 => .ok .gfDiv
  | 0x10 => .ok .sssSplit
  | 0x11 => .ok .sssRecon
  | 0x20 => .ok .bpPack
  | 0x21 => .ok .bpUnpack
  | 0x30 => .ok .sfFrame
  | 0x31 => .ok .sfUnframe
  | 0x40 => .ok .ckB39Enc
  | 0x41 => .ok .ckB39Dec
  | 0x50 => .ok .kdfSlip
  | 0x51 => .ok .kdfBip
  | 0x60 => .ok .accReset
  | 0x61 => .ok .accAdd
  | 0x62 => .ok .accMerge
  | _ => .error .opcodeUnassigned

/-- The command a word selects, or why it is illegal (30_encoding.md R102, R103); "a decoder needs only
the word" (R101). -/
def decode (w : Word) : Except DecodeReject Instr :=
  if w.toNat / 256 = 0 then decodeOpcode (w.toNat % 256) else .error .mbzNonzero

/-- OPCODE of a command (30_encoding.md R102). -/
def opcodeOf : Instr → Byte
  | .gfAdd => 0x01
  | .gfSub => 0x02
  | .gfMul => 0x03
  | .gfDiv => 0x04
  | .sssSplit => 0x10
  | .sssRecon => 0x11
  | .bpPack => 0x20
  | .bpUnpack => 0x21
  | .sfFrame => 0x30
  | .sfUnframe => 0x31
  | .ckB39Enc => 0x40
  | .ckB39Dec => 0x41
  | .kdfSlip => 0x50
  | .kdfBip => 0x51
  | .accReset => 0x60
  | .accAdd => 0x61
  | .accMerge => 0x62

/-- "The assembled word of the command is its CMD value, zext_32(OPCODE)" (30_encoding.md R110). -/
def encode (i : Instr) : Word := (opcodeOf i).setWidth 32

/-- The instruction this decoder reads from the table word `w` of `nbits` bits; bits above `nbits` are
0, and a word of more than 32 bits is no command word (30_encoding.md R101). -/
def decodeTableWord (nbits w : Nat) : Option Instr :=
  let v := w % 2 ^ nbits
  if v < 2 ^ 32 then
    match decode (BitVec.ofNat 32 v) with
    | .ok i => some i
    | .error _ => none
  else none

end Sys2Proof
end

