-- ==== Sys2Proof/Config.lean ====
section
/-!
DEFINITION. What an implementation fixes and what the spec leaves open. The fixed parameters of
00_scope.md R10 stand in Machine/Params.lean. Every `opaque` constant here is a free value: it has no
body, so nothing in Lean can say what it is, and a claim holds whatever it is.
-/

namespace Sys2Proof.Config

/-- `DMEM_BYTES`: "default 65536; OPEN, any integer 1..2^32" (00_scope.md R10). Only State.reset uses
this default; a state carries its own size (assumption log 1). -/
def dmemBytesDefault : Nat := 65536

/-- The byte that DMEM holds at address `a` after the `n`-th power-on reset, while nothing has written
it (70_reset_and_hazards.md R341: unspecified). Free value (assumption log 2). -/
opaque powerOnByte (n a : Nat) : Byte

/-- The `n`-th byte the randomness port answers (10_state.md R60: any byte). Free value (assumption
log 3). -/
opaque rngByte (n : Nat) : Byte

/-- How many host moves may come between the `n`-th issue and its completion
(70_reset_and_hazards.md R356: unspecified, finite). Free value (assumption log 5). -/
opaque latency (n : Nat) : Nat

/-- `SHA256` of the hash port (10_state.md R61): 32 bytes, a function of its argument alone.
Free value (assumption log 4). -/
opaque sha256 (B : List Byte) : Vector Byte 32

/-- `HMAC_SHA256` of the hash port (10_state.md R61): 32 bytes. Free value (assumption log 4). -/
opaque hmacSha256 (K M : List Byte) : Vector Byte 32

/-- `HMAC_SHA512` of the hash port (10_state.md R61): 64 bytes. Free value (assumption log 4). -/
opaque hmacSha512 (K M : List Byte) : Vector Byte 64

/-- What a result register reads when the natural number a command's rule writes to it does not fit its
32 bits; the spec states no result there. Free value, a function of the command and the number
(assumption log 7). DESIGN CHOICE. -/
opaque wideResult (i : Instr) (v : Nat) : Word

/-- `gf_inv(0)`, which "is not defined and no rule evaluates it" (40_field.md R132). Free value
(assumption log 8). -/
opaque gfInvZero : Byte

end Sys2Proof.Config
end

