-- ==== Sys2Proof/Machine/State.lean ====
section
/-!
DEFINITION. The state of the unit and of the agents around it (00_scope.md R23, 10_state.md R30), as
plain data, and the state right after power-on reset (70_reset_and_hazards.md R343).
-/

namespace Sys2Proof.Machine

/-- DMEM as the bytes written since power-on, addresses strictly rising; an address that is not listed
has not been written since power-on and holds no known value (70_reset_and_hazards.md R341,
assumption log 2). -/
abbrev Memory := List Host.Cell

/-- The sequencer phase (10_state.md R50). -/
inductive Phase where
  /-- No command is in progress; STATUS.BUSY = 0. -/
  | idle
  /-- The command in CMD is in progress; STATUS.BUSY = 1. -/
  | busy
  deriving DecidableEq, Repr

/-- The phase of a collection session (10_state.md R51). -/
inductive AccPhase where
  | empty
  | collecting
  | ready
  deriving DecidableEq, Repr

/-- The share-collection accumulator (10_state.md R51). -/
structure Acc where
  /-- `acc.phase`. -/
  phase : AccPhase
  /-- `acc.T`, 6 bits: the session threshold, 0 when Empty. -/
  threshold : BitVec 6
  /-- `acc.L`, 32 bits: the session payload length in bytes, 0 when Empty. -/
  len : Word
  /-- `acc.count`, 6 bits: the number of accepted shares. -/
  count : BitVec 6
  /-- `acc.xs[0..31]`: the accepted share indices, in acceptance order (R52). -/
  xs : Vector Byte 32
  /-- `acc.base`, 32 bits: DMEM address of the payload store. -/
  base : Word
  deriving DecidableEq, Repr

/-- The names of the error taxonomy (60_exceptions.md R301). -/
inductive ErrName where
  | invalidParameters
  | insufficientShares
  | duplicateShareIndex
  | malformedShare
  | checksumMismatch
  /-- Reserved: word lookup is host software; the unit never raises it (00_scope.md R6). -/
  | unknownWord
  | symbolOutOfRange
  | divisionByZero
  | illegalCommand
  | addressError
  | thresholdMismatch
  | accumulatorFull
  deriving DecidableEq, Repr

/-- `raise E(info)` (00_scope.md R19): the error and its information, before it is cut to 32 bits. -/
structure Raise where
  name : ErrName
  info : Nat
  deriving DecidableEq, Repr

/-- What a command whose rule ended without raise applies at completion (60_exceptions.md R305). -/
structure Effect where
  /-- The buffered `MemWrite`s, in program order (00_scope.md R20): start address and bytes. -/
  writes : List (Nat × List Byte) := []
  /-- The accumulator, for the commands that write it. -/
  acc : Option Acc := none
  /-- How many `RngByte()` calls the command made (41_sharing.md R151). -/
  draws : Nat := 0
  /-- The value for RESULT0, as a natural number. -/
  result0 : Nat := 0
  /-- The value for RESULT1, as a natural number; "an unused one is written 0" (10_state.md R32). -/
  result1 : Nat := 0
  deriving DecidableEq, Repr

/-- The registers of the map of 10_state.md R37. -/
inductive Reg where
  | id
  | ctrl
  | status
  | cmd
  | errInfo
  | result0
  | result1
  | accStatus
  | accLen
  | accBase
  | arg (i : Fin 6)
  deriving DecidableEq, Repr

/-- One line of a host program (30_encoding.md R109), with `mwr A, B0 B1 …` and `mrd A, N` as their
single accesses and a label as the position it stands before (assumption log 6). -/
inductive HostInstr where
  /-- `wr OFF, V`: CsrWrite. -/
  | wr (off : BitVec 12) (v : Word)
  /-- `rd OFF`: CsrRead. -/
  | rd (off : BitVec 12)
  /-- one DmemWrite of `mwr`. -/
  | mwr (a : Nat) (b : Byte)
  /-- one DmemRead of `mrd`. -/
  | mrd (a : Nat)
  /-- `bnz BITS, label`: branch if the value last read, ANDed with BITS, is nonzero. -/
  | bnz (bits : Word) (target : Nat)
  /-- `bz BITS, label`: branch if it is zero. -/
  | bz (bits : Word) (target : Nat)
  /-- `b label`. -/
  | b (target : Nat)
  /-- `halt`: end of the host program. -/
  | halt
  deriving DecidableEq, Repr

/-- The host agent (00_scope.md R23): its program, its position and the value it last read. It is
outside the unit: no reset of the unit changes it. -/
structure HostAgent where
  prog : List HostInstr
  pc : Nat
  lastRead : Word
  deriving DecidableEq, Repr

/-- The state of the machine. INVENTORY.md, '## State', names the rule of each field. -/
structure State where
  /-- ARG0..ARG5 (10_state.md R31). -/
  args : Vector Word 6
  /-- RESULT0 (10_state.md R32). -/
  result0 : Word
  /-- RESULT1 (10_state.md R32). -/
  result1 : Word
  /-- CTRL.IRQ_EN (10_state.md R39). -/
  irqEn : Bool
  /-- STATUS.DONE (10_state.md R40). -/
  done : Bool
  /-- STATUS.ERR (10_state.md R40). -/
  err : Bool
  /-- STATUS.ERRCODE (10_state.md R40). -/
  errCode : Byte
  /-- CMD (10_state.md R41). -/
  cmd : Word
  /-- ERRINFO (10_state.md R42). -/
  errInfo : Word
  /-- The sequencer phase (10_state.md R50); STATUS.BUSY is its view (assumption log 9). -/
  seq : Phase
  /-- The accumulator (10_state.md R51). -/
  acc : Acc
  /-- DMEM (10_state.md R55). -/
  mem : Memory
  /-- The parameter DMEM_BYTES (00_scope.md R10). The model's own (assumption log 1). -/
  dmemBytes : Nat
  /-- The number of power-on resets so far. The model's own (assumption log 2). -/
  powerOns : Nat
  /-- Bytes the randomness port answers before the free stream. The model's own (log 3). -/
  rngIn : List Byte
  /-- Position in the free randomness stream. The model's own (log 3). -/
  rngDraws : Nat
  /-- Latencies of the next issues, before the free ones. The model's own (log 5). -/
  latIn : List Nat
  /-- Position in the free latencies. The model's own (log 5). -/
  issues : Nat
  /-- Host moves that may still come before the completion in progress. The model's own (log 5). -/
  latency : Nat
  /-- The power-on reset input is asserted (70_reset_and_hazards.md R340). The model's own (log 11). -/
  powerOnPin : Bool
  /-- The host agent. The model's own (log 6). -/
  host : HostAgent
  deriving DecidableEq, Repr

/-- Why a step stops with a fault. The type is empty: no rule of the spec stops the unit. "Every error
is a precise fault completion; nothing is stuck" (93_implementation_defined.md, part 1, entry 3;
60_exceptions.md R307): an error is a next state. Nobody raises a fault, which is safe (log 14). -/
inductive Fault where
  deriving DecidableEq, Repr

/-- Why an instruction has no meaning. -/
inductive Refusal where
  /-- Raised by an arm of `exec` whose instruction has no meaning yet, and by nothing else; safe. No
  arm of this model raises it. -/
  | notModelled (mnemonic : String)
  deriving DecidableEq, Repr

/-- The accumulator after reset (70_reset_and_hazards.md R343). -/
def Acc.reset : Acc :=
  { phase := .empty, threshold := 0, len := 0, count := 0, xs := Vector.replicate 32 0, base := 0 }

/-- The machine right after power-on reset (70_reset_and_hazards.md R343), with the default memory size
and nothing of DMEM known (R341). The host has no program: the unit "is Idle and waits for an issue"
(R344). -/
def State.reset : State :=
  { args := Vector.replicate 6 0, result0 := 0, result1 := 0, irqEn := false, done := false,
    err := false, errCode := 0, cmd := 0, errInfo := 0, seq := .idle, acc := Acc.reset, mem := [],
    dmemBytes := Config.dmemBytesDefault, powerOns := 0, rngIn := [], rngDraws := 0, latIn := [],
    issues := 0, latency := 0, powerOnPin := false, host := { prog := [], pc := 0, lastRead := 0 } }

end Sys2Proof.Machine
end

