-- ==== Sys2Proof/Machine/Params.lean ====
section
/-!
DEFINITION. The fixed parameters of 00_scope.md R10 and the identification value of R2.
-/

namespace Sys2Proof.Machine.Params

/-- ID, "0x53534701 at all times" (10_state.md R38). -/
def idValue : Word := 0x53534701

/-- `SPLIT_N_MAX` (00_scope.md R10). -/
abbrev splitNMax : Nat := 255

/-- `FRAME_INDEX_MAX` (00_scope.md R10). -/
abbrev frameIndexMax : Nat := 32

/-- `THRESHOLD_MAX` (00_scope.md R10). -/
abbrev thresholdMax : Nat := 32

/-- `SYMBOL_WIDTHS` (00_scope.md R10). -/
abbrev symbolWidths : List Nat := [10, 11]

/-- `HDR_INDEX_BITS` and `HDR_THRESHOLD_BITS` (00_scope.md R10). -/
abbrev hdrFieldBits : Nat := 5

/-- `SHARE_CK_BITS` (00_scope.md R10). -/
abbrev shareCkBits : Nat := 32

/-- `SHARE_OVERHEAD_BITS` (00_scope.md R10): header and share checksum together. -/
abbrev shareOverheadBits : Nat := 42

/-- `B39_LENGTHS` (00_scope.md R10), in bytes. -/
abbrev b39Lengths : List Nat := [16, 20, 24, 28, 32]

/-- The symbol counts of CK_B39_DEC (44_checksum.md R222), `3L/4` for each length of `b39Lengths`. -/
abbrev b39Counts : List Nat := [12, 15, 18, 21, 24]

/-- The iteration count of KDF_SLIP (00_scope.md R10). -/
def slipIterations : Nat := 20000

/-- The iteration count of KDF_BIP (00_scope.md R10). -/
def bipIterations : Nat := 2048

/-- ASCII "SLIP0039", the salt prefix of KDF_SLIP (45_kdf.md R241). -/
def slipSalt : List Byte := [0x53, 0x4C, 0x49, 0x50, 0x30, 0x30, 0x33, 0x39]

/-- ASCII "mnemonic", the salt prefix of KDF_BIP (45_kdf.md R242). -/
def bipSalt : List Byte := [0x6D, 0x6E, 0x65, 0x6D, 0x6F, 0x6E, 0x69, 0x63]

end Sys2Proof.Machine.Params
end

