-- ==== Sys2Proof/Machine/Bits.lean ====
section
/-!
DEFINITION. Bit strings and byte sequences (00_scope.md R13, R14; 20_memory.md R71): a bit string is a
list of bits written first to last, most significant bit first.
-/

namespace Sys2Proof.Machine

/-- `bits_w(v)[i] = v[w-1-i]` (00_scope.md R13). -/
def bitsOf (w v : Nat) : List Bool := (List.range w).map fun i => v.testBit (w - 1 - i)

/-- `val(s)`: the unsigned value of a bit string read most significant bit first (00_scope.md R13). -/
def valOf (s : List Bool) : Nat := s.foldl (fun v b => 2 * v + b.toNat) 0

/-- `bytes_to_bits(B)` (00_scope.md R14). -/
def bytesToBits (B : List Byte) : List Bool := B.flatMap fun b => bitsOf 8 b.toNat

/-- The first `n` pieces of `w` bits of a bit string. -/
def pieces (w : Nat) : Nat → List Bool → List (List Bool)
  | 0, _ => []
  | n + 1, s => s.take w :: pieces w n (s.drop w)

/-- The values of the first `n` pieces of `w` bits: symbol `j` is `val(s[w·j .. w·j + w))`. -/
def symbolsOf (w n : Nat) (s : List Bool) : List Nat := (pieces w n s).map valOf

/-- `bits_w(s[0]) ‖ bits_w(s[1]) ‖ …` of a symbol sequence. -/
def symbolsToBits (w : Nat) (syms : List Nat) : List Bool := syms.flatMap (bitsOf w)

/-- `0^k` (00_scope.md R13). -/
def zeroBits (k : Nat) : List Bool := List.replicate k false

/-- `bits_to_bytes(s)`: zero bits up to a whole byte, then bytes (00_scope.md R14). -/
def bitsToBytes (s : List Bool) : List Byte :=
  let padded := s ++ zeroBits ((8 - s.length % 8) % 8)
  (symbolsOf 8 (padded.length / 8) padded).map (BitVec.ofNat 8)

/-- The two bytes of a symbol element, high byte first (20_memory.md R72). -/
def symbolBytes (s : Nat) : List Byte := [BitVec.ofNat 8 (s / 256), BitVec.ofNat 8 s]

/-- The bytes of a symbol array: `SymWrite` of every element in turn (00_scope.md R17). -/
def symbolArrayBytes (syms : List Nat) : List Byte := syms.flatMap symbolBytes

end Sys2Proof.Machine
end

