-- ==== Sys2Proof/Machine/Galois.lean ====
section
/-!
DEFINITION. The field GF(256) over 0x11B (40_field.md R130 to R136), polynomial evaluation
(41_sharing.md R150) and Lagrange interpolation at zero (R153).
-/

namespace Sys2Proof.Machine

/-- `gf_add(a, b) = gf_sub(a, b) = a ⊕ b` (40_field.md R130). -/
def gfAdd (a b : Byte) : Byte := a ^^^ b

/-- `GF_POLY = 0x11B` (40_field.md R131), x^8 + x^4 + x^3 + x + 1. -/
def gfPoly : BitVec 15 := 0x11B

/-- The carry-less product of two polynomials, before reduction (40_field.md R131, first loop). -/
def clmul (a b : Byte) : BitVec 15 :=
  (List.range 8).foldl
    (fun p i => if b.getLsbD i then p ^^^ (a.setWidth 15 <<< i) else p) 0

/-- Reduction modulo GF_POLY: "for i in 14 downto 8" (40_field.md R131, second loop). -/
def gfReduce (p : BitVec 15) : Byte :=
  ([14, 13, 12, 11, 10, 9, 8].foldl
    (fun p i => if p.getLsbD i then p ^^^ (gfPoly <<< (i - 8)) else p) p).setWidth 8

/-- `gf_mul(a, b)` (40_field.md R131). -/
def gfMul (a b : Byte) : Byte := gfReduce (clmul a b)

/-- `gf_inv(b) = b^254` for `b ≠ 0` (40_field.md R132), as the product of `b^2, b^4, …, b^128`; for
`b = 0` it "is not defined": a free value (assumption log 8). -/
def gfInv (b : Byte) : Byte :=
  if b = 0 then Config.gfInvZero
  else
    let b2 := gfMul b b
    let b4 := gfMul b2 b2
    let b8 := gfMul b4 b4
    let b16 := gfMul b8 b8
    let b32 := gfMul b16 b16
    let b64 := gfMul b32 b32
    let b128 := gfMul b64 b64
    gfMul b2 (gfMul b4 (gfMul b8 (gfMul b16 (gfMul b32 (gfMul b64 b128)))))

/-- `gf_div(a, b) = a ⊗ gf_inv(b)` (40_field.md R133). -/
def gfDiv (a b : Byte) : Byte := gfMul a (gfInv b)

/-- `b^n`, the ⊗-product of `n` copies (40_field.md R132, R136). -/
def gfPow (b : Byte) : Nat → Byte
  | 0 => 1
  | n + 1 => gfMul (gfPow b n) b

/-- EXP, rows 0_ to 3_ (40_field.md R136). -/
def expRows0 : List Byte := [
  0x01, 0x03, 0x05, 0x0F, 0x11, 0x33, 0x55, 0xFF, 0x1A, 0x2E, 0x72, 0x96, 0xA1, 0xF8, 0x13, 0x35,
  0x5F, 0xE1, 0x38, 0x48, 0xD8, 0x73, 0x95, 0xA4, 0xF7, 0x02, 0x06, 0x0A, 0x1E, 0x22, 0x66, 0xAA,
  0xE5, 0x34, 0x5C, 0xE4, 0x37, 0x59, 0xEB, 0x26, 0x6A, 0xBE, 0xD9, 0x70, 0x90, 0xAB, 0xE6, 0x31,
  0x53, 0xF5, 0x04, 0x0C, 0x14, 0x3C, 0x44, 0xCC, 0x4F, 0xD1, 0x68, 0xB8, 0xD3, 0x6E, 0xB2, 0xCD]

/-- EXP, rows 4_ to 7_ (40_field.md R136). -/
def expRows1 : List Byte := [
  0x4C, 0xD4, 0x67, 0xA9, 0xE0, 0x3B, 0x4D, 0xD7, 0x62, 0xA6, 0xF1, 0x08, 0x18, 0x28, 0x78, 0x88,
  0x83, 0x9E, 0xB9, 0xD0, 0x6B, 0xBD, 0xDC, 0x7F, 0x81, 0x98, 0xB3, 0xCE, 0x49, 0xDB, 0x76, 0x9A,
  0xB5, 0xC4, 0x57, 0xF9, 0x10, 0x30, 0x50, 0xF0, 0x0B, 0x1D, 0x27, 0x69, 0xBB, 0xD6, 0x61, 0xA3,
  0xFE, 0x19, 0x2B, 0x7D, 0x87, 0x92, 0xAD, 0xEC, 0x2F, 0x71, 0x93, 0xAE, 0xE9, 0x20, 0x60, 0xA0]

/-- EXP, rows 8_ to B_ (40_field.md R136). -/
def expRows2 : List Byte := [
  0xFB, 0x16, 0x3A, 0x4E, 0xD2, 0x6D, 0xB7, 0xC2, 0x5D, 0xE7, 0x32, 0x56, 0xFA, 0x15, 0x3F, 0x41,
  0xC3, 0x5E, 0xE2, 0x3D, 0x47, 0xC9, 0x40, 0xC0, 0x5B, 0xED, 0x2C, 0x74, 0x9C, 0xBF, 0xDA, 0x75,
  0x9F, 0xBA, 0xD5, 0x64, 0xAC, 0xEF, 0x2A, 0x7E, 0x82, 0x9D, 0xBC, 0xDF, 0x7A, 0x8E, 0x89, 0x80,
  0x9B, 0xB6, 0xC1, 0x58, 0xE8, 0x23, 0x65, 0xAF, 0xEA, 0x25, 0x6F, 0xB1, 0xC8, 0x43, 0xC5, 0x54]

/-- EXP, rows C_ to F_ (40_field.md R136). -/
def expRows3 : List Byte := [
  0xFC, 0x1F, 0x21, 0x63, 0xA5, 0xF4, 0x07, 0x09, 0x1B, 0x2D, 0x77, 0x99, 0xB0, 0xCB, 0x46, 0xCA,
  0x45, 0xCF, 0x4A, 0xDE, 0x79, 0x8B, 0x86, 0x91, 0xA8, 0xE3, 0x3E, 0x42, 0xC6, 0x51, 0xF3, 0x0E,
  0x12, 0x36, 0x5A, 0xEE, 0x29, 0x7B, 0x8D, 0x8C, 0x8F, 0x8A, 0x85, 0x94, 0xA7, 0xF2, 0x0D, 0x17,
  0x39, 0x4B, 0xDD, 0x7C, 0x84, 0x97, 0xA2, 0xFD, 0x1C, 0x24, 0x6C, 0xB4, 0xC7, 0x52, 0xF6, 0x01]

/-- The read-only table EXP (10_state.md R53, 40_field.md R136). -/
def expTable : List Byte := expRows0 ++ expRows1 ++ expRows2 ++ expRows3

/-- LOG, rows 0_ to 3_ (40_field.md R136). -/
def logRows0 : List Byte := [
  0x00, 0x00, 0x19, 0x01, 0x32, 0x02, 0x1A, 0xC6, 0x4B, 0xC7, 0x1B, 0x68, 0x33, 0xEE, 0xDF, 0x03,
  0x64, 0x04, 0xE0, 0x0E, 0x34, 0x8D, 0x81, 0xEF, 0x4C, 0x71, 0x08, 0xC8, 0xF8, 0x69, 0x1C, 0xC1,
  0x7D, 0xC2, 0x1D, 0xB5, 0xF9, 0xB9, 0x27, 0x6A, 0x4D, 0xE4, 0xA6, 0x72, 0x9A, 0xC9, 0x09, 0x78,
  0x65, 0x2F, 0x8A, 0x05, 0x21, 0x0F, 0xE1, 0x24, 0x12, 0xF0, 0x82, 0x45, 0x35, 0x93, 0xDA, 0x8E]

/-- LOG, rows 4_ to 7_ (40_field.md R136). -/
def logRows1 : List Byte := [
  0x96, 0x8F, 0xDB, 0xBD, 0x36, 0xD0, 0xCE, 0x94, 0x13, 0x5C, 0xD2, 0xF1, 0x40, 0x46, 0x83, 0x38,
  0x66, 0xDD, 0xFD, 0x30, 0xBF, 0x06, 0x8B, 0x62, 0xB3, 0x25, 0xE2, 0x98, 0x22, 0x88, 0x91, 0x10,
  0x7E, 0x6E, 0x48, 0xC3, 0xA3, 0xB6, 0x1E, 0x42, 0x3A, 0x6B, 0x28, 0x54, 0xFA, 0x85, 0x3D, 0xBA,
  0x2B, 0x79, 0x0A, 0x15, 0x9B, 0x9F, 0x5E, 0xCA, 0x4E, 0xD4, 0xAC, 0xE5, 0xF3, 0x73, 0xA7, 0x57]

/-- LOG, rows 8_ to B_ (40_field.md R136). -/
def logRows2 : List Byte := [
  0xAF, 0x58, 0xA8, 0x50, 0xF4, 0xEA, 0xD6, 0x74, 0x4F, 0xAE, 0xE9, 0xD5, 0xE7, 0xE6, 0xAD, 0xE8,
  0x2C, 0xD7, 0x75, 0x7A, 0xEB, 0x16, 0x0B, 0xF5, 0x59, 0xCB, 0x5F, 0xB0, 0x9C, 0xA9, 0x51, 0xA0,
  0x7F, 0x0C, 0xF6, 0x6F, 0x17, 0xC4, 0x49, 0xEC, 0xD8, 0x43, 0x1F, 0x2D, 0xA4, 0x76, 0x7B, 0xB7,
  0xCC, 0xBB, 0x3E, 0x5A, 0xFB, 0x60, 0xB1, 0x86, 0x3B, 0x52, 0xA1, 0x6C, 0xAA, 0x55, 0x29, 0x9D]

/-- LOG, rows C_ to F_ (40_field.md R136). -/
def logRows3 : List Byte := [
  0x97, 0xB2, 0x87, 0x90, 0x61, 0xBE, 0xDC, 0xFC, 0xBC, 0x95, 0xCF, 0xCD, 0x37, 0x3F, 0x5B, 0xD1,
  0x53, 0x39, 0x84, 0x3C, 0x41, 0xA2, 0x6D, 0x47, 0x14, 0x2A, 0x9E, 0x5D, 0x56, 0xF2, 0xD3, 0xAB,
  0x44, 0x11, 0x92, 0xD9, 0x23, 0x20, 0x2E, 0x89, 0xB4, 0x7C, 0xB8, 0x26, 0x77, 0x99, 0xE3, 0xA5,
  0x67, 0x4A, 0xED, 0xDE, 0xC5, 0x31, 0xFE, 0x18, 0x0D, 0x63, 0x8C, 0x80, 0xC0, 0xF7, 0x70, 0x07]

/-- The read-only table LOG (10_state.md R53, 40_field.md R136). -/
def logTable : List Byte := logRows0 ++ logRows1 ++ logRows2 ++ logRows3

/-- `EXP[i]`. -/
def expAt (i : Nat) : Byte := expTable.getD i 0

/-- `LOG[a]`. -/
def logAt (a : Byte) : Nat := (logTable.getD a.toNat 0).toNat

/-- `gf_mul` by the tables (40_field.md R135): the unit's own formulation, equal to `gfMul`. -/
def gfMulByTable (a b : Byte) : Byte :=
  if a = 0 ∨ b = 0 then 0 else expAt ((logAt a + logAt b) % 255)

/-- `gf_div` by the tables for `b ≠ 0` (40_field.md R135), equal to `gfDiv` there. -/
def gfDivByTable (a b : Byte) : Byte :=
  if a = 0 then 0 else expAt ((logAt a + 255 - logAt b) % 255)

/-- `Σ⊕_{j in 0..k-1} f j` (00_scope.md R15). -/
def xorSum (f : Nat → Byte) : Nat → Byte
  | 0 => 0
  | k + 1 => xorSum f k ^^^ f k

/-- `Π⊗_{j in 0..k-1} f j` (00_scope.md R15). -/
def gfProd (f : Nat → Byte) : Nat → Byte
  | 0 => 1
  | k + 1 => gfMul (gfProd f k) (f k)

/-- `poly_eval(c, T, x)` by Horner's rule, `c` the coefficients from the constant term up
(41_sharing.md R150). -/
def polyEval (c : List Byte) (x : Byte) : Byte := c.foldr (fun ck acc => gfMul acc x ^^^ ck) 0

/-- `λ[j] = Π⊗_{m ≠ j} ( X[m] ⊘ (X[j] ⊕ X[m]) )` over `m in 0..k-1` (41_sharing.md R153). -/
def lagrangeCoeff (X : Nat → Byte) (k j : Nat) : Byte :=
  gfProd (fun m => if m = j then 1 else gfDiv (X m) (X j ^^^ X m)) k

/-- One byte of the interpolation at zero: `Σ⊕_{j in 0..k-1} ( Y[j] ⊗ λ[j] )` (41_sharing.md R154),
with the coefficients given. -/
def interpolate (coeffs : List Byte) (Y : Nat → Byte) : Byte :=
  xorSum (fun j => gfMul (Y j) (coeffs.getD j 0)) coeffs.length

/-- The coefficients `λ[0..k-1]` of the x-coordinates `X` (41_sharing.md R153). -/
def lagrangeCoeffs (X : List Byte) : List Byte :=
  (List.range X.length).map (lagrangeCoeff (fun m => X.getD m 0) X.length)

end Sys2Proof.Machine
end

