-- ==== Sys2Proof/Machine/Ops.lean ====
section
/-!
DEFINITION. The named operations over memory, ports and registers: memory primitives (00_scope.md R17),
region check (20_memory.md R74), port primitives (R18), taking an error (60_exceptions.md R306) and
completing without one (R305), issue (R300), acknowledgement (R309) and the two resets
(70_reset_and_hazards.md R340 to R345).
-/

namespace Sys2Proof.Machine

/-! ## Memory -/

/-- What is listed at an address. -/
def Memory.get? : Memory → Nat → Option Byte
  | [], _ => none
  | (a', b) :: m, a => if a' = a then some b else Memory.get? m a

/-- Write one byte, keeping the addresses strictly rising. -/
def Memory.set : Memory → Nat → Byte → Memory
  | [], a, b => [(a, b)]
  | (a', b') :: m, a, b =>
    if a < a' then (a, b) :: (a', b') :: m
    else if a = a' then (a, b) :: m
    else (a', b') :: Memory.set m a b

/-- Write consecutive bytes from an address up (`MemWrite`, 00_scope.md R17). -/
def Memory.write : Memory → Nat → List Byte → Memory
  | m, _, [] => m
  | m, a, b :: B => Memory.write (Memory.set m a b) (a + 1) B

/-- Apply a write list in program order (00_scope.md R20, 60_exceptions.md R305). -/
def Memory.applyWrites (m : Memory) (ws : List (Nat × List Byte)) : Memory :=
  ws.foldl (fun m w => Memory.write m w.1 w.2) m

/-- Every address listed is above `lo`, and addresses rise strictly. -/
def Memory.risesFrom : Nat → Memory → Bool
  | _, [] => true
  | lo, (a, _) :: m => decide (lo ≤ a) && Memory.risesFrom (a + 1) m

/-- The canonical form: strictly rising addresses. An unlisted address has no known value of its own
(70_reset_and_hazards.md R341), so no entry repeats what an unlisted address reads as. -/
def Memory.wf (m : Memory) : Bool := Memory.risesFrom 0 m

/-- Every address listed is below a bound. -/
def Memory.below (n : Nat) (m : Memory) : Bool := m.all fun c => decide (c.1 < n)

/-- `DMEM[a]`: the byte last written, or the unspecified byte of the last power-on
(70_reset_and_hazards.md R341, 20_memory.md R86). The ONE definition of what an unlisted address
reads as (assumption log 2). -/
def byteAt (s : State) (a : Nat) : Byte :=
  match Memory.get? s.mem a with
  | some b => b
  | none => Config.powerOnByte s.powerOns a

/-- `MemRead(a, n)` (00_scope.md R17). -/
def memRead (s : State) (a n : Nat) : List Byte := (List.range n).map fun k => byteAt s (a + k)

/-- `SymRead(a, j)`, big-endian (00_scope.md R17, 20_memory.md R72). -/
def symRead (s : State) (a j : Nat) : Nat :=
  256 * (byteAt s (a + 2 * j)).toNat + (byteAt s (a + 2 * j + 1)).toNat

/-- The symbol array of `n` elements at `a`. -/
def symReads (s : State) (a n : Nat) : List Nat := (List.range n).map (symRead s a)

/-- `valid(a, n)`: `a + n ≤ DMEM_BYTES` on unbounded naturals (20_memory.md R74). -/
def valid (s : State) (a n : Nat) : Bool := decide (a + n ≤ s.dmemBytes)

/-! ## Ports -/

/-- The answer to the `k`-th coming `RngByte()` call (00_scope.md R18, 10_state.md R60): the bytes
given in `rngIn` first, then the free stream (assumption log 3). -/
def rngAnswer (s : State) (k : Nat) : Byte :=
  match s.rngIn[k]? with
  | some b => b
  | none => Config.rngByte (s.rngDraws + k)

/-- The latency of the coming issue: the ones given in `latIn` first, then the free ones
(70_reset_and_hazards.md R356, assumption log 5). -/
def latencyAnswer (s : State) : Nat :=
  match s.latIn with
  | n :: _ => n
  | [] => Config.latency s.issues

/-! ## Completion -/

/-- `code(E)` (60_exceptions.md R301). -/
def errCodeOf : ErrName → Byte
  | .invalidParameters => 1
  | .insufficientShares => 2
  | .duplicateShareIndex => 3
  | .malformedShare => 4
  | .checksumMismatch => 5
  | .unknownWord => 6
  | .symbolOutOfRange => 7
  | .divisionByZero => 8
  | .illegalCommand => 9
  | .addressError => 10
  | .thresholdMismatch => 11
  | .accumulatorFull => 12

/-- Completion with error (60_exceptions.md R306): the one operation that takes an error. Nothing but
STATUS, ERRINFO and the sequencer phase changes; ERRINFO is the information mod 2^32. -/
def raise (s : State) (r : Raise) : State :=
  { s with seq := .idle, done := true, err := true, errCode := errCodeOf r.name,
           errInfo := BitVec.ofNat 32 r.info }

/-- The value a result register takes from a natural number. A number that does not fit has no stated
value (assumption log 7). -/
def toResult (i : Instr) (v : Nat) : Word :=
  if v < 2 ^ 32 then BitVec.ofNat 32 v else Config.wideResult i v

/-- Completion without error (60_exceptions.md R305): the buffered writes are applied; STATUS is
BUSY = 0, DONE = 1, ERR = 0, ERRCODE = 0; ERRINFO stays. -/
def finish (i : Instr) (s : State) (e : Effect) : State :=
  { s with
    mem := Memory.applyWrites s.mem e.writes
    acc := e.acc.getD s.acc
    rngIn := s.rngIn.drop e.draws
    rngDraws := s.rngDraws + e.draws
    result0 := toResult i e.result0
    result1 := toResult i e.result1
    seq := .idle
    done := true
    err := false
    errCode := 0 }

/-- The state in which a command's rule leaves the unit (60_exceptions.md R300, `complete()`). -/
def settle (i : Instr) (s : State) (r : Except Raise Effect) : State :=
  match r with
  | .ok e => finish i s e
  | .error r => raise s r

/-- The completion step of command `i` whose rule answers `r` (60_exceptions.md R300). -/
def complete (i : Instr) (s : State) (r : Except Raise Effect) : Host.Outcome State Fault Refusal :=
  .next (settle i s r)

/-! ## Issue, acknowledgement, reset -/

/-- `issue(v)` (60_exceptions.md R300): CMD takes `v`, the error record is cleared, the sequencer
becomes Busy. -/
def issue (s : State) (v : Word) : State :=
  { s with cmd := v, seq := .busy, done := false, err := false, errCode := 0, errInfo := 0,
           latency := latencyAnswer s, latIn := s.latIn.tail, issues := s.issues + 1 }

/-- `ACK` (60_exceptions.md R309, 10_state.md R40): DONE is cleared, the error record stays. There is
no return from an error other than this and the next issue (R308, R309). -/
def acknowledge (s : State) : State := { s with done := false }

/-- The reset values both resets give (70_reset_and_hazards.md R343). -/
def resetRegisters (s : State) : State :=
  { s with
    args := Vector.replicate 6 0
    result0 := 0
    result1 := 0
    irqEn := false
    done := false
    err := false
    errCode := 0
    cmd := 0
    errInfo := 0
    seq := .idle
    acc := Acc.reset
    latency := 0 }

/-- Soft reset: "DMEM is not changed" (70_reset_and_hazards.md R342). -/
def softReset (s : State) : State := resetRegisters s

/-- Power-on reset (70_reset_and_hazards.md R340): a command in progress is abandoned with none of its
writes applied, and every DMEM byte is unspecified afresh (R341). What becomes of a host access that was
held is not said (20_memory.md R80). DESIGN CHOICE: the host stays at it, and performs it once the reset
has made the phase Idle (assumption log 11). -/
def powerOnReset (s : State) : State :=
  { resetRegisters s with mem := [], powerOns := s.powerOns + 1, powerOnPin := false }

end Sys2Proof.Machine
end

