-- ==== Sys2Proof/Machine/Operands.lean ====
section
/-!
DEFINITION. The operand forms (30_encoding.md R106, R107): whole registers as natural numbers, and the
byte operands of the GF commands. No operand is sign-extended, scaled or shifted.
-/

namespace Sys2Proof.Machine

/-- `x[i]`: ARGi "used as an unbounded natural number" (00_scope.md R16, 30_encoding.md R107). -/
def argNat (s : State) (i : Fin 6) : Nat := s.args[i].toNat

/-- `x[i][7:0]`: the field operand of a GF command; bits [31:8] are ignored (30_encoding.md R107). -/
def argByte (s : State) (i : Fin 6) : Byte := s.args[i].setWidth 8

end Sys2Proof.Machine
end

