-- ==== Sys2Proof/Machine/Flags.lean ====
section
/-!
DEFINITION. The register views composed of flags and fields: STATUS (10_state.md R40), CTRL (R39),
ACC_STATUS (R44), and the interrupt output (R57). No command sets a flag as an arithmetic side effect
(R36): the only flag computation is composition.
-/

namespace Sys2Proof.Machine

/-- STATUS.BUSY: "1 from issue to completion" (10_state.md R40), which is the phase Busy (R50). -/
def busy (s : State) : Bool :=
  match s.seq with
  | .idle => false
  | .busy => true

/-- STATUS: [31:16] 0, [15:8] ERRCODE, [7:3] 0, bit 2 ERR, bit 1 DONE, bit 0 BUSY (10_state.md R40). -/
def statusWord (s : State) : Word :=
  0#16 ++ s.errCode ++ 0#5 ++ BitVec.ofBool s.err ++ BitVec.ofBool s.done ++ BitVec.ofBool (busy s)

/-- CTRL as read: bit 0 IRQ_EN; SRST and [31:2] read as zero (10_state.md R39). -/
def ctrlWord (s : State) : Word := 0#31 ++ BitVec.ofBool s.irqEn

/-- The 2-bit code of an accumulator phase (10_state.md R44, R51); 3 never occurs. -/
def accPhaseCode : AccPhase → BitVec 2
  | .empty => 0
  | .collecting => 1
  | .ready => 2

/-- ACC_STATUS: [31:24] 0, [23:16] THRESHOLD, [15:8] COUNT, [7:2] 0, [1:0] PHASE (10_state.md R44). -/
def accStatusWord (s : State) : Word :=
  0#8 ++ s.acc.threshold.setWidth 8 ++ s.acc.count.setWidth 8 ++ 0#6 ++ accPhaseCode s.acc.phase

/-- The interrupt output, `IRQ = CTRL.IRQ_EN ∧ STATUS.DONE` (10_state.md R57, 60_exceptions.md R314). -/
def irq (s : State) : Bool := s.irqEn && s.done

end Sys2Proof.Machine
end

