-- ==== Sys2Proof/Machine/BitPack.lean ====
section
/-!
DEFINITION. BP_PACK and BP_UNPACK (42_bitpack.md R170 to R172).
-/

namespace Sys2Proof.Machine

/-- The lowest position whose symbol is not below `bound`, counted from `j` (60_exceptions.md R302,
SymbolOutOfRange). -/
def firstOutOfRange (bound : Nat) : Nat → List Nat → Option Nat
  | _, [] => none
  | j, x :: X => if bound ≤ x then some j else firstOutOfRange bound (j + 1) X

/-- `pack(symbols, w)` (42_bitpack.md R171). -/
def packSymbols (w : Nat) (syms : List Nat) : List Byte := bitsToBytes (symbolsToBits w syms)

/-- `unpack(data, w)` (42_bitpack.md R172): the last symbol's low bits are padded with zeros. -/
def unpackBytes (w : Nat) (B : List Byte) : List Nat :=
  let n := cdiv (8 * B.length) w
  symbolsOf w n (bytesToBits B ++ zeroBits (n * w - 8 * B.length))

/-- BP_PACK (42_bitpack.md R171). -/
def ruleBpPack (s : State) : Except Raise Effect :=
  let src := argNat s 0
  let n := argNat s 1
  let w := argNat s 2
  let dst := argNat s 3
  if w ∉ Params.symbolWidths then .error ⟨.invalidParameters, 4⟩
  else
    let nb := cdiv (n * w) 8
    if !valid s src (2 * n) then .error ⟨.addressError, src⟩
    else if !valid s dst nb then .error ⟨.addressError, dst⟩
    else
      let syms := symReads s src n
      match firstOutOfRange (2 ^ w) 0 syms with
      | some j => .error ⟨.symbolOutOfRange, j⟩
      | none => .ok { writes := [(dst, packSymbols w syms)], result0 := nb, result1 := 8 * nb - n * w }

def execBpPack (s : State) : Host.Outcome State Fault Refusal := complete .bpPack s (ruleBpPack s)

/-- BP_UNPACK (42_bitpack.md R172). -/
def ruleBpUnpack (s : State) : Except Raise Effect :=
  let src := argNat s 0
  let m := argNat s 1
  let w := argNat s 2
  let dst := argNat s 3
  if w ∉ Params.symbolWidths then .error ⟨.invalidParameters, 4⟩
  else
    let n := cdiv (8 * m) w
    if !valid s src m then .error ⟨.addressError, src⟩
    else if !valid s dst (2 * n) then .error ⟨.addressError, dst⟩
    else .ok { writes := [(dst, symbolArrayBytes (unpackBytes w (memRead s src m)))]
               result0 := n
               result1 := n * w - 8 * m }

def execBpUnpack (s : State) : Host.Outcome State Fault Refusal := complete .bpUnpack s (ruleBpUnpack s)

end Sys2Proof.Machine
end

