-- ==== Sys2Proof/Machine/Sharing.lean ====
section
/-!
DEFINITION. SSS_SPLIT and SSS_RECON (41_sharing.md R151, R154).
-/

namespace Sys2Proof.Machine

/-- "L = 0 or L mod 2 = 1": the length InvalidParameters(2) refuses (60_exceptions.md R302). -/
def badLength (L : Nat) : Bool := L == 0 || L % 2 == 1

/-- The coefficient lists of a split: for byte position `i` the secret byte and then `T - 1` random
bytes, drawn position ascending, coefficient ascending within it (41_sharing.md R151). -/
def splitCoeffs (s : State) (src L T : Nat) : List (List Byte) :=
  (List.range L).map fun i =>
    byteAt s (src + i) :: (List.range (T - 1)).map fun k => rngAnswer s (i * (T - 1) + k)

/-- The share at x-coordinate `xv`: every position's polynomial evaluated there. -/
def shareBytes (coeffs : List (List Byte)) (xv : Nat) : List Byte :=
  coeffs.map fun c => polyEval c (BitVec.ofNat 8 xv)

/-- The writes of a split: share `x` at `dst + (x-1)·L`, x ascending from 1 (41_sharing.md R151). -/
def splitWrites (coeffs : List (List Byte)) (L N dst : Nat) : List (Nat × List Byte) :=
  (List.range N).map fun j => (dst + j * L, shareBytes coeffs (j + 1))

/-- SSS_SPLIT (41_sharing.md R151). -/
def ruleSssSplit (s : State) : Except Raise Effect :=
  let src := argNat s 0
  let L := argNat s 1
  let T := argNat s 2
  let N := argNat s 3
  let dst := argNat s 4
  if ¬(1 ≤ T ∧ T ≤ N ∧ N ≤ Params.splitNMax) then .error ⟨.invalidParameters, 1⟩
  else if badLength L then .error ⟨.invalidParameters, 2⟩
  else if !valid s src L then .error ⟨.addressError, src⟩
  else if !valid s dst (N * L) then .error ⟨.addressError, dst⟩
  else .ok { writes := splitWrites (splitCoeffs s src L T) L N dst
             draws := L * (T - 1)
             result0 := N * L
             result1 := N }

def execSssSplit (s : State) : Host.Outcome State Fault Refusal := complete .sssSplit s (ruleSssSplit s)

/-- The first element of a list that equals an earlier one, given what came before: "the value of the
first repeated coordinate in array order" (41_sharing.md R154). -/
def firstRepeat : List Byte → List Byte → Option Byte
  | _, [] => none
  | seen, x :: X => if x ∈ seen then some x else firstRepeat (x :: seen) X

/-- The bytes interpolated at zero from share buffers of `L` bytes stored one after the other at `ya`
(41_sharing.md R153, R154). -/
def reconBytes (s : State) (X : List Byte) (ya L : Nat) : List Byte :=
  let lam := lagrangeCoeffs X
  (List.range L).map fun i => interpolate lam fun j => byteAt s (ya + j * L + i)

/-- SSS_RECON (41_sharing.md R154). -/
def ruleSssRecon (s : State) : Except Raise Effect :=
  let xa := argNat s 0
  let k := argNat s 1
  let ya := argNat s 2
  let L := argNat s 3
  let dst := argNat s 4
  if k < 2 then .error ⟨.insufficientShares, k⟩
  else if badLength L then .error ⟨.invalidParameters, 2⟩
  else if !valid s xa k then .error ⟨.addressError, xa⟩
  else if !valid s ya (k * L) then .error ⟨.addressError, ya⟩
  else if !valid s dst L then .error ⟨.addressError, dst⟩
  else
    let X := memRead s xa k
    if (0 : Byte) ∈ X then .error ⟨.invalidParameters, 3⟩
    else
      match firstRepeat [] X with
      | some x => .error ⟨.duplicateShareIndex, x.toNat⟩
      | none => .ok { writes := [(dst, reconBytes s X ya L)], result0 := L, result1 := k }

def execSssRecon (s : State) : Host.Outcome State Fault Refusal := complete .sssRecon s (ruleSssRecon s)

end Sys2Proof.Machine
end

