-- ==== Sys2Proof/Machine/Framing.lean ====
section
/-!
DEFINITION. The share frame, its checksum and its parse (43_framing.md R190 to R198), SF_FRAME (R196)
and SF_UNFRAME (R199).
-/

namespace Sys2Proof.Machine

/-- `W(L) = cdiv(8L + 42, 10)` (43_framing.md R192). -/
def frameSymbols (L : Nat) : Nat := cdiv (8 * L + Params.shareOverheadBits) 10

/-- One of the 8 shifts of the reflected CRC (43_framing.md R195). -/
def crcShift (c : Word) : Word := if c.getLsbD 0 then (c >>> 1) ^^^ 0xEDB88320 else c >>> 1

/-- One byte of the CRC (43_framing.md R195). -/
def crcByte (c : Word) (b : Byte) : Word :=
  crcShift (crcShift (crcShift (crcShift (crcShift (crcShift (crcShift (crcShift
    (c ^^^ b.setWidth 32))))))))

/-- `crc32(B)` (43_framing.md R195). -/
def crc32 (B : List Byte) : Word := B.foldl crcByte 0xFFFFFFFF ^^^ 0xFFFFFFFF

/-- `H(idx, thr, P)`: header and payload (43_framing.md R190, R191). -/
def frameHead (idx thr : Nat) (P : List Byte) : List Bool :=
  bitsOf Params.hdrFieldBits (idx - 1) ++ bitsOf Params.hdrFieldBits (thr - 1) ++ bytesToBits P

/-- `share_ck(H)` (43_framing.md R194). -/
def shareCk (H : List Bool) : Nat := (crc32 (bitsToBytes H)).toNat

/-- `F(idx, thr, P)`: header, payload and share checksum (43_framing.md R190). -/
def frameBits (idx thr : Nat) (P : List Byte) : List Bool :=
  frameHead idx thr P ++ bitsOf Params.shareCkBits (shareCk (frameHead idx thr P))

/-- The symbols of a framed share, the last one padded with zero bits (43_framing.md R192). -/
def frameSyms (idx thr : Nat) (P : List Byte) : List Nat :=
  let W := frameSymbols P.length
  symbolsOf 10 W
    (frameBits idx thr P ++ zeroBits (10 * W - 8 * P.length - Params.shareOverheadBits))

/-- SF_FRAME (43_framing.md R196). -/
def ruleSfFrame (s : State) : Except Raise Effect :=
  let idx := argNat s 0
  let thr := argNat s 1
  let pa := argNat s 2
  let L := argNat s 3
  let dst := argNat s 4
  if ¬(1 ≤ idx ∧ idx ≤ Params.frameIndexMax) then .error ⟨.invalidParameters, 5⟩
  else if ¬(1 ≤ thr ∧ thr ≤ Params.thresholdMax) then .error ⟨.invalidParameters, 6⟩
  else if badLength L then .error ⟨.invalidParameters, 2⟩
  else
    let W := frameSymbols L
    if !valid s pa L then .error ⟨.addressError, pa⟩
    else if !valid s dst (2 * W) then .error ⟨.addressError, dst⟩
    else .ok { writes := [(dst, symbolArrayBytes (frameSyms idx thr (memRead s pa L)))]
               result0 := W
               result1 := 8 * L + Params.shareOverheadBits }

def execSfFrame (s : State) : Host.Outcome State Fault Refusal := complete .sfFrame s (ruleSfFrame s)

/-- `Linf(W)`: the payload length inferred from a symbol count, by the closed form of 43_framing.md
R197. -/
def payloadLen? (W : Nat) : Option Nat :=
  if 10 * W < Params.shareOverheadBits then none
  else
    let L := 2 * ((10 * W - Params.shareOverheadBits) / 16)
    if 2 ≤ L ∧ 10 * W - 10 < 8 * L + Params.shareOverheadBits then some L else none

/-- What a frame carries. -/
structure Parsed where
  idx : Nat
  thr : Nat
  payload : List Byte
  deriving DecidableEq, Repr

/-- `parse_frame` over the symbols read, for payload length `L` (43_framing.md R198). -/
def parseFrame (L : Nat) (syms : List Nat) : Except Raise Parsed :=
  match firstOutOfRange 1024 0 syms with
  | some j => .error ⟨.symbolOutOfRange, j⟩
  | none =>
    let F := symbolsToBits 10 syms
    let H := F.take (10 + 8 * L)
    if F.drop (8 * L + Params.shareOverheadBits) ≠
        zeroBits (10 * syms.length - 8 * L - Params.shareOverheadBits) then
      .error ⟨.malformedShare, 2⟩
    else if valOf ((F.drop (10 + 8 * L)).take Params.shareCkBits) ≠ shareCk H then
      .error ⟨.malformedShare, 3⟩
    else
      .ok { idx := valOf (F.take 5) + 1
            thr := valOf ((F.drop 5).take 5) + 1
            payload := bitsToBytes ((F.drop 10).take (8 * L)) }

/-- SF_UNFRAME (43_framing.md R199). -/
def ruleSfUnframe (s : State) : Except Raise Effect :=
  let sa := argNat s 0
  let W := argNat s 1
  let dst := argNat s 2
  match payloadLen? W with
  | none => .error ⟨.malformedShare, 1⟩
  | some L =>
    if !valid s sa (2 * W) then .error ⟨.addressError, sa⟩
    else if !valid s dst L then .error ⟨.addressError, dst⟩
    else
      match parseFrame L (symReads s sa W) with
      | .error r => .error r
      | .ok p => .ok { writes := [(dst, p.payload)], result0 := L, result1 := p.idx + 256 * p.thr }

def execSfUnframe (s : State) : Host.Outcome State Fault Refusal := complete .sfUnframe s (ruleSfUnframe s)

end Sys2Proof.Machine
end

