-- ==== Sys2Proof/Machine/Accumulator.lean ====
section
/-!
DEFINITION. ACC_RESET, ACC_ADD and ACC_MERGE (46_accumulator.md R260, R261, R264).
-/

namespace Sys2Proof.Machine

/-- ACC_RESET (46_accumulator.md R260): every field cleared, `base` set. -/
def ruleAccReset (s : State) : Except Raise Effect :=
  .ok { acc := some { Acc.reset with base := s.args[0] }, result0 := 0, result1 := 0 }

def execAccReset (s : State) : Host.Outcome State Fault Refusal := complete .accReset s (ruleAccReset s)

/-- The accepted share indices, `acc.xs[0..count-1]` (10_state.md R51). -/
def accIndices (a : Acc) : List Byte := a.xs.toList.take a.count.toNat

/-- What the session checks raise for a parsed share of payload length `L`, in phase Collecting:
threshold, then payload length, then duplicate index (46_accumulator.md R261). -/
def sessionCheck (a : Acc) (L : Nat) (p : Parsed) : Option Raise :=
  match a.phase with
  | .collecting =>
    if p.thr ≠ a.threshold.toNat then some ⟨.thresholdMismatch, p.thr⟩
    else if L ≠ a.len.toNat then some ⟨.malformedShare, 4⟩
    else if BitVec.ofNat 8 p.idx ∈ accIndices a then some ⟨.duplicateShareIndex, p.idx⟩
    else none
  | .empty => none
  | .ready => none

/-- The accumulator after accepting a share (46_accumulator.md R261, R263). -/
def accAccept (a : Acc) (L : Nat) (p : Parsed) : Acc :=
  let T : BitVec 6 := if a.phase = .empty then BitVec.ofNat 6 p.thr else a.threshold
  let len : Word := if a.phase = .empty then BitVec.ofNat 32 L else a.len
  let count : BitVec 6 := a.count + 1
  { phase := if max T.toNat 2 ≤ count.toNat then .ready else .collecting
    threshold := T
    len := len
    count := count
    xs := a.xs.setIfInBounds a.count.toNat (BitVec.ofNat 8 p.idx)
    base := a.base }

/-- ACC_ADD (46_accumulator.md R261). -/
def ruleAccAdd (s : State) : Except Raise Effect :=
  let sa := argNat s 0
  let W := argNat s 1
  if s.acc.phase = .ready then .error ⟨.accumulatorFull, s.acc.count.toNat⟩
  else
    match payloadLen? W with
    | none => .error ⟨.malformedShare, 1⟩
    | some L =>
      if !valid s sa (2 * W) then .error ⟨.addressError, sa⟩
      else
        match parseFrame L (symReads s sa W) with
        | .error r => .error r
        | .ok p =>
          match sessionCheck s.acc L p with
          | some r => .error r
          | none =>
            let slot := s.acc.base.toNat + s.acc.count.toNat * L
            if !valid s slot L then .error ⟨.addressError, slot⟩
            else .ok { writes := [(slot, p.payload)]
                       acc := some (accAccept s.acc L p)
                       result0 := (accAccept s.acc L p).count.toNat
                       result1 := p.idx + 256 * p.thr }

def execAccAdd (s : State) : Host.Outcome State Fault Refusal := complete .accAdd s (ruleAccAdd s)

/-- ACC_MERGE (46_accumulator.md R264): the accumulator is unchanged. -/
def ruleAccMerge (s : State) : Except Raise Effect :=
  let dst := argNat s 0
  if s.acc.phase ≠ .ready then .error ⟨.insufficientShares, s.acc.count.toNat⟩
  else
    let L := s.acc.len.toNat
    let k := s.acc.count.toNat
    if !valid s dst L then .error ⟨.addressError, dst⟩
    else .ok { writes := [(dst, reconBytes s (accIndices s.acc) s.acc.base.toNat L)]
               result0 := L
               result1 := k }

def execAccMerge (s : State) : Host.Outcome State Fault Refusal := complete .accMerge s (ruleAccMerge s)

end Sys2Proof.Machine
end

