-- ==== Sys2Proof/Machine/Checksum.lean ====
section
/-!
DEFINITION. CK_B39_ENC and CK_B39_DEC (44_checksum.md R220 to R222).
-/

namespace Sys2Proof.Machine

/-- The leading `L/4` bits of a hash of the `L`-byte entropy `E` (44_checksum.md R220). -/
def b39Check (hash : List Byte → List Byte) (E : List Byte) : List Bool :=
  (bytesToBits (hash E)).take (E.length / 4)

/-- The symbols of `M(E)` (44_checksum.md R220). -/
def b39Symbols (hash : List Byte → List Byte) (E : List Byte) : List Nat :=
  symbolsOf 11 (3 * E.length / 4) (bytesToBits E ++ b39Check hash E)

/-- The entropy of received symbols, or what CK_B39_DEC raises (44_checksum.md R222). -/
def b39Entropy (hash : List Byte → List Byte) (L : Nat) (syms : List Nat) : Except Raise (List Byte) :=
  match firstOutOfRange 2048 0 syms with
  | some j => .error ⟨.symbolOutOfRange, j⟩
  | none =>
    let M := symbolsToBits 11 syms
    let E := bitsToBytes (M.take (8 * L))
    let cs := (M.drop (8 * L)).take (L / 4)
    if cs ≠ b39Check hash E then .error ⟨.checksumMismatch, valOf cs⟩ else .ok E

/-- `SHA256` of the hash port as a byte sequence (10_state.md R61). -/
def sha256Bytes (B : List Byte) : List Byte := (Config.sha256 B).toList

/-- CK_B39_ENC (44_checksum.md R221). -/
def ruleCkB39Enc (s : State) : Except Raise Effect :=
  let src := argNat s 0
  let L := argNat s 1
  let dst := argNat s 2
  if L ∉ Params.b39Lengths then .error ⟨.invalidParameters, 7⟩
  else
    let W := 3 * L / 4
    if !valid s src L then .error ⟨.addressError, src⟩
    else if !valid s dst (2 * W) then .error ⟨.addressError, dst⟩
    else .ok { writes := [(dst, symbolArrayBytes (b39Symbols sha256Bytes (memRead s src L)))]
               result0 := W
               result1 := L / 4 }

def execCkB39Enc (s : State) : Host.Outcome State Fault Refusal := complete .ckB39Enc s (ruleCkB39Enc s)

/-- CK_B39_DEC (44_checksum.md R222). -/
def ruleCkB39Dec (s : State) : Except Raise Effect :=
  let src := argNat s 0
  let W := argNat s 1
  let dst := argNat s 2
  if W ∉ Params.b39Counts then .error ⟨.invalidParameters, 8⟩
  else
    let L := 4 * W / 3
    if !valid s src (2 * W) then .error ⟨.addressError, src⟩
    else if !valid s dst L then .error ⟨.addressError, dst⟩
    else
      match b39Entropy sha256Bytes L (symReads s src W) with
      | .error r => .error r
      | .ok E => .ok { writes := [(dst, E)], result0 := L, result1 := L / 4 }

def execCkB39Dec (s : State) : Host.Outcome State Fault Refusal := complete .ckB39Dec s (ruleCkB39Dec s)

end Sys2Proof.Machine
end

