-- ==== Sys2Proof/Machine/Field.lean ====
section
/-!
DEFINITION. GF_ADD, GF_SUB, GF_MUL, GF_DIV (40_field.md R137 to R140). Operands `a = ARG0[7:0]`,
`b = ARG1[7:0]`; the result goes to RESULT0 zero-extended and RESULT1 becomes 0.
-/

namespace Sys2Proof.Machine

/-- The effect of a GF command with field result `v`. -/
def fieldResult (v : Byte) : Effect := { result0 := v.toNat, result1 := 0 }

/-- GF_ADD (40_field.md R137). -/
def ruleGfAdd (s : State) : Except Raise Effect :=
  .ok (fieldResult (gfAdd (argByte s 0) (argByte s 1)))

def execGfAdd (s : State) : Host.Outcome State Fault Refusal := complete .gfAdd s (ruleGfAdd s)

/-- GF_SUB, "identical to add in GF(2^8), i.e. xor" (40_field.md R138). -/
def ruleGfSub (s : State) : Except Raise Effect :=
  .ok (fieldResult (gfAdd (argByte s 0) (argByte s 1)))

def execGfSub (s : State) : Host.Outcome State Fault Refusal := complete .gfSub s (ruleGfSub s)

/-- GF_MUL (40_field.md R139). -/
def ruleGfMul (s : State) : Except Raise Effect :=
  .ok (fieldResult (gfMul (argByte s 0) (argByte s 1)))

def execGfMul (s : State) : Host.Outcome State Fault Refusal := complete .gfMul s (ruleGfMul s)

/-- GF_DIV (40_field.md R140). -/
def ruleGfDiv (s : State) : Except Raise Effect :=
  if argByte s 1 = 0 then .error ⟨.divisionByZero, 0⟩
  else .ok (fieldResult (gfDiv (argByte s 0) (argByte s 1)))

def execGfDiv (s : State) : Host.Outcome State Fault Refusal := complete .gfDiv s (ruleGfDiv s)

end Sys2Proof.Machine
end

