-- ==== Sys2Proof/Machine/Kdf.lean ====
section
/-!
DEFINITION. PBKDF2 (45_kdf.md R240), the reference definition of HMAC (R245), KDF_SLIP (R241) and
KDF_BIP (R242).
-/

namespace Sys2Proof.Machine

/-- Bytewise exclusive-or of two byte sequences. -/
def xorBytes (A B : List Byte) : List Byte := List.zipWith (· ^^^ ·) A B

/-- The loop of PBKDF2 with `n` iterations left, from `U` and `T` (45_kdf.md R240). -/
def pbkdf2Loop (prf : List Byte → List Byte → List Byte) (P : List Byte) :
    Nat → List Byte → List Byte → List Byte
  | 0, _, T => T
  | n + 1, U, T => pbkdf2Loop prf P n (prf P U) (xorBytes T (prf P U))

/-- `PBKDF2(PRF, P, S, c)` with one output block, block index 1 (45_kdf.md R240). -/
def pbkdf2 (prf : List Byte → List Byte → List Byte) (P S : List Byte) (c : Nat) : List Byte :=
  let U := prf P (S ++ [0x00, 0x00, 0x00, 0x01])
  pbkdf2Loop prf P (c - 1) U U

/-- `K0`: a key cut by the hash if it is longer than a block, then zero-extended to a block
(45_kdf.md R245). -/
def hmacKey (H : List Byte → List Byte) (Bk : Nat) (K : List Byte) : List Byte :=
  let K' := if K.length ≤ Bk then K else H K
  K' ++ List.replicate (Bk - K'.length) 0

/-- HMAC of RFC 2104 over the hash `H` with block size `Bk`: the reference the port functions are
intended to be (45_kdf.md R245). The unit itself calls `Config.hmacSha256` and `Config.hmacSha512`. -/
def hmacReference (H : List Byte → List Byte) (Bk : Nat) (K M : List Byte) : List Byte :=
  let K0 := hmacKey H Bk K
  H (K0.map (· ^^^ 0x5C) ++ H (K0.map (· ^^^ 0x36) ++ M))

/-- `HMAC_SHA256` of the hash port as a byte sequence (10_state.md R61). -/
def hmacSha256Bytes (K M : List Byte) : List Byte := (Config.hmacSha256 K M).toList

/-- `HMAC_SHA512` of the hash port as a byte sequence (10_state.md R61). -/
def hmacSha512Bytes (K M : List Byte) : List Byte := (Config.hmacSha512 K M).toList

/-- A key derivation: PBKDF2 with `prf` over the salt `prefix ‖ passphrase`, `dkLen` bytes to ARG4
(45_kdf.md R241, R242). -/
def deriveKey (s : State) (prf : List Byte → List Byte → List Byte) (saltPrefix : List Byte)
    (c dkLen : Nat) : Except Raise Effect :=
  let pa := argNat s 0
  let pl := argNat s 1
  let sa := argNat s 2
  let sl := argNat s 3
  let dst := argNat s 4
  if !valid s pa pl then .error ⟨.addressError, pa⟩
  else if !valid s sa sl then .error ⟨.addressError, sa⟩
  else if !valid s dst dkLen then .error ⟨.addressError, dst⟩
  else .ok { writes := [(dst, pbkdf2 prf (memRead s pa pl) (saltPrefix ++ memRead s sa sl) c)]
             result0 := dkLen
             result1 := c }

/-- KDF_SLIP (45_kdf.md R241). -/
def ruleKdfSlip (s : State) : Except Raise Effect :=
  deriveKey s hmacSha256Bytes Params.slipSalt Params.slipIterations 32

def execKdfSlip (s : State) : Host.Outcome State Fault Refusal := complete .kdfSlip s (ruleKdfSlip s)

/-- KDF_BIP (45_kdf.md R242). -/
def ruleKdfBip (s : State) : Except Raise Effect :=
  deriveKey s hmacSha512Bytes Params.bipSalt Params.bipIterations 64

def execKdfBip (s : State) : Host.Outcome State Fault Refusal := complete .kdfBip s (ruleKdfBip s)

end Sys2Proof.Machine
end

