-- ==== Sys2Proof/Machine/Dispatch.lean ====
section
/-!
DEFINITION. One arm per command: the completion step of the command word in CMD (60_exceptions.md R300).
-/

namespace Sys2Proof.Machine

def exec (i : Instr) (s : State) : Host.Outcome State Fault Refusal :=
  match i with
  | .gfAdd => Sys2Proof.Machine.execGfAdd s
  | .gfSub => Sys2Proof.Machine.execGfSub s
  | .gfMul => Sys2Proof.Machine.execGfMul s
  | .gfDiv => Sys2Proof.Machine.execGfDiv s
  | .sssSplit => Sys2Proof.Machine.execSssSplit s
  | .sssRecon => Sys2Proof.Machine.execSssRecon s
  | .bpPack => Sys2Proof.Machine.execBpPack s
  | .bpUnpack => Sys2Proof.Machine.execBpUnpack s
  | .sfFrame => Sys2Proof.Machine.execSfFrame s
  | .sfUnframe => Sys2Proof.Machine.execSfUnframe s
  | .ckB39Enc => Sys2Proof.Machine.execCkB39Enc s
  | .ckB39Dec => Sys2Proof.Machine.execCkB39Dec s
  | .kdfSlip => Sys2Proof.Machine.execKdfSlip s
  | .kdfBip => Sys2Proof.Machine.execKdfBip s
  | .accReset => Sys2Proof.Machine.execAccReset s
  | .accAdd => Sys2Proof.Machine.execAccAdd s
  | .accMerge => Sys2Proof.Machine.execAccMerge s

end Sys2Proof.Machine
end

