-- ==== Sys2Proof/Machine/Bus.lean ====
section
/-!
DEFINITION. The host bus (10_state.md R59): the register map (R37), the four accesses (20_memory.md R75
to R77), the hold while Busy (R80), and one move of the host agent (30_encoding.md R109).
-/

namespace Sys2Proof.Machine

/-- The register at an offset; bits [1:0] of the offset are ignored (10_state.md R37, 20_memory.md R76);
`none` is a reserved offset (R47). -/
def regAt (off : BitVec 12) : Option Reg :=
  match off.toNat / 4 with
  | 0 => some .id
  | 1 => some .ctrl
  | 2 => some .status
  | 3 => some .cmd
  | 4 => some .errInfo
  | 5 => some .result0
  | 6 => some .result1
  | 7 => some .accStatus
  | 8 => some .accLen
  | 9 => some .accBase
  | 16 => some (.arg 0)
  | 17 => some (.arg 1)
  | 18 => some (.arg 2)
  | 19 => some (.arg 3)
  | 20 => some (.arg 4)
  | 21 => some (.arg 5)
  | _ => none

/-- The value of a register of the map (10_state.md R38 to R46). -/
def readReg (s : State) : Reg → Word
  | .id => Params.idValue
  | .ctrl => ctrlWord s
  | .status => statusWord s
  | .cmd => s.cmd
  | .errInfo => s.errInfo
  | .result0 => s.result0
  | .result1 => s.result1
  | .accStatus => accStatusWord s
  | .accLen => s.acc.len
  | .accBase => s.acc.base
  | .arg i => s.args[i]

/-- CsrRead: a reserved offset reads 0 (10_state.md R47, R49). -/
def csrRead (s : State) (off : BitVec 12) : Word :=
  match regAt off with
  | some r => readReg s r
  | none => 0

/-- The write of CTRL: IRQ_EN takes bit 0, and then bit 1 = 1 performs the soft reset
(10_state.md R39). -/
def writeCtrl (s : State) (v : Word) : State :=
  let s' := { s with irqEn := v.getLsbD 0 }
  if v.getLsbD 1 then softReset s' else s'

/-- The write of STATUS: bit 1 = 1 clears DONE, every other bit is ignored (10_state.md R40). -/
def writeStatus (s : State) (v : Word) : State :=
  if v.getLsbD 1 then acknowledge s else s

/-- The write of a register of the map while the unit is Idle (10_state.md R34, R39 to R41, R46, R48);
writes to read-only registers are ignored. -/
def writeReg (s : State) (r : Reg) (v : Word) : State :=
  match r with
  | .ctrl => writeCtrl s v
  | .status => writeStatus s v
  | .cmd => issue s v
  | .arg i => { s with args := s.args.set i v }
  | .id => s
  | .errInfo => s
  | .result0 => s
  | .result1 => s
  | .accStatus => s
  | .accLen => s
  | .accBase => s

/-- CsrWrite while the unit is Idle: a reserved offset ignores it (10_state.md R47). -/
def csrWrite (s : State) (off : BitVec 12) (v : Word) : State :=
  match regAt off with
  | some r => writeReg s r v
  | none => s

/-- DmemRead: 0 from `DMEM_BYTES` up (20_memory.md R77). -/
def dmemRead (s : State) (a : Nat) : Byte := if a < s.dmemBytes then byteAt s a else 0

/-- DmemWrite: ignored from `DMEM_BYTES` up (20_memory.md R77). -/
def dmemWrite (s : State) (a : Nat) (b : Byte) : State :=
  if a < s.dmemBytes then { s with mem := Memory.set s.mem a b } else s

/-- The accesses that are held while the sequencer is Busy: all but CsrRead of STATUS and ID
(20_memory.md R80). Branches and `halt` "issue no bus access" (30_encoding.md R109). -/
def heldWhileBusy : HostInstr → Bool
  | .wr _ _ => true
  | .rd off => regAt off != some .status && regAt off != some .id
  | .mwr _ _ => true
  | .mrd _ => true
  | .bnz _ _ => false
  | .bz _ _ => false
  | .b _ => false
  | .halt => false

/-- The host goes on to position `pc`. -/
def hostGoto (s : State) (pc : Nat) : State := { s with host := { s.host with pc := pc } }

/-- The host goes on to its next line. -/
def hostNext (s : State) : State := hostGoto s (s.host.pc + 1)

/-- The host takes a read value and goes on to its next line. -/
def hostRead (s : State) (v : Word) : State :=
  hostNext { s with host := { s.host with lastRead := v } }

/-- What one line of the host program does (30_encoding.md R109), the access performed. -/
def hostPerform (s : State) : HostInstr → State
  | .wr off v => hostNext (csrWrite s off v)
  | .rd off => hostRead s (csrRead s off)
  | .mwr a b => hostNext (dmemWrite s a b)
  | .mrd a => hostRead s ((dmemRead s a).setWidth 32)
  | .bnz bits target => if s.host.lastRead &&& bits ≠ 0 then hostGoto s target else hostNext s
  | .bz bits target => if s.host.lastRead &&& bits = 0 then hostGoto s target else hostNext s
  | .b target => hostGoto s target
  | .halt => s

/-- The line the host stands at; none after the end of its program. -/
def hostCurrent (s : State) : Option HostInstr := s.host.prog[s.host.pc]?

/-- One move of the host. A host whose program has ended issues nothing and the unit waits
(70_reset_and_hazards.md R344, 60_exceptions.md R323). -/
def hostMove (s : State) : State :=
  match hostCurrent s with
  | some h => hostPerform s h
  | none => s

/-- While Busy, whether the host moves now: a move is left of the latency and its line is not held
(20_memory.md R80, 70_reset_and_hazards.md R356; assumption log 5). -/
def hostGoesFirst (s : State) : Bool :=
  match s.latency, hostCurrent s with
  | _ + 1, some h => !heldWhileBusy h
  | _, _ => false

/-- A move of the host while Busy. -/
def hostMoveBusy (s : State) : State := hostMove { s with latency := s.latency - 1 }

/-- The completion step of the sequencer (60_exceptions.md R300): run the command that CMD selects, or
raise IllegalCommand with the whole word (30_encoding.md R103, R105). -/
def sequencerStep (s : State) : Host.Outcome State Fault Refusal :=
  match decode s.cmd with
  | .ok i => exec i s
  | .error _ => .next (raise s ⟨.illegalCommand, s.cmd.toNat⟩)

/-- `s` with the command word `v` issued and nothing before its completion (60_exceptions.md R300): the
place where the sequencer takes its next command (assumption log 12). -/
def issuedNow (s : State) (v : Word) : State :=
  { s with cmd := v, seq := .busy, done := false, err := false, errCode := 0, errInfo := 0,
           latency := 0, powerOnPin := false }

end Sys2Proof.Machine
end

