-- ==== Sys2Proof/Machine/HostProgram.lean ====
section
/-!
DEFINITION. The host program notation as functions to lines (30_encoding.md R109 to R111): `mwr` and
`mrd` of several bytes, the command syntax and the pseudo-instructions. A fragment is a function of the
position at which it stands, because a label is a position (assumption log 6).
-/

namespace Sys2Proof.Machine

/-- A piece of host program, given the position of its first line. -/
abbrev Fragment := Nat → List HostInstr

/-- Fragments one after the other. -/
def assembleFrom : Nat → List Fragment → List HostInstr
  | _, [] => []
  | at_, f :: fs => f at_ ++ assembleFrom (at_ + (f at_).length) fs

/-- A host program from its fragments. -/
def assemble (fs : List Fragment) : List HostInstr := assembleFrom 0 fs

/-- One line. -/
def line (h : HostInstr) : Fragment := fun _ => [h]

/-- `mwr A, B0 B1 …` (30_encoding.md R109). -/
def mwrs (a : Nat) (B : List Byte) : Fragment := fun _ =>
  (List.range B.length).map fun k => .mwr (a + k) (B.getD k 0)

/-- `mrd A, N` (30_encoding.md R109). -/
def mrds (a n : Nat) : Fragment := fun _ => (List.range n).map fun k => .mrd (a + k)

/-- The offset of ARGk (10_state.md R46). -/
def argOffset (k : Nat) : BitVec 12 := BitVec.ofNat 12 (0x040 + 4 * k)

/-- The offset of CMD (10_state.md R41). -/
def cmdOffset : BitVec 12 := 0x00C

/-- The offset of STATUS (10_state.md R40). -/
def statusOffset : BitVec 12 := 0x008

/-- The offset of CTRL (10_state.md R39). -/
def ctrlOffset : BitVec 12 := 0x004

/-- `MNEMONIC op0, op1, …, opk` (30_encoding.md R110): the operands to ARG0, ARG1, …, then CMD. -/
def command (i : Instr) (ops : List Word) : Fragment := fun _ =>
  ((List.range ops.length).map fun k => .wr (argOffset k) (ops.getD k 0)) ++ [.wr cmdOffset (encode i)]

/-- `WAIT`: `w: rd 0x008; bnz 0x1, w` (30_encoding.md R111). -/
def wait : Fragment := fun w => [.rd statusOffset, .bnz 1 w]

/-- `CHECK`: `rd 0x008` and then a host-side test of bit 2, ERR (30_encoding.md R111). R111 does not say
which way the test branches, and 95_test_vectors.md uses both `bz 0x4` and `bnz 0x4`. DESIGN CHOICE:
`bnz 0x4`, a branch to `target` when ERR is set (assumption log 6); the other way is
`line (.rd statusOffset)` and a `.bz 4` line. -/
def check (target : Nat) : Fragment := fun _ => [.rd statusOffset, .bnz 4 target]

/-- `ACK`: `wr 0x008, 0x2` (30_encoding.md R111). -/
def ack : Fragment := line (.wr statusOffset 2)

/-- `SRESET`: `wr 0x004, 0x2` (30_encoding.md R111). -/
def sreset : Fragment := line (.wr ctrlOffset 2)

/-- Every branch of a program goes to a line of it or to its end. -/
def targetsInside (prog : List HostInstr) : Bool :=
  prog.all fun
    | .bnz _ t => decide (t ≤ prog.length)
    | .bz _ t => decide (t ≤ prog.length)
    | .b t => decide (t ≤ prog.length)
    | .wr _ _ | .rd _ | .mwr _ _ | .mrd _ | .halt => true

end Sys2Proof.Machine
end

