-- ==== Sys2Proof/Machine/Step.lean ====
section
/-!
DEFINITION. One step of the machine: the power-on reset input, then the agent whose turn it is
(00_scope.md R23). It only calls: the operations stand in Ops.lean and Bus.lean.
-/

namespace Sys2Proof.Machine

/-- One step. An asserted power-on reset comes first (70_reset_and_hazards.md R340, assumption log 11);
while Idle the host moves; while Busy the host moves if it can and its latency is not used up, and
otherwise the sequencer completes the command (60_exceptions.md R300, 20_memory.md R80). -/
def step (s : State) : Host.Outcome State Fault Refusal :=
  if s.powerOnPin then .next (powerOnReset s)
  else
    match s.seq with
    | .idle => .next (hostMove s)
    | .busy => if hostGoesFirst s then .next (hostMoveBusy s) else sequencerStep s

/-- `s` with the table word `w` of `nbits` bits issued, so that the very next step completes exactly it
(60_exceptions.md R300, assumption log 12): bits above `nbits` are 0. -/
def State.withFetchWord (s : State) (nbits w : Nat) : State :=
  issuedNow s (BitVec.ofNat 32 (w % 2 ^ nbits))

end Sys2Proof.Machine
end

