-- ==== Sys2Proof/Safety.lean ====
section
/-!
DEFINITION. The terms the claims use: the invariant of the machine, and what a completion leaves
unchanged.
-/

namespace Sys2Proof.Machine

/-! ## The invariant -/

/-- STATUS and ERRINFO (10_state.md R40, R42; 60_exceptions.md R301). -/
structure StatusInv (s : State) : Prop where
  /-- "BUSY = 1 implies DONE = 0 and ERR = 0 and ERRCODE = 0"; issue also clears ERRINFO. -/
  busyClear : s.seq = .busy → s.done = false ∧ s.err = false ∧ s.errCode = 0 ∧ s.errInfo = 0
  /-- "ERR = 0 iff ERRCODE = 0". -/
  errIff : s.err = false ↔ s.errCode = 0
  /-- ERRCODE is 0 or one of the codes the unit produces: never 6, never 13 to 255. -/
  codeLegal : s.errCode.toNat ≤ 12 ∧ s.errCode ≠ 6
  /-- ERRINFO is 0 unless the last command ended in error. -/
  infoZero : s.err = false → s.errInfo = 0

/-- The accumulator (10_state.md R51; 46_accumulator.md R261 to R263). -/
structure AccInv (s : State) : Prop where
  /-- "phase = Empty iff count = 0". -/
  emptyIff : s.acc.phase = .empty ↔ s.acc.count = 0
  /-- "phase = Ready iff count ≥ max(acc.T, 2)". -/
  readyIff : s.acc.phase = .ready ↔ max s.acc.threshold.toNat 2 ≤ s.acc.count.toNat
  /-- "count equals max(T, 2) in phase Ready", so it never exceeds it (R263). -/
  countBound : s.acc.count.toNat ≤ max s.acc.threshold.toNat 2
  /-- "the `acc.xs[0..count−1]` are distinct". -/
  distinct : (accIndices s.acc).Nodup
  /-- The accepted indices are in 1..32. -/
  indexRange : ∀ x ∈ accIndices s.acc, 1 ≤ x.toNat ∧ x.toNat ≤ 32
  /-- "`acc.xs[j]` for j ≥ count is unused and holds 0". -/
  unusedZero : ∀ j : Fin 32, s.acc.count.toNat ≤ j.val → s.acc.xs[j] = 0
  /-- Threshold and length are 0 when Empty. -/
  emptyFields : s.acc.phase = .empty → s.acc.threshold = 0 ∧ s.acc.len = 0
  /-- The session threshold is in 1..32 otherwise. -/
  thresholdRange : s.acc.phase ≠ .empty → 1 ≤ s.acc.threshold.toNat ∧ s.acc.threshold.toNat ≤ 32
  /-- The session payload length is even and at least 2 otherwise (43_framing.md R197). -/
  lengthEven : s.acc.phase ≠ .empty → 2 ≤ s.acc.len.toNat ∧ s.acc.len.toNat % 2 = 0
  /-- The stored payloads lie in DMEM (46_accumulator.md R261, R262). -/
  storeInside : s.acc.phase ≠ .empty →
    s.acc.base.toNat + s.acc.count.toNat * s.acc.len.toNat ≤ s.dmemBytes

/-- DMEM (10_state.md R55) and its size (00_scope.md R10). -/
structure MemoryInv (s : State) : Prop where
  /-- The memory is in its canonical form. -/
  canonical : Memory.wf s.mem = true
  /-- Only addresses below DMEM_BYTES are written. -/
  inside : Memory.below s.dmemBytes s.mem = true
  /-- `DMEM_BYTES` is an integer 1..2^32. -/
  size : 1 ≤ s.dmemBytes ∧ s.dmemBytes ≤ 2 ^ 32

/-- The invariant of the machine. -/
structure Inv (s : State) : Prop where
  status : StatusInv s
  acc : AccInv s
  memory : MemoryInv s

/-! ## Reset -/

/-- Every register, flag and field holds its reset value (70_reset_and_hazards.md R343). -/
structure ResetValues (s : State) : Prop where
  ctrl : s.irqEn = false
  done : s.done = false
  err : s.err = false
  errCode : s.errCode = 0
  cmd : s.cmd = 0
  errInfo : s.errInfo = 0
  result0 : s.result0 = 0
  result1 : s.result1 = 0
  args : ∀ i : Fin 6, s.args[i] = 0
  seq : s.seq = .idle
  accPhase : s.acc.phase = .empty
  accThreshold : s.acc.threshold = 0
  accLen : s.acc.len = 0
  accCount : s.acc.count = 0
  accBase : s.acc.base = 0
  accXs : ∀ j : Fin 32, s.acc.xs[j] = 0
  irq : irq s = false

/-! ## What a completion leaves -/

/-- What every completion leaves unchanged: the operand registers, CTRL, CMD, and everything that is not
the unit's (10_state.md R31, R34). -/
structure SameOutside (s t : State) : Prop where
  args : t.args = s.args
  irqEn : t.irqEn = s.irqEn
  cmd : t.cmd = s.cmd
  dmemBytes : t.dmemBytes = s.dmemBytes
  powerOns : t.powerOns = s.powerOns
  latIn : t.latIn = s.latIn
  issues : t.issues = s.issues
  latency : t.latency = s.latency
  powerOnPin : t.powerOnPin = s.powerOnPin
  host : t.host = s.host

/-- A completion without error leads from `s` to `t`: STATUS is BUSY = 0, DONE = 1, ERR = 0,
ERRCODE = 0 and ERRINFO stays (60_exceptions.md R305). -/
structure CompletedOk (s t : State) : Prop where
  seq : t.seq = .idle
  done : t.done = true
  err : t.err = false
  errCode : t.errCode = 0
  errInfo : t.errInfo = s.errInfo
  outside : SameOutside s t

/-- The state after a completion with error code `code` and information `info`: everything as before but
STATUS, ERRINFO and the phase (60_exceptions.md R306). -/
def erred (s : State) (code : Byte) (info : Nat) : State :=
  { s with seq := .idle, done := true, err := true, errCode := code, errInfo := BitVec.ofNat 32 info }

/-- No byte of DMEM changed. -/
def MemoryUntouched (s t : State) : Prop := ∀ a, byteAt t a = byteAt s a

/-- No byte of DMEM outside the `n` bytes at `a` changed. -/
def MemoryOutside (s t : State) (a n : Nat) : Prop :=
  ∀ b, b < a ∨ a + n ≤ b → byteAt t b = byteAt s b

/-- No random byte was drawn. -/
def PortUntouched (s t : State) : Prop := t.rngIn = s.rngIn ∧ t.rngDraws = s.rngDraws

/-- The rest of a command that writes registers only. -/
structure RegistersOnly (s t : State) : Prop where
  ok : CompletedOk s t
  mem : MemoryUntouched s t
  acc : t.acc = s.acc
  port : PortUntouched s t

/-- The rest of a command that writes registers and the `n` bytes at `a`. -/
structure StoresOnly (s t : State) (a n : Nat) : Prop where
  ok : CompletedOk s t
  mem : MemoryOutside s t a n
  acc : t.acc = s.acc
  port : PortUntouched s t

end Sys2Proof.Machine
end

