-- ==== Sys2Proof/Certificates/Slice0/Obligations.lean ====
section
/-!
DEFINITION. The statements for the provers, each with the rule of spec/ it formalises. Operands are read
as `s.args[i]`; `erred s code info` is the state after an error completion, `CompletedOk`,
`RegistersOnly` and `StoresOnly` (Safety.lean) say what a completion without error leaves. A result
register is stated wherever its number fits 32 bits; where it does not, the spec states no value
(assumption log 7). No statement rests on a free value of Config.
-/

open Sys2Proof Sys2Proof.Machine

/-! ## Command words -/

/-- 30_encoding.md R102: "A word selects a command iff bits [31:8] are zero and bits [7:0] are one of
these seventeen values", and the table of the values. -/
def Obligations.WordSelectsCommandIffInTable : Prop :=
  (∀ w : Word, (∃ i, decode w = .ok i) ↔
    w.toNat / 256 = 0 ∧ w.toNat % 256 ∈
      [0x01, 0x02, 0x03, 0x04, 0x10, 0x11, 0x20, 0x21, 0x30, 0x31, 0x40, 0x41, 0x50, 0x51, 0x60, 0x61, 0x62]) ∧
  decode 0x01 = .ok .gfAdd ∧ decode 0x02 = .ok .gfSub ∧ decode 0x03 = .ok .gfMul ∧
  decode 0x04 = .ok .gfDiv ∧ decode 0x10 = .ok .sssSplit ∧ decode 0x11 = .ok .sssRecon ∧
  decode 0x20 = .ok .bpPack ∧ decode 0x21 = .ok .bpUnpack ∧ decode 0x30 = .ok .sfFrame ∧
  decode 0x31 = .ok .sfUnframe ∧ decode 0x40 = .ok .ckB39Enc ∧ decode 0x41 = .ok .ckB39Dec ∧
  decode 0x50 = .ok .kdfSlip ∧ decode 0x51 = .ok .kdfBip ∧ decode 0x60 = .ok .accReset ∧
  decode 0x61 = .ok .accAdd ∧ decode 0x62 = .ok .accMerge

/-- 30_encoding.md R102, R110: decoding an encoded command gives it back, and a word that decodes is the
encoding of what it decodes to. -/
def Obligations.DecodeAndEncodeAgree : Prop :=
  (∀ i : Instr, decode (encode i) = .ok i) ∧ ∀ (w : Word) (i : Instr), decode w = .ok i → encode i = w

/-- 60_exceptions.md R300: the completion step runs the command that CMD selects. While Busy it is the
sequencer's turn when no host move is left, or the host's line is held or its program has ended
(assumption log 5); `withFetchWord` puts a command at that point. -/
def Obligations.StepRunsTheDecodedCommand : Prop :=
  (∀ (s : State) (i : Instr), s.powerOnPin = false → s.seq = .busy →
    (s.latency = 0 ∨ ∀ h, s.host.prog[s.host.pc]? = some h → heldWhileBusy h = true) →
    decode s.cmd = .ok i → step s = exec i s) ∧
  ∀ (s : State) (i : Instr), step (s.withFetchWord 32 (encode i).toNat) =
    exec i { s with cmd := encode i, seq := .busy, done := false, err := false, errCode := 0,
                    errInfo := 0, latency := 0, powerOnPin := false }

/-- 30_encoding.md R103, R105: an illegal word completes with IllegalCommand(word); ERRINFO receives the
whole word and nothing else but STATUS changes. -/
def Obligations.IllegalWordCompletesWithIllegalCommand : Prop :=
  ∀ s : State, s.powerOnPin = false → s.seq = .busy →
    (s.latency = 0 ∨ ∀ h, s.host.prog[s.host.pc]? = some h → heldWhileBusy h = true) →
    (s.cmd.toNat / 256 ≠ 0 ∨ s.cmd.toNat % 256 ∉
      [0x01, 0x02, 0x03, 0x04, 0x10, 0x11, 0x20, 0x21, 0x30, 0x31, 0x40, 0x41, 0x50, 0x51, 0x60, 0x61, 0x62]) →
    step s = .next { s with seq := .idle, done := true, err := true, errCode := 9, errInfo := s.cmd }

/-! ## Issue, hold, completion -/

/-- 60_exceptions.md R300 `issue(v)`, 10_state.md R41: a write of CMD, at any offset of that register,
issues the word. -/
def Obligations.CmdWriteIssuesTheWord : Prop :=
  ∀ (s : State) (off : BitVec 12) (v : Word), off.toNat / 4 = 3 →
    ∃ t, csrWrite s off v = t ∧ t.cmd = v ∧ t.seq = .busy ∧ t.done = false ∧ t.err = false ∧
      t.errCode = 0 ∧ t.errInfo = 0 ∧ t.args = s.args ∧ t.result0 = s.result0 ∧
      t.result1 = s.result1 ∧ t.irqEn = s.irqEn ∧ t.acc = s.acc ∧ (∀ a, byteAt t a = byteAt s a) ∧
      t.rngIn = s.rngIn ∧ t.rngDraws = s.rngDraws ∧ t.host = s.host

/-- 20_memory.md R80: while Busy, a read of STATUS or ID completes at once, and every other access is
held until the completion step has made the phase Idle, after which it is performed. -/
def Obligations.AccessesAreHeldWhileBusy : Prop :=
  (∀ off v, heldWhileBusy (.wr off v) = true) ∧ (∀ a b, heldWhileBusy (.mwr a b) = true) ∧
  (∀ a, heldWhileBusy (.mrd a) = true) ∧
  (∀ off : BitVec 12, heldWhileBusy (.rd off) = false ↔ off.toNat / 4 = 2 ∨ off.toNat / 4 = 0) ∧
  (∀ (s : State) (h : HostInstr), s.powerOnPin = false → s.seq = .busy →
    s.host.prog[s.host.pc]? = some h → heldWhileBusy h = true →
    ∃ t, step s = .next t ∧ t.seq = .idle ∧ t.host = s.host) ∧
  (∀ (s : State) (off : BitVec 12), s.powerOnPin = false → s.seq = .busy → 0 < s.latency →
    s.host.prog[s.host.pc]? = some (.rd off) → off.toNat / 4 = 2 ∨ off.toNat / 4 = 0 →
    step s = .next { s with latency := s.latency - 1,
                            host := { s.host with pc := s.host.pc + 1, lastRead := csrRead s off } }) ∧
  ∀ (s : State) (h : HostInstr), s.powerOnPin = false → s.seq = .idle →
    s.host.prog[s.host.pc]? = some h → step s = .next (hostPerform s h)

/-- 70_reset_and_hazards.md R357: an issued command completes, within as many steps as its latency allows
host moves, and one more. -/
def Obligations.BusyUnitCompletesWithinItsLatency : Prop :=
  ∀ s : State, s.powerOnPin = false → s.seq = .busy →
    ∃ k t, k ≤ s.latency + 1 ∧ Sys2Proof.core.run k s = .next t ∧ t.seq = .idle ∧ t.done = true

/-- 60_exceptions.md R307 and 93_implementation_defined.md, part 1, entry 3: nothing is stuck; every step
answers a next state. -/
def Obligations.EveryStepAnswersANextState : Prop := ∀ s : State, ∃ t, step s = .next t

/-- 60_exceptions.md R306: a completion with error changes STATUS and ERRINFO and nothing else. -/
def Obligations.ErrorCompletionIsAllOrNothing : Prop :=
  ∀ (i : Instr) (s t : State), exec i s = .next t → t.err = true →
    ∃ (name : ErrName) (info : Nat),
      t = { s with seq := .idle, done := true, err := true, errCode := errCodeOf name,
                   errInfo := BitVec.ofNat 32 (info % 2 ^ 32) }

/-- 60_exceptions.md R305, 10_state.md R31: a completion without error leaves STATUS = 0x00000002 and
ERRINFO as issue left it, and writes no operand register, CTRL or CMD. -/
def Obligations.CompletionWithoutErrorClearsTheRecord : Prop :=
  ∀ (i : Instr) (s t : State), exec i s = .next t → t.err = false →
    CompletedOk s t ∧ csrRead t 0x008 = 0x00000002

/-- 60_exceptions.md R301: the error codes, and that no completion has another: 6 and 13 to 255 are never
produced. -/
def Obligations.ErrorCodesStayInTheTable : Prop :=
  (errCodeOf .invalidParameters = 1 ∧ errCodeOf .insufficientShares = 2 ∧
    errCodeOf .duplicateShareIndex = 3 ∧ errCodeOf .malformedShare = 4 ∧
    errCodeOf .checksumMismatch = 5 ∧ errCodeOf .unknownWord = 6 ∧ errCodeOf .symbolOutOfRange = 7 ∧
    errCodeOf .divisionByZero = 8 ∧ errCodeOf .illegalCommand = 9 ∧ errCodeOf .addressError = 10 ∧
    errCodeOf .thresholdMismatch = 11 ∧ errCodeOf .accumulatorFull = 12) ∧
  (∀ (i : Instr) (s t : State), exec i s = .next t →
    t.errCode.toNat ∈ [0, 1, 2, 3, 4, 5, 7, 8, 10, 11, 12] ∧ (t.err = false ↔ t.errCode = 0)) ∧
  ∀ s t : State, sequencerStep s = .next t → t.errCode.toNat ∈ [0, 1, 2, 3, 4, 5, 7, 8, 9, 10, 11, 12]

/-- 60_exceptions.md R303: DivisionByZero is raised only by GF_DIV with divisor 0; the denominators of
SSS_RECON and ACC_MERGE are nonzero. -/
def Obligations.DivisionByZeroOnlyFromGfDiv : Prop :=
  (∀ (i : Instr) (s t : State), exec i s = .next t → t.errCode = 8 →
    i = .gfDiv ∧ s.args[1].setWidth 8 = (0 : Byte)) ∧
  (∀ s t : State, exec .sssRecon s = .next t → t.err = false →
    ∀ j m, j < s.args[1].toNat → m < s.args[1].toNat → j ≠ m →
      byteAt s (s.args[0].toNat + j) ^^^ byteAt s (s.args[0].toNat + m) ≠ 0) ∧
  ∀ s t : State, AccInv s → exec .accMerge s = .next t → t.err = false →
    ∀ j m : Fin 32, j.val < s.acc.count.toNat → m.val < s.acc.count.toNat → j ≠ m →
      s.acc.xs[j] ^^^ s.acc.xs[m] ≠ 0

/-- 60_exceptions.md R324: the same command with the same operands, DMEM contents, accumulator and random
bytes completes with the same outcome, whatever the rest of the state. -/
def Obligations.CompletionDependsOnlyOnItsInputs : Prop :=
  ∀ (i : Instr) (s s' t t' : State), s'.args = s.args → s'.dmemBytes = s.dmemBytes →
    s'.acc = s.acc → (∀ a, byteAt s' a = byteAt s a) → (∀ k, rngAnswer s' k = rngAnswer s k) →
    exec i s = .next t → exec i s' = .next t' →
    t'.err = t.err ∧ t'.errCode = t.errCode ∧ (t.err = true → t'.errInfo = t.errInfo) ∧
    (t.err = false → t'.result0 = t.result0 ∧ t'.result1 = t.result1) ∧
    t'.acc = t.acc ∧ (∀ a, byteAt t' a = byteAt t a) ∧ ∀ k, rngAnswer t' k = rngAnswer t k

/-! ## Registers, memory and resets as the host sees them -/

/-- 10_state.md R37 to R47, 20_memory.md R76: what each offset reads, bits [1:0] ignored; a reserved
offset reads 0. -/
def Obligations.RegisterMapReadsAsTabled : Prop :=
  ∀ (s : State) (off : BitVec 12),
    (off.toNat / 4 * 4 = 0x000 → csrRead s off = 0x53534701) ∧
    (off.toNat / 4 * 4 = 0x004 → (csrRead s off).toNat = s.irqEn.toNat) ∧
    (off.toNat / 4 * 4 = 0x008 → (csrRead s off).toNat =
      (if s.seq = .busy then 1 else 0) + 2 * s.done.toNat + 4 * s.err.toNat + 256 * s.errCode.toNat) ∧
    (off.toNat / 4 * 4 = 0x00C → csrRead s off = s.cmd) ∧
    (off.toNat / 4 * 4 = 0x010 → csrRead s off = s.errInfo) ∧
    (off.toNat / 4 * 4 = 0x014 → csrRead s off = s.result0) ∧
    (off.toNat / 4 * 4 = 0x018 → csrRead s off = s.result1) ∧
    (off.toNat / 4 * 4 = 0x01C → (csrRead s off).toNat =
      (match s.acc.phase with | .empty => 0 | .collecting => 1 | .ready => 2) +
        256 * s.acc.count.toNat + 65536 * s.acc.threshold.toNat) ∧
    (off.toNat / 4 * 4 = 0x020 → csrRead s off = s.acc.len) ∧
    (off.toNat / 4 * 4 = 0x024 → csrRead s off = s.acc.base) ∧
    (∀ i : Fin 6, off.toNat / 4 * 4 = 0x040 + 4 * i.val → csrRead s off = s.args[i]) ∧
    (0x028 ≤ off.toNat / 4 * 4 → off.toNat / 4 * 4 < 0x040 → csrRead s off = 0) ∧
    (0x058 ≤ off.toNat / 4 * 4 → csrRead s off = 0)

/-- 10_state.md R34, R39, R40, R46 to R48, 60_exceptions.md R309: what a write of each register other than
CMD does: ARGi takes the value; CTRL without SRST takes bit 0; STATUS bit 1 clears DONE and keeps the
error record; every other write is ignored. -/
def Obligations.RegisterWritesActAsTabled : Prop :=
  ∀ (s : State) (off : BitVec 12) (v : Word),
    (∀ i : Fin 6, off.toNat / 4 * 4 = 0x040 + 4 * i.val →
      csrWrite s off v = { s with args := (csrWrite s off v).args } ∧
      ∀ j : Fin 6, (csrWrite s off v).args[j] = if j = i then v else s.args[j]) ∧
    (off.toNat / 4 * 4 = 0x004 → v.getLsbD 1 = false → csrWrite s off v = { s with irqEn := v.getLsbD 0 }) ∧
    (off.toNat / 4 * 4 = 0x008 →
      csrWrite s off v = { s with done := if v.getLsbD 1 then false else s.done }) ∧
    (off.toNat / 4 * 4 = 0x000 ∨ (0x010 ≤ off.toNat / 4 * 4 ∧ off.toNat / 4 * 4 < 0x040) ∨
      0x058 ≤ off.toNat / 4 * 4 → csrWrite s off v = s)

/-- 10_state.md R49: reading any register or DMEM byte changes no state of the unit: only the host's own
position and the value it last read. What those two become is the model's choice (assumption log 6):
the next line, and the register's value or the byte zero-extended to 32 bits. -/
def Obligations.HostReadsChangeNothing : Prop :=
  ∀ (s : State) (off : BitVec 12) (a : Nat),
    hostPerform s (.rd off) =
      { s with host := { s.host with pc := s.host.pc + 1, lastRead := csrRead s off } } ∧
    hostPerform s (.mrd a) =
      { s with host := { s.host with pc := s.host.pc + 1, lastRead := (dmemRead s a).setWidth 32 } }

/-- 20_memory.md R77: in range, DmemRead returns the byte and DmemWrite sets it and no other; from
DMEM_BYTES up a read returns 0 and a write is ignored. -/
def Obligations.HostDmemAccessIsRangeChecked : Prop :=
  ∀ (s : State) (a : Nat) (b : Byte),
    (a < s.dmemBytes → dmemRead s a = byteAt s a ∧ dmemRead (dmemWrite s a b) a = b ∧
      (∀ c, c ≠ a → byteAt (dmemWrite s a b) c = byteAt s c) ∧
      dmemWrite s a b = { s with mem := (dmemWrite s a b).mem }) ∧
    (s.dmemBytes ≤ a → dmemRead s a = 0 ∧ dmemWrite s a b = s)

/-- 70_reset_and_hazards.md R342: a CTRL write with bit 1 = 1 gives every register, flag and field its
reset value of R343; DMEM is not changed. That the host and the randomness port are unchanged is the
model's choice (assumption log 3, log 6). -/
def Obligations.SoftResetKeepsDmem : Prop :=
  ∀ (s : State) (off : BitVec 12) (v : Word), off.toNat / 4 = 1 → v.getLsbD 1 = true →
    ResetValues (csrWrite s off v) ∧ (csrWrite s off v).mem = s.mem ∧
    (∀ a, byteAt (csrWrite s off v) a = byteAt s a) ∧
    (csrWrite s off v).dmemBytes = s.dmemBytes ∧ (csrWrite s off v).host = s.host ∧
    (csrWrite s off v).rngIn = s.rngIn ∧ (csrWrite s off v).rngDraws = s.rngDraws

/-- 70_reset_and_hazards.md R340, R341, R343: power-on reset, in any phase, gives every register its reset
value, and a command in progress has none of its writes applied: no byte of DMEM is known afterwards.
That the reset input comes before a step of the host or sequencer, and that the host keeps its position
(a held access with it), is the model's choice (assumption log 6, log 11). The state a run starts from has
the same values. -/
def Obligations.PowerOnResetAbandonsTheCommand : Prop :=
  (∀ s : State, s.powerOnPin = true →
    ∃ t, step s = .next t ∧ ResetValues t ∧ (∀ a, Memory.get? t.mem a = none) ∧
      t.powerOnPin = false ∧ t.dmemBytes = s.dmemBytes ∧ t.host = s.host ∧
      t.rngIn = s.rngIn ∧ t.rngDraws = s.rngDraws) ∧
  ResetValues State.reset ∧ ∀ a, Memory.get? State.reset.mem a = none

/-- 10_state.md R57, 60_exceptions.md R314, R315: the interrupt output, and when it rises and falls. -/
def Obligations.InterruptFollowsEnableAndDone : Prop :=
  (∀ s : State, irq s = (s.irqEn && s.done)) ∧
  (∀ (i : Instr) (s t : State), exec i s = .next t → t.done = true ∧ irq t = s.irqEn) ∧
  (∀ s t : State, sequencerStep s = .next t → t.done = true ∧ irq t = s.irqEn) ∧
  (∀ (s : State) (v : Word), irq (csrWrite s 0x00C v) = false) ∧
  (∀ s : State, irq (csrWrite s 0x008 2) = false) ∧
  (∀ s : State, irq (csrWrite s 0x004 2) = false ∧ irq (powerOnReset s) = false) ∧
  (∀ s : State, irq (csrWrite s 0x004 0) = false ∧ (csrWrite s 0x004 0).done = s.done) ∧
  ∀ s : State, s.done = true → irq (csrWrite s 0x004 1) = true

/-! ## Invariants of the machine -/

/-- 10_state.md R40, R44, R51, R55, 46_accumulator.md R263, 00_scope.md R10: every step keeps the
invariant: STATUS and ERRINFO agree, ERRCODE is a produced code, the accumulator is a legal session whose
store lies in DMEM, and DMEM keeps its canonical form. -/
def Obligations.StepKeepsTheInvariant : Prop := ∀ s t : State, Inv s → step s = .next t → Inv t

/-- 70_reset_and_hazards.md R343: the reset state meets the invariant. -/
def Obligations.ResetMeetsTheInvariant : Prop := Inv State.reset

/-- 10_state.md R52: the accumulator changes only by ACC_RESET, by ACC_ADD, by a power-on reset or by a
soft reset; ACC_ADD changes the index file at position count only. -/
def Obligations.AccumulatorChangesOnlyByItsCommands : Prop :=
  (∀ s t : State, step s = .next t → t.acc ≠ s.acc →
    s.powerOnPin = true ∨
    (s.seq = .busy ∧ (s.cmd = 0x60 ∨ s.cmd = 0x61)) ∨
    (s.seq = .idle ∧ ∃ off v, s.host.prog[s.host.pc]? = some (.wr off v) ∧ off.toNat / 4 = 1 ∧
      v.getLsbD 1 = true)) ∧
  ∀ s t : State, exec .accAdd s = .next t →
    ∀ j : Fin 32, j.val ≠ s.acc.count.toNat → t.acc.xs[j] = s.acc.xs[j]

/-! ## Field arithmetic -/

/-- 40_field.md R137: GF_ADD. -/
def Obligations.GfAddXorsTheFieldOperands : Prop :=
  ∀ s : State, ∃ t, exec .gfAdd s = .next t ∧
    t.result0 = (s.args[0].setWidth 8 ^^^ s.args[1].setWidth 8 : Byte).setWidth 32 ∧ t.result1 = 0 ∧
    RegistersOnly s t

/-- 40_field.md R138: GF_SUB gives the same result as GF_ADD for every a, b. -/
def Obligations.GfSubEqualsGfAdd : Prop :=
  ∀ s : State, ∃ t u, exec .gfSub s = .next t ∧ exec .gfAdd s = .next u ∧
    t.result0 = (s.args[0].setWidth 8 ^^^ s.args[1].setWidth 8 : Byte).setWidth 32 ∧ t.result1 = 0 ∧
    t.result0 = u.result0 ∧ t.result1 = u.result1 ∧ RegistersOnly s t

/-- 40_field.md R139: GF_MUL, with its corner cases. -/
def Obligations.GfMulMultipliesTheFieldOperands : Prop :=
  (∀ s : State, ∃ t, exec .gfMul s = .next t ∧
    t.result0 = (gfMul (s.args[0].setWidth 8) (s.args[1].setWidth 8)).setWidth 32 ∧ t.result1 = 0 ∧
    RegistersOnly s t) ∧
  (∀ a : Byte, gfMul a 0 = 0 ∧ gfMul 0 a = 0 ∧ gfMul a 1 = a ∧ gfMul 1 a = a) ∧
  gfMul 0x80 0x02 = 0x1B ∧ gfMul 0xFF 0xFF = 0x13 ∧ gfMul 0x57 0x83 = 0xC1

/-- 40_field.md R140, R133: GF_DIV gives the unique c with c ⊗ b = a, and raises DivisionByZero(0) when
ARG1[7:0] = 0, RESULT0 and RESULT1 keeping their values. -/
def Obligations.GfDivIsTheUniqueQuotient : Prop :=
  ∀ s : State,
    (s.args[1].setWidth 8 = (0 : Byte) → exec .gfDiv s = .next (erred s 8 0)) ∧
    (s.args[1].setWidth 8 ≠ (0 : Byte) → ∃ (t : State) (c : Byte), exec .gfDiv s = .next t ∧
      t.result0 = c.setWidth 32 ∧ t.result1 = 0 ∧ gfMul c (s.args[1].setWidth 8) = s.args[0].setWidth 8 ∧
      (∀ d, gfMul d (s.args[1].setWidth 8) = s.args[0].setWidth 8 → d = c) ∧ RegistersOnly s t)

/-- 40_field.md R131, R134: the laws of the field. -/
def Obligations.FieldLawsHold : Prop :=
  ∀ a b c : Byte,
    a ^^^ a = 0 ∧ a ^^^ 0 = a ∧ gfMul a 1 = a ∧ gfMul a 0 = 0 ∧
    (gfMul a b = 0 ↔ a = 0 ∨ b = 0) ∧ (b ≠ 0 → gfMul (gfDiv a b) b = a) ∧
    (b ≠ 0 → gfDiv 0 b = 0 ∧ gfDiv b b = 1) ∧
    gfMul a (b ^^^ c) = gfMul a b ^^^ gfMul a c ∧
    gfMul a b = gfMul b a ∧ gfMul (gfMul a b) c = gfMul a (gfMul b c)

/-- 40_field.md R135: the table formulation gives the same products and quotients. -/
def Obligations.TablesAgreeWithThePolynomials : Prop :=
  (∀ a b : Byte, gfMul a b =
    if a = 0 ∨ b = 0 then 0 else expAt ((logAt a + logAt b) % 255)) ∧
  ∀ a b : Byte, b ≠ 0 → gfDiv a b = if a = 0 then 0 else expAt ((logAt a + 255 - logAt b) % 255)

/-- 40_field.md R136: the contents of EXP and LOG. -/
def Obligations.TablesHoldTheGeneratorPowers : Prop :=
  (∀ i, i < 255 → expAt i = gfPow 3 i) ∧ expAt 255 = 1 ∧ expTable.length = 256 ∧
  logTable.length = 256 ∧ logAt 0 = 0 ∧
  ∀ a : Byte, a ≠ 0 → logAt a < 255 ∧ ∀ i, i < 255 → (expAt i = a ↔ i = logAt a)

/-! ## Sharing -/

/-- 41_sharing.md R150: Horner's rule gives `Σ⊕ c[k] ⊗ x^k`. -/
def Obligations.PolyEvalIsThePowerSum : Prop :=
  ∀ (c : List Byte) (x : Byte),
    polyEval c x = xorSum (fun k => gfMul (c.getD k 0) (gfPow x k)) c.length

/-- 41_sharing.md R151: SSS_SPLIT: its checks in order, and then share x at `dst + (x-1)·L`, byte i of
it the polynomial of byte position i at x, its coefficients the secret byte and `T - 1` bytes of the
randomness port in the order position ascending, coefficient ascending. -/
def Obligations.SplitWritesEveryShare : Prop :=
  ∀ (s : State) (src L T N dst : Nat), src = s.args[0].toNat → L = s.args[1].toNat →
    T = s.args[2].toNat → N = s.args[3].toNat → dst = s.args[4].toNat →
    (¬(1 ≤ T ∧ T ≤ N ∧ N ≤ 255) → exec .sssSplit s = .next (erred s 1 1)) ∧
    (1 ≤ T → T ≤ N → N ≤ 255 →
      (L = 0 ∨ L % 2 = 1 → exec .sssSplit s = .next (erred s 1 2)) ∧
      (L ≠ 0 → L % 2 = 0 →
        (s.dmemBytes < src + L → exec .sssSplit s = .next (erred s 10 src)) ∧
        (src + L ≤ s.dmemBytes → s.dmemBytes < dst + N * L →
          exec .sssSplit s = .next (erred s 10 dst)) ∧
        (src + L ≤ s.dmemBytes → dst + N * L ≤ s.dmemBytes →
          ∃ t, exec .sssSplit s = .next t ∧ CompletedOk s t ∧
            (∀ x i, 1 ≤ x → x ≤ N → i < L → byteAt t (dst + (x - 1) * L + i) =
              polyEval (byteAt s (src + i) ::
                (List.range (T - 1)).map fun k => rngAnswer s (i * (T - 1) + k)) (BitVec.ofNat 8 x)) ∧
            MemoryOutside s t dst (N * L) ∧ t.acc = s.acc ∧
            (∀ k, rngAnswer t k = rngAnswer s (L * (T - 1) + k)) ∧
            t.rngDraws = s.rngDraws + L * (T - 1) ∧
            (N * L < 2 ^ 32 → t.result0 = BitVec.ofNat 32 (N * L)) ∧
            t.result1 = BitVec.ofNat 32 N)))

/-- 41_sharing.md R153, R154: SSS_RECON: its checks in order, and then the interpolation at zero of the
bytes as they were. -/
def Obligations.ReconInterpolatesAtZero : Prop :=
  ∀ (s : State) (xa k ya L dst : Nat), xa = s.args[0].toNat → k = s.args[1].toNat →
    ya = s.args[2].toNat → L = s.args[3].toNat → dst = s.args[4].toNat →
    (k < 2 → exec .sssRecon s = .next (erred s 2 k)) ∧
    (2 ≤ k →
      (L = 0 ∨ L % 2 = 1 → exec .sssRecon s = .next (erred s 1 2)) ∧
      (L ≠ 0 → L % 2 = 0 →
        (s.dmemBytes < xa + k → exec .sssRecon s = .next (erred s 10 xa)) ∧
        (xa + k ≤ s.dmemBytes → s.dmemBytes < ya + k * L →
          exec .sssRecon s = .next (erred s 10 ya)) ∧
        (xa + k ≤ s.dmemBytes → ya + k * L ≤ s.dmemBytes → s.dmemBytes < dst + L →
          exec .sssRecon s = .next (erred s 10 dst)) ∧
        (xa + k ≤ s.dmemBytes → ya + k * L ≤ s.dmemBytes → dst + L ≤ s.dmemBytes →
          ((∃ j, j < k ∧ byteAt s (xa + j) = 0) → exec .sssRecon s = .next (erred s 1 3)) ∧
          ((∀ j, j < k → byteAt s (xa + j) ≠ 0) →
            (∀ j, j < k → (∃ m, m < j ∧ byteAt s (xa + m) = byteAt s (xa + j)) →
              (∀ n m, n < j → m < n → byteAt s (xa + m) ≠ byteAt s (xa + n)) →
              exec .sssRecon s = .next (erred s 3 (byteAt s (xa + j)).toNat)) ∧
            ((∀ j m, j < k → m < j → byteAt s (xa + m) ≠ byteAt s (xa + j)) →
              ∃ t, exec .sssRecon s = .next t ∧ StoresOnly s t dst L ∧
                (∀ i, i < L → byteAt t (dst + i) =
                  xorSum (fun j => gfMul (byteAt s (ya + j * L + i))
                    (gfProd (fun m => if m = j then 1 else
                      gfDiv (byteAt s (xa + m)) (byteAt s (xa + j) ^^^ byteAt s (xa + m))) k)) k) ∧
                t.result0 = BitVec.ofNat 32 L ∧ t.result1 = BitVec.ofNat 32 k)))))

/-- 41_sharing.md R156: if the shares of a SSS_RECON are outputs of one SSS_SPLIT at distinct
x-coordinates of it, the command completes without error, and if they are at least T, in any order, it
writes the original secret. -/
def Obligations.SplitThenReconRestoresTheSecret : Prop :=
  ∀ s t u : State, exec .sssSplit s = .next t → t.err = false →
    ∀ L k : Nat, L = s.args[1].toNat → L = u.args[3].toNat → k = u.args[1].toNat → 2 ≤ k →
    u.args[0].toNat + k ≤ u.dmemBytes → u.args[2].toNat + k * L ≤ u.dmemBytes →
    u.args[4].toNat + L ≤ u.dmemBytes →
    (∀ j, j < k → 1 ≤ (byteAt u (u.args[0].toNat + j)).toNat ∧
      (byteAt u (u.args[0].toNat + j)).toNat ≤ s.args[3].toNat) →
    (∀ j m, j < k → m < j → byteAt u (u.args[0].toNat + m) ≠ byteAt u (u.args[0].toNat + j)) →
    (∀ j i, j < k → i < L → byteAt u (u.args[2].toNat + j * L + i) =
      byteAt t (s.args[4].toNat + ((byteAt u (u.args[0].toNat + j)).toNat - 1) * L + i)) →
    ∃ v, exec .sssRecon u = .next v ∧ v.err = false ∧
      (s.args[2].toNat ≤ k →
        ∀ i, i < L → byteAt v (u.args[4].toNat + i) = byteAt s (s.args[0].toNat + i))

/-- 41_sharing.md R152, without probability: any T points at distinct x-coordinates determine the
polynomial uniquely, and fewer give no information: for every T - 1 points at distinct nonzero
x-coordinates and every secret byte, exactly one choice of the random coefficients fits. -/
def Obligations.PointsBelowTheThresholdFitEverySecret : Prop :=
  (∀ pts : List (Byte × Byte), (pts.map Prod.fst).Nodup →
    ∃! c : List Byte, c.length = pts.length ∧ ∀ p ∈ pts, polyEval c p.1 = p.2) ∧
  ∀ (secret : Byte) (pts : List (Byte × Byte)), (pts.map Prod.fst).Nodup → (∀ p ∈ pts, p.1 ≠ 0) →
    ∃! c : List Byte, c.length = pts.length ∧ ∀ p ∈ pts, polyEval (secret :: c) p.1 = p.2

/-! ## Bit-packer -/

/-- 42_bitpack.md R170, R171: BP_PACK: its checks in order, and then bit p of the stream, at byte p/8 and
most significant bit first, is bit p mod w, most significant first, of symbol p/w; the pad is zero. -/
def Obligations.PackLaysSymbolsMsbFirst : Prop :=
  ∀ (s : State) (src n w dst nb : Nat), src = s.args[0].toNat → n = s.args[1].toNat →
    w = s.args[2].toNat → dst = s.args[3].toNat → nb = cdiv (n * w) 8 →
    (w ≠ 10 → w ≠ 11 → exec .bpPack s = .next (erred s 1 4)) ∧
    (w = 10 ∨ w = 11 →
      (s.dmemBytes < src + 2 * n → exec .bpPack s = .next (erred s 10 src)) ∧
      (src + 2 * n ≤ s.dmemBytes → s.dmemBytes < dst + nb → exec .bpPack s = .next (erred s 10 dst)) ∧
      (src + 2 * n ≤ s.dmemBytes → dst + nb ≤ s.dmemBytes →
        (∀ j, j < n → 2 ^ w ≤ symRead s src j → (∀ m, m < j → symRead s src m < 2 ^ w) →
          exec .bpPack s = .next (erred s 7 j)) ∧
        ((∀ j, j < n → symRead s src j < 2 ^ w) →
          ∃ t, exec .bpPack s = .next t ∧ StoresOnly s t dst nb ∧
            (∀ p, p < n * w → (byteAt t (dst + p / 8)).getLsbD (7 - p % 8) =
              (symRead s src (p / w)).testBit (w - 1 - p % w)) ∧
            (∀ p, n * w ≤ p → p < 8 * nb → (byteAt t (dst + p / 8)).getLsbD (7 - p % 8) = false) ∧
            (nb < 2 ^ 32 → t.result0 = BitVec.ofNat 32 nb) ∧
            t.result1 = BitVec.ofNat 32 (8 * nb - n * w))))

/-- 42_bitpack.md R170, R172: BP_UNPACK: its checks in order, and then bit q, most significant first, of
symbol j is bit j·w + q of the input stream, and zero beyond it. -/
def Obligations.UnpackCutsSymbolsMsbFirst : Prop :=
  ∀ (s : State) (src m w dst n : Nat), src = s.args[0].toNat → m = s.args[1].toNat →
    w = s.args[2].toNat → dst = s.args[3].toNat → n = cdiv (8 * m) w →
    (w ≠ 10 → w ≠ 11 → exec .bpUnpack s = .next (erred s 1 4)) ∧
    (w = 10 ∨ w = 11 →
      (s.dmemBytes < src + m → exec .bpUnpack s = .next (erred s 10 src)) ∧
      (src + m ≤ s.dmemBytes → s.dmemBytes < dst + 2 * n →
        exec .bpUnpack s = .next (erred s 10 dst)) ∧
      (src + m ≤ s.dmemBytes → dst + 2 * n ≤ s.dmemBytes →
        ∃ t, exec .bpUnpack s = .next t ∧ StoresOnly s t dst (2 * n) ∧
          (∀ j, j < n → symRead t dst j < 2 ^ w) ∧
          (∀ j q, j < n → q < w → (symRead t dst j).testBit (w - 1 - q) =
            if j * w + q < 8 * m then
              (byteAt s (src + (j * w + q) / 8)).getLsbD (7 - (j * w + q) % 8)
            else false) ∧
          (n < 2 ^ 32 → t.result0 = BitVec.ofNat 32 n) ∧
          t.result1 = BitVec.ofNat 32 (n * w - 8 * m)))

/-- 42_bitpack.md R173: unpacking what was packed gives the symbols back, with exactly one extra symbol,
of value 0, when `n·w` is not a multiple of 8. -/
def Obligations.UnpackAfterPackRestoresTheSymbols : Prop :=
  ∀ (w : Nat) (X : List Nat), w = 10 ∨ w = 11 → (∀ x ∈ X, x < 2 ^ w) →
    (X.length * w % 8 = 0 → unpackBytes w (packSymbols w X) = X) ∧
    (X.length * w % 8 ≠ 0 → unpackBytes w (packSymbols w X) = X ++ [0])

/-- 42_bitpack.md R174: packing what was unpacked gives the bytes back followed by 0, 1 or 2 zero bytes;
on packed bytes it is the identity exactly when `n·w` is a multiple of 8. -/
def Obligations.PackAfterUnpackAppendsZeroBytes : Prop :=
  (∀ (w : Nat) (B : List Byte), w = 10 ∨ w = 11 →
    ∃ z, z ≤ 2 ∧ B.length + z = cdiv (w * cdiv (8 * B.length) w) 8 ∧
      packSymbols w (unpackBytes w B) = B ++ List.replicate z 0) ∧
  ∀ (w : Nat) (X : List Nat), w = 10 ∨ w = 11 → (∀ x ∈ X, x < 2 ^ w) →
    (X.length * w % 8 = 0 →
      packSymbols w (unpackBytes w (packSymbols w X)) = packSymbols w X) ∧
    (X.length * w % 8 ≠ 0 → ∃ z, 1 ≤ z ∧ z ≤ 2 ∧
      packSymbols w (unpackBytes w (packSymbols w X)) = packSymbols w X ++ List.replicate z 0)

/-! ## Share framer -/

/-- 43_framing.md R190 to R192, R194, R196: SF_FRAME: its checks in order, and then symbol j is bits 10j
to 10j+9 of index, threshold, payload, CRC-32 and zero pad. -/
def Obligations.FrameWritesTheFramedShare : Prop :=
  ∀ (s : State) (idx thr pa L dst W : Nat), idx = s.args[0].toNat → thr = s.args[1].toNat →
    pa = s.args[2].toNat → L = s.args[3].toNat → dst = s.args[4].toNat → W = cdiv (8 * L + 42) 10 →
    (¬(1 ≤ idx ∧ idx ≤ 32) → exec .sfFrame s = .next (erred s 1 5)) ∧
    (1 ≤ idx → idx ≤ 32 →
      (¬(1 ≤ thr ∧ thr ≤ 32) → exec .sfFrame s = .next (erred s 1 6)) ∧
      (1 ≤ thr → thr ≤ 32 →
        (L = 0 ∨ L % 2 = 1 → exec .sfFrame s = .next (erred s 1 2)) ∧
        (L ≠ 0 → L % 2 = 0 →
          (s.dmemBytes < pa + L → exec .sfFrame s = .next (erred s 10 pa)) ∧
          (pa + L ≤ s.dmemBytes → s.dmemBytes < dst + 2 * W →
            exec .sfFrame s = .next (erred s 10 dst)) ∧
          (pa + L ≤ s.dmemBytes → dst + 2 * W ≤ s.dmemBytes →
            ∀ H F : List Bool,
              H = bitsOf 5 (idx - 1) ++ bitsOf 5 (thr - 1) ++ bytesToBits (memRead s pa L) →
              F = H ++ bitsOf 32 (crc32 (bitsToBytes H)).toNat ++ zeroBits (10 * W - 8 * L - 42) →
              ∃ t, exec .sfFrame s = .next t ∧ StoresOnly s t dst (2 * W) ∧
                (∀ j, j < W → symRead t dst j = valOf ((F.drop (10 * j)).take 10)) ∧
                (W < 2 ^ 32 → t.result0 = BitVec.ofNat 32 W) ∧
                (8 * L + 42 < 2 ^ 32 → t.result1 = BitVec.ofNat 32 (8 * L + 42))))))

/-- 43_framing.md R197: the payload length inferred from a symbol count is the unique even L ≥ 2 with
`W(L) = W`; the consistent counts up to 40. -/
def Obligations.PayloadLengthIsInferredUniquely : Prop :=
  (∀ W L : Nat, payloadLen? W = some L ↔ 2 ≤ L ∧ L % 2 = 0 ∧ cdiv (8 * L + 42) 10 = W) ∧
  (∀ W : Nat, payloadLen? W = none ↔ ∀ L, 2 ≤ L → L % 2 = 0 → cdiv (8 * L + 42) 10 ≠ W) ∧
  (List.range 41).filter (fun W => (payloadLen? W).isSome) =
    [6, 8, 9, 11, 13, 14, 16, 17, 19, 21, 22, 24, 25, 27, 29, 30, 32, 33, 35, 37, 38, 40]

/-- 43_framing.md R198, R199: SF_UNFRAME: its checks in order, and then index, threshold and payload. -/
def Obligations.UnframeParsesTheFramedShare : Prop :=
  ∀ (s : State) (sa W dst : Nat), sa = s.args[0].toNat → W = s.args[1].toNat →
    dst = s.args[2].toNat →
    ((∀ L, 2 ≤ L → L % 2 = 0 → cdiv (8 * L + 42) 10 ≠ W) →
      exec .sfUnframe s = .next (erred s 4 1)) ∧
    ∀ L, 2 ≤ L → L % 2 = 0 → cdiv (8 * L + 42) 10 = W →
      (s.dmemBytes < sa + 2 * W → exec .sfUnframe s = .next (erred s 10 sa)) ∧
      (sa + 2 * W ≤ s.dmemBytes → s.dmemBytes < dst + L →
        exec .sfUnframe s = .next (erred s 10 dst)) ∧
      (sa + 2 * W ≤ s.dmemBytes → dst + L ≤ s.dmemBytes →
        (∀ j, j < W → 1024 ≤ symRead s sa j → (∀ m, m < j → symRead s sa m < 1024) →
          exec .sfUnframe s = .next (erred s 7 j)) ∧
        ((∀ j, j < W → symRead s sa j < 1024) →
          ∀ F H : List Bool, F = symbolsToBits 10 (symReads s sa W) → H = F.take (10 + 8 * L) →
            (F.drop (8 * L + 42) ≠ zeroBits (10 * W - 8 * L - 42) →
              exec .sfUnframe s = .next (erred s 4 2)) ∧
            (F.drop (8 * L + 42) = zeroBits (10 * W - 8 * L - 42) →
              (valOf ((F.drop (10 + 8 * L)).take 32) ≠ (crc32 (bitsToBytes H)).toNat →
                exec .sfUnframe s = .next (erred s 4 3)) ∧
              (valOf ((F.drop (10 + 8 * L)).take 32) = (crc32 (bitsToBytes H)).toNat →
                ∃ t, exec .sfUnframe s = .next t ∧ StoresOnly s t dst L ∧
                  memRead t dst L = bitsToBytes ((F.drop 10).take (8 * L)) ∧
                  (L < 2 ^ 32 → t.result0 = BitVec.ofNat 32 L) ∧
                  t.result1 = BitVec.ofNat 32
                    ((valOf (F.take 5) + 1) + 256 * (valOf ((F.drop 5).take 5) + 1))))))

/-- 43_framing.md R200: SF_FRAME then SF_UNFRAME of its symbols yields index, threshold and payload. -/
def Obligations.FrameThenUnframeRestoresTheShare : Prop :=
  ∀ s t u : State, exec .sfFrame s = .next t → t.err = false →
    ∀ L W : Nat, L = s.args[3].toNat → W = cdiv (8 * L + 42) 10 → W = u.args[1].toNat →
    u.args[0].toNat + 2 * W ≤ u.dmemBytes → u.args[2].toNat + L ≤ u.dmemBytes →
    (∀ j, j < W → symRead u u.args[0].toNat j = symRead t s.args[4].toNat j) →
    ∃ v, exec .sfUnframe u = .next v ∧ v.err = false ∧
      v.result0 = s.args[3] ∧ v.result1.toNat = s.args[0].toNat + 256 * s.args[1].toNat ∧
      ∀ i, i < L → byteAt v (u.args[2].toNat + i) = byteAt s (s.args[2].toNat + i)

/-- 43_framing.md R201: one flipped bit of a framed share that unframes is always detected: in the first
`8L + 42` bits as MalformedShare(3), in the pad as MalformedShare(2), in bits [15:10] of an element as
SymbolOutOfRange. -/
def Obligations.SingleBitFlipIsDetected : Prop :=
  ∀ (s s' t : State) (sa W L j b : Nat), exec .sfUnframe s = .next t → t.err = false →
    s'.args = s.args → s'.dmemBytes = s.dmemBytes → sa = s.args[0].toNat → W = s.args[1].toNat →
    2 ≤ L → L % 2 = 0 → cdiv (8 * L + 42) 10 = W → j < W → b < 16 →
    (∀ i, i < W → i ≠ j → symRead s' sa i = symRead s sa i) →
    symRead s' sa j = symRead s sa j ^^^ 2 ^ b →
    (10 ≤ b → exec .sfUnframe s' = .next (erred s' 7 j)) ∧
    (b < 10 → 10 * j + (9 - b) < 8 * L + 42 → exec .sfUnframe s' = .next (erred s' 4 3)) ∧
    (b < 10 → 8 * L + 42 ≤ 10 * j + (9 - b) → exec .sfUnframe s' = .next (erred s' 4 2))

/-- 43_framing.md R195: the check value of the CRC-32. -/
def Obligations.CrcCheckValue : Prop :=
  crc32 [0x31, 0x32, 0x33, 0x34, 0x35, 0x36, 0x37, 0x38, 0x39] = 0xCBF43926

/-! ## BIP-39 checksum -/

/-- 44_checksum.md R220, R221: CK_B39_ENC: its checks in order, and then symbol j is bits 11j to 11j+10
of the entropy followed by the leading L/4 bits of its SHA-256, whatever function the hash port has. -/
def Obligations.B39EncodeAppendsTheHashPrefix : Prop :=
  ∀ (s : State) (src L dst W : Nat), src = s.args[0].toNat → L = s.args[1].toNat →
    dst = s.args[2].toNat → W = 3 * L / 4 →
    (L ∉ [16, 20, 24, 28, 32] → exec .ckB39Enc s = .next (erred s 1 7)) ∧
    (L ∈ [16, 20, 24, 28, 32] →
      (s.dmemBytes < src + L → exec .ckB39Enc s = .next (erred s 10 src)) ∧
      (src + L ≤ s.dmemBytes → s.dmemBytes < dst + 2 * W →
        exec .ckB39Enc s = .next (erred s 10 dst)) ∧
      (src + L ≤ s.dmemBytes → dst + 2 * W ≤ s.dmemBytes →
        ∀ M : List Bool, M = bytesToBits (memRead s src L) ++
            (bytesToBits (Config.sha256 (memRead s src L)).toList).take (L / 4) →
          ∃ t, exec .ckB39Enc s = .next t ∧ StoresOnly s t dst (2 * W) ∧
            (∀ j, j < W → symRead t dst j = valOf ((M.drop (11 * j)).take 11)) ∧
            t.result0 = BitVec.ofNat 32 W ∧ t.result1 = BitVec.ofNat 32 (L / 4)))

/-- 44_checksum.md R222: CK_B39_DEC: its checks in order, and then the entropy; on a mismatch
ChecksumMismatch with the received checksum bits and nothing written. -/
def Obligations.B39DecodeVerifiesTheHashPrefix : Prop :=
  ∀ (s : State) (src W dst L : Nat), src = s.args[0].toNat → W = s.args[1].toNat →
    dst = s.args[2].toNat → L = 4 * W / 3 →
    (W ∉ [12, 15, 18, 21, 24] → exec .ckB39Dec s = .next (erred s 1 8)) ∧
    (W ∈ [12, 15, 18, 21, 24] →
      (s.dmemBytes < src + 2 * W → exec .ckB39Dec s = .next (erred s 10 src)) ∧
      (src + 2 * W ≤ s.dmemBytes → s.dmemBytes < dst + L →
        exec .ckB39Dec s = .next (erred s 10 dst)) ∧
      (src + 2 * W ≤ s.dmemBytes → dst + L ≤ s.dmemBytes →
        (∀ j, j < W → 2048 ≤ symRead s src j → (∀ m, m < j → symRead s src m < 2048) →
          exec .ckB39Dec s = .next (erred s 7 j)) ∧
        ((∀ j, j < W → symRead s src j < 2048) →
          ∀ (M : List Bool) (E : List Byte), M = symbolsToBits 11 (symReads s src W) →
            E = bitsToBytes (M.take (8 * L)) →
            (M.drop (8 * L) ≠ (bytesToBits (Config.sha256 E).toList).take (L / 4) →
              exec .ckB39Dec s = .next (erred s 5 (valOf (M.drop (8 * L))))) ∧
            (M.drop (8 * L) = (bytesToBits (Config.sha256 E).toList).take (L / 4) →
              ∃ t, exec .ckB39Dec s = .next t ∧ StoresOnly s t dst L ∧ memRead t dst L = E ∧
                t.result0 = BitVec.ofNat 32 L ∧ t.result1 = BitVec.ofNat 32 (L / 4)))))

/-- 44_checksum.md R223: CK_B39_ENC then CK_B39_DEC of its symbols writes the entropy and raises
nothing. -/
def Obligations.B39EncodeThenDecodeRestoresTheEntropy : Prop :=
  ∀ s t u : State, exec .ckB39Enc s = .next t → t.err = false →
    ∀ L W : Nat, L = s.args[1].toNat → W = 3 * L / 4 → W = u.args[1].toNat →
    u.args[0].toNat + 2 * W ≤ u.dmemBytes → u.args[2].toNat + L ≤ u.dmemBytes →
    (∀ j, j < W → symRead u u.args[0].toNat j = symRead t s.args[2].toNat j) →
    ∃ v, exec .ckB39Dec u = .next v ∧ v.err = false ∧
      ∀ i, i < L → byteAt v (u.args[2].toNat + i) = byteAt s (s.args[0].toNat + i)

/-! ## Key derivation -/

/-- 45_kdf.md R240: PBKDF2 of one block is the bytewise exclusive-or of the c iterates of the
pseudorandom function from `S ‖ 00 00 00 01`. -/
def Obligations.PbkdfIsTheXorOfItsIterates : Prop :=
  ∀ (prf : List Byte → List Byte → List Byte) (n : Nat), (∀ K M, (prf K M).length = n) →
    ∀ (P S : List Byte) (c : Nat), 1 ≤ c →
      (pbkdf2 prf P S c).length = n ∧
      ∀ k, k < n → (pbkdf2 prf P S c).getD k 0 =
        xorSum (fun j => ((prf P)^[j] (prf P (S ++ [0x00, 0x00, 0x00, 0x01]))).getD k 0) c

/-- 45_kdf.md R241: KDF_SLIP: its checks in order, and then PBKDF2 over the port's HMAC_SHA256, salt
"SLIP0039" and passphrase, 20000 iterations. -/
def Obligations.KdfSlipWritesTheDerivedKey : Prop :=
  ∀ (s : State) (pa pl sa sl dst : Nat), pa = s.args[0].toNat → pl = s.args[1].toNat →
    sa = s.args[2].toNat → sl = s.args[3].toNat → dst = s.args[4].toNat →
    (s.dmemBytes < pa + pl → exec .kdfSlip s = .next (erred s 10 pa)) ∧
    (pa + pl ≤ s.dmemBytes → s.dmemBytes < sa + sl → exec .kdfSlip s = .next (erred s 10 sa)) ∧
    (pa + pl ≤ s.dmemBytes → sa + sl ≤ s.dmemBytes → s.dmemBytes < dst + 32 →
      exec .kdfSlip s = .next (erred s 10 dst)) ∧
    (pa + pl ≤ s.dmemBytes → sa + sl ≤ s.dmemBytes → dst + 32 ≤ s.dmemBytes →
      ∃ t, exec .kdfSlip s = .next t ∧ StoresOnly s t dst 32 ∧
        memRead t dst 32 = pbkdf2 (fun K M => (Config.hmacSha256 K M).toList) (memRead s pa pl)
          ([0x53, 0x4C, 0x49, 0x50, 0x30, 0x30, 0x33, 0x39] ++ memRead s sa sl) 20000 ∧
        t.result0 = 32 ∧ t.result1 = 20000)

/-- 45_kdf.md R242: KDF_BIP: its checks in order, and then PBKDF2 over the port's HMAC_SHA512, salt
"mnemonic" and passphrase, 2048 iterations. -/
def Obligations.KdfBipWritesTheDerivedKey : Prop :=
  ∀ (s : State) (pa pl sa sl dst : Nat), pa = s.args[0].toNat → pl = s.args[1].toNat →
    sa = s.args[2].toNat → sl = s.args[3].toNat → dst = s.args[4].toNat →
    (s.dmemBytes < pa + pl → exec .kdfBip s = .next (erred s 10 pa)) ∧
    (pa + pl ≤ s.dmemBytes → s.dmemBytes < sa + sl → exec .kdfBip s = .next (erred s 10 sa)) ∧
    (pa + pl ≤ s.dmemBytes → sa + sl ≤ s.dmemBytes → s.dmemBytes < dst + 64 →
      exec .kdfBip s = .next (erred s 10 dst)) ∧
    (pa + pl ≤ s.dmemBytes → sa + sl ≤ s.dmemBytes → dst + 64 ≤ s.dmemBytes →
      ∃ t, exec .kdfBip s = .next t ∧ StoresOnly s t dst 64 ∧
        memRead t dst 64 = pbkdf2 (fun K M => (Config.hmacSha512 K M).toList) (memRead s pa pl)
          ([0x6D, 0x6E, 0x65, 0x6D, 0x6F, 0x6E, 0x69, 0x63] ++ memRead s sa sl) 2048 ∧
        t.result0 = 64 ∧ t.result1 = 2048)

/-- 45_kdf.md R241 (derived there from R245): under HMAC as R245 defines it, passwords that differ only by
trailing zero bytes, both at most a block long, give the same key. -/
def Obligations.TrailingZeroBytesOfAShortPasswordDoNotMatter : Prop :=
  ∀ (H : List Byte → List Byte) (Bk c z : Nat) (P S : List Byte), P.length + z ≤ Bk →
    pbkdf2 (hmacReference H Bk) (P ++ List.replicate z 0) S c = pbkdf2 (hmacReference H Bk) P S c

/-! ## Accumulator -/

/-- 46_accumulator.md R260: ACC_RESET clears every field and sets the base, in any phase. -/
def Obligations.AccResetStartsASession : Prop :=
  ∀ s : State, ∃ t, exec .accReset s = .next t ∧ CompletedOk s t ∧ t.acc.phase = .empty ∧
    t.acc.threshold = 0 ∧ t.acc.len = 0 ∧ t.acc.count = 0 ∧ (∀ j : Fin 32, t.acc.xs[j] = 0) ∧
    t.acc.base = s.args[0] ∧ t.result0 = 0 ∧ t.result1 = 0 ∧ MemoryUntouched s t ∧ PortUntouched s t

/-- 46_accumulator.md R261, R263: ACC_ADD in a state whose accumulator is a legal session: its checks in
order (phase, count, region, symbols, pad, checksum, threshold, length, index, store), and then the
accepted share. -/
def Obligations.AccAddChecksThenAccepts : Prop :=
  ∀ (s : State) (sa W : Nat), AccInv s → s.dmemBytes ≤ 2 ^ 32 → sa = s.args[0].toNat →
    W = s.args[1].toNat →
    (s.acc.phase = .ready → exec .accAdd s = .next (erred s 12 s.acc.count.toNat)) ∧
    (s.acc.phase ≠ .ready →
      ((∀ L, 2 ≤ L → L % 2 = 0 → cdiv (8 * L + 42) 10 ≠ W) →
        exec .accAdd s = .next (erred s 4 1)) ∧
      ∀ L, 2 ≤ L → L % 2 = 0 → cdiv (8 * L + 42) 10 = W →
        (s.dmemBytes < sa + 2 * W → exec .accAdd s = .next (erred s 10 sa)) ∧
        (sa + 2 * W ≤ s.dmemBytes →
          (∀ j, j < W → 1024 ≤ symRead s sa j → (∀ m, m < j → symRead s sa m < 1024) →
            exec .accAdd s = .next (erred s 7 j)) ∧
          ((∀ j, j < W → symRead s sa j < 1024) →
            ∀ (F : List Bool) (idx thr slot : Nat), F = symbolsToBits 10 (symReads s sa W) →
              idx = valOf (F.take 5) + 1 → thr = valOf ((F.drop 5).take 5) + 1 →
              slot = s.acc.base.toNat + s.acc.count.toNat * L →
              (F.drop (8 * L + 42) ≠ zeroBits (10 * W - 8 * L - 42) →
                exec .accAdd s = .next (erred s 4 2)) ∧
              (F.drop (8 * L + 42) = zeroBits (10 * W - 8 * L - 42) →
                (valOf ((F.drop (10 + 8 * L)).take 32) ≠
                    (crc32 (bitsToBytes (F.take (10 + 8 * L)))).toNat →
                  exec .accAdd s = .next (erred s 4 3)) ∧
                (valOf ((F.drop (10 + 8 * L)).take 32) =
                    (crc32 (bitsToBytes (F.take (10 + 8 * L)))).toNat →
                  (s.acc.phase = .collecting → thr ≠ s.acc.threshold.toNat →
                    exec .accAdd s = .next (erred s 11 thr)) ∧
                  (s.acc.phase = .collecting → thr = s.acc.threshold.toNat → L ≠ s.acc.len.toNat →
                    exec .accAdd s = .next (erred s 4 4)) ∧
                  (s.acc.phase = .collecting → thr = s.acc.threshold.toNat → L = s.acc.len.toNat →
                    (∃ j : Fin 32, j.val < s.acc.count.toNat ∧ s.acc.xs[j].toNat = idx) →
                    exec .accAdd s = .next (erred s 3 idx)) ∧
                  (s.acc.phase = .empty ∨ (s.acc.phase = .collecting ∧ thr = s.acc.threshold.toNat ∧
                      L = s.acc.len.toNat ∧
                      ∀ j : Fin 32, j.val < s.acc.count.toNat → s.acc.xs[j].toNat ≠ idx) →
                    (s.dmemBytes < slot + L → exec .accAdd s = .next (erred s 10 slot)) ∧
                    (slot + L ≤ s.dmemBytes →
                      ∃ t, exec .accAdd s = .next t ∧ CompletedOk s t ∧
                        MemoryOutside s t slot L ∧ PortUntouched s t ∧
                        memRead t slot L = bitsToBytes ((F.drop 10).take (8 * L)) ∧
                        t.acc.threshold.toNat = thr ∧ t.acc.len.toNat = L ∧
                        t.acc.count.toNat = s.acc.count.toNat + 1 ∧ t.acc.base = s.acc.base ∧
                        (∀ j : Fin 32, t.acc.xs[j] =
                          if j.val = s.acc.count.toNat then BitVec.ofNat 8 idx else s.acc.xs[j]) ∧
                        t.acc.phase = (if max thr 2 ≤ s.acc.count.toNat + 1 then .ready
                          else .collecting) ∧
                        t.result0.toNat = s.acc.count.toNat + 1 ∧
                        t.result1.toNat = idx + 256 * thr)))))))

/-- 46_accumulator.md R264: ACC_MERGE in a state whose accumulator is a legal session: InsufficientShares
unless Ready, then the region, and then the interpolation of the stored payloads; the accumulator is
unchanged. -/
def Obligations.AccMergeReconstructsTheSession : Prop :=
  ∀ (s : State) (dst L k base : Nat), AccInv s → dst = s.args[0].toNat → L = s.acc.len.toNat →
    k = s.acc.count.toNat → base = s.acc.base.toNat →
    (s.acc.phase ≠ .ready → exec .accMerge s = .next (erred s 2 k)) ∧
    (s.acc.phase = .ready →
      (s.dmemBytes < dst + L → exec .accMerge s = .next (erred s 10 dst)) ∧
      (dst + L ≤ s.dmemBytes →
        ∃ t, exec .accMerge s = .next t ∧ StoresOnly s t dst L ∧
          (∀ X : Nat → Byte, (∀ j : Fin 32, X j.val = s.acc.xs[j]) →
            ∀ i, i < L → byteAt t (dst + i) =
              xorSum (fun j => gfMul (byteAt s (base + j * L + i))
                (gfProd (fun m => if m = j then 1 else gfDiv (X m) (X j ^^^ X m)) k)) k) ∧
          t.result0 = BitVec.ofNat 32 L ∧ t.result1 = BitVec.ofNat 32 k))
end

