-- ==== Sys2Proof/Laws/State.lean ====
section
/-!
SUPPORT. What every update of State does to every field: one lemma per field per update, so that no
proof unfolds a record update.
-/

namespace Sys2Proof.Machine

/-! ## `raise` -/

@[simp] theorem raise_args (s : State) (r : Raise) : (raise s r).args = s.args := rfl
@[simp] theorem raise_result0 (s : State) (r : Raise) : (raise s r).result0 = s.result0 := rfl
@[simp] theorem raise_result1 (s : State) (r : Raise) : (raise s r).result1 = s.result1 := rfl
@[simp] theorem raise_irqEn (s : State) (r : Raise) : (raise s r).irqEn = s.irqEn := rfl
@[simp] theorem raise_done (s : State) (r : Raise) : (raise s r).done = true := rfl
@[simp] theorem raise_err (s : State) (r : Raise) : (raise s r).err = true := rfl
@[simp] theorem raise_errCode (s : State) (r : Raise) : (raise s r).errCode = errCodeOf r.name := rfl
@[simp] theorem raise_cmd (s : State) (r : Raise) : (raise s r).cmd = s.cmd := rfl
@[simp] theorem raise_errInfo (s : State) (r : Raise) : (raise s r).errInfo = BitVec.ofNat 32 r.info := rfl
@[simp] theorem raise_seq (s : State) (r : Raise) : (raise s r).seq = .idle := rfl
@[simp] theorem raise_acc (s : State) (r : Raise) : (raise s r).acc = s.acc := rfl
@[simp] theorem raise_mem (s : State) (r : Raise) : (raise s r).mem = s.mem := rfl
@[simp] theorem raise_dmemBytes (s : State) (r : Raise) : (raise s r).dmemBytes = s.dmemBytes := rfl
@[simp] theorem raise_powerOns (s : State) (r : Raise) : (raise s r).powerOns = s.powerOns := rfl
@[simp] theorem raise_rngIn (s : State) (r : Raise) : (raise s r).rngIn = s.rngIn := rfl
@[simp] theorem raise_rngDraws (s : State) (r : Raise) : (raise s r).rngDraws = s.rngDraws := rfl
@[simp] theorem raise_latIn (s : State) (r : Raise) : (raise s r).latIn = s.latIn := rfl
@[simp] theorem raise_issues (s : State) (r : Raise) : (raise s r).issues = s.issues := rfl
@[simp] theorem raise_latency (s : State) (r : Raise) : (raise s r).latency = s.latency := rfl
@[simp] theorem raise_powerOnPin (s : State) (r : Raise) : (raise s r).powerOnPin = s.powerOnPin := rfl
@[simp] theorem raise_host (s : State) (r : Raise) : (raise s r).host = s.host := rfl

/-! ## `finish` -/

@[simp] theorem finish_args (i : Instr) (s : State) (e : Effect) : (finish i s e).args = s.args := rfl
@[simp] theorem finish_result0 (i : Instr) (s : State) (e : Effect) : (finish i s e).result0 = toResult i e.result0 := rfl
@[simp] theorem finish_result1 (i : Instr) (s : State) (e : Effect) : (finish i s e).result1 = toResult i e.result1 := rfl
@[simp] theorem finish_irqEn (i : Instr) (s : State) (e : Effect) : (finish i s e).irqEn = s.irqEn := rfl
@[simp] theorem finish_done (i : Instr) (s : State) (e : Effect) : (finish i s e).done = true := rfl
@[simp] theorem finish_err (i : Instr) (s : State) (e : Effect) : (finish i s e).err = false := rfl
@[simp] theorem finish_errCode (i : Instr) (s : State) (e : Effect) : (finish i s e).errCode = 0 := rfl
@[simp] theorem finish_cmd (i : Instr) (s : State) (e : Effect) : (finish i s e).cmd = s.cmd := rfl
@[simp] theorem finish_errInfo (i : Instr) (s : State) (e : Effect) : (finish i s e).errInfo = s.errInfo := rfl
@[simp] theorem finish_seq (i : Instr) (s : State) (e : Effect) : (finish i s e).seq = .idle := rfl
@[simp] theorem finish_acc (i : Instr) (s : State) (e : Effect) : (finish i s e).acc = e.acc.getD s.acc := rfl
@[simp] theorem finish_mem (i : Instr) (s : State) (e : Effect) : (finish i s e).mem = Memory.applyWrites s.mem e.writes := rfl
@[simp] theorem finish_dmemBytes (i : Instr) (s : State) (e : Effect) : (finish i s e).dmemBytes = s.dmemBytes := rfl
@[simp] theorem finish_powerOns (i : Instr) (s : State) (e : Effect) : (finish i s e).powerOns = s.powerOns := rfl
@[simp] theorem finish_rngIn (i : Instr) (s : State) (e : Effect) : (finish i s e).rngIn = s.rngIn.drop e.draws := rfl
@[simp] theorem finish_rngDraws (i : Instr) (s : State) (e : Effect) : (finish i s e).rngDraws = s.rngDraws + e.draws := rfl
@[simp] theorem finish_latIn (i : Instr) (s : State) (e : Effect) : (finish i s e).latIn = s.latIn := rfl
@[simp] theorem finish_issues (i : Instr) (s : State) (e : Effect) : (finish i s e).issues = s.issues := rfl
@[simp] theorem finish_latency (i : Instr) (s : State) (e : Effect) : (finish i s e).latency = s.latency := rfl
@[simp] theorem finish_powerOnPin (i : Instr) (s : State) (e : Effect) : (finish i s e).powerOnPin = s.powerOnPin := rfl
@[simp] theorem finish_host (i : Instr) (s : State) (e : Effect) : (finish i s e).host = s.host := rfl

/-! ## `issue` -/

@[simp] theorem issue_args (s : State) (v : Word) : (issue s v).args = s.args := rfl
@[simp] theorem issue_result0 (s : State) (v : Word) : (issue s v).result0 = s.result0 := rfl
@[simp] theorem issue_result1 (s : State) (v : Word) : (issue s v).result1 = s.result1 := rfl
@[simp] theorem issue_irqEn (s : State) (v : Word) : (issue s v).irqEn = s.irqEn := rfl
@[simp] theorem issue_done (s : State) (v : Word) : (issue s v).done = false := rfl
@[simp] theorem issue_err (s : State) (v : Word) : (issue s v).err = false := rfl
@[simp] theorem issue_errCode (s : State) (v : Word) : (issue s v).errCode = 0 := rfl
@[simp] theorem issue_cmd (s : State) (v : Word) : (issue s v).cmd = v := rfl
@[simp] theorem issue_errInfo (s : State) (v : Word) : (issue s v).errInfo = 0 := rfl
@[simp] theorem issue_seq (s : State) (v : Word) : (issue s v).seq = .busy := rfl
@[simp] theorem issue_acc (s : State) (v : Word) : (issue s v).acc = s.acc := rfl
@[simp] theorem issue_mem (s : State) (v : Word) : (issue s v).mem = s.mem := rfl
@[simp] theorem issue_dmemBytes (s : State) (v : Word) : (issue s v).dmemBytes = s.dmemBytes := rfl
@[simp] theorem issue_powerOns (s : State) (v : Word) : (issue s v).powerOns = s.powerOns := rfl
@[simp] theorem issue_rngIn (s : State) (v : Word) : (issue s v).rngIn = s.rngIn := rfl
@[simp] theorem issue_rngDraws (s : State) (v : Word) : (issue s v).rngDraws = s.rngDraws := rfl
@[simp] theorem issue_latIn (s : State) (v : Word) : (issue s v).latIn = s.latIn.tail := rfl
@[simp] theorem issue_issues (s : State) (v : Word) : (issue s v).issues = s.issues + 1 := rfl
@[simp] theorem issue_latency (s : State) (v : Word) : (issue s v).latency = latencyAnswer s := rfl
@[simp] theorem issue_powerOnPin (s : State) (v : Word) : (issue s v).powerOnPin = s.powerOnPin := rfl
@[simp] theorem issue_host (s : State) (v : Word) : (issue s v).host = s.host := rfl

/-! ## `acknowledge` -/

@[simp] theorem acknowledge_args (s : State) : (acknowledge s).args = s.args := rfl
@[simp] theorem acknowledge_result0 (s : State) : (acknowledge s).result0 = s.result0 := rfl
@[simp] theorem acknowledge_result1 (s : State) : (acknowledge s).result1 = s.result1 := rfl
@[simp] theorem acknowledge_irqEn (s : State) : (acknowledge s).irqEn = s.irqEn := rfl
@[simp] theorem acknowledge_done (s : State) : (acknowledge s).done = false := rfl
@[simp] theorem acknowledge_err (s : State) : (acknowledge s).err = s.err := rfl
@[simp] theorem acknowledge_errCode (s : State) : (acknowledge s).errCode = s.errCode := rfl
@[simp] theorem acknowledge_cmd (s : State) : (acknowledge s).cmd = s.cmd := rfl
@[simp] theorem acknowledge_errInfo (s : State) : (acknowledge s).errInfo = s.errInfo := rfl
@[simp] theorem acknowledge_seq (s : State) : (acknowledge s).seq = s.seq := rfl
@[simp] theorem acknowledge_acc (s : State) : (acknowledge s).acc = s.acc := rfl
@[simp] theorem acknowledge_mem (s : State) : (acknowledge s).mem = s.mem := rfl
@[simp] theorem acknowledge_dmemBytes (s : State) : (acknowledge s).dmemBytes = s.dmemBytes := rfl
@[simp] theorem acknowledge_powerOns (s : State) : (acknowledge s).powerOns = s.powerOns := rfl
@[simp] theorem acknowledge_rngIn (s : State) : (acknowledge s).rngIn = s.rngIn := rfl
@[simp] theorem acknowledge_rngDraws (s : State) : (acknowledge s).rngDraws = s.rngDraws := rfl
@[simp] theorem acknowledge_latIn (s : State) : (acknowledge s).latIn = s.latIn := rfl
@[simp] theorem acknowledge_issues (s : State) : (acknowledge s).issues = s.issues := rfl
@[simp] theorem acknowledge_latency (s : State) : (acknowledge s).latency = s.latency := rfl
@[simp] theorem acknowledge_powerOnPin (s : State) : (acknowledge s).powerOnPin = s.powerOnPin := rfl
@[simp] theorem acknowledge_host (s : State) : (acknowledge s).host = s.host := rfl

/-! ## `resetRegisters` -/

@[simp] theorem resetRegisters_args (s : State) : (resetRegisters s).args = Vector.replicate 6 0 := rfl
@[simp] theorem resetRegisters_result0 (s : State) : (resetRegisters s).result0 = 0 := rfl
@[simp] theorem resetRegisters_result1 (s : State) : (resetRegisters s).result1 = 0 := rfl
@[simp] theorem resetRegisters_irqEn (s : State) : (resetRegisters s).irqEn = false := rfl
@[simp] theorem resetRegisters_done (s : State) : (resetRegisters s).done = false := rfl
@[simp] theorem resetRegisters_err (s : State) : (resetRegisters s).err = false := rfl
@[simp] theorem resetRegisters_errCode (s : State) : (resetRegisters s).errCode = 0 := rfl
@[simp] theorem resetRegisters_cmd (s : State) : (resetRegisters s).cmd = 0 := rfl
@[simp] theorem resetRegisters_errInfo (s : State) : (resetRegisters s).errInfo = 0 := rfl
@[simp] theorem resetRegisters_seq (s : State) : (resetRegisters s).seq = .idle := rfl
@[simp] theorem resetRegisters_acc (s : State) : (resetRegisters s).acc = Acc.reset := rfl
@[simp] theorem resetRegisters_mem (s : State) : (resetRegisters s).mem = s.mem := rfl
@[simp] theorem resetRegisters_dmemBytes (s : State) : (resetRegisters s).dmemBytes = s.dmemBytes := rfl
@[simp] theorem resetRegisters_powerOns (s : State) : (resetRegisters s).powerOns = s.powerOns := rfl
@[simp] theorem resetRegisters_rngIn (s : State) : (resetRegisters s).rngIn = s.rngIn := rfl
@[simp] theorem resetRegisters_rngDraws (s : State) : (resetRegisters s).rngDraws = s.rngDraws := rfl
@[simp] theorem resetRegisters_latIn (s : State) : (resetRegisters s).latIn = s.latIn := rfl
@[simp] theorem resetRegisters_issues (s : State) : (resetRegisters s).issues = s.issues := rfl
@[simp] theorem resetRegisters_latency (s : State) : (resetRegisters s).latency = 0 := rfl
@[simp] theorem resetRegisters_powerOnPin (s : State) : (resetRegisters s).powerOnPin = s.powerOnPin := rfl
@[simp] theorem resetRegisters_host (s : State) : (resetRegisters s).host = s.host := rfl

/-! ## `softReset` -/

@[simp] theorem softReset_args (s : State) : (softReset s).args = Vector.replicate 6 0 := rfl
@[simp] theorem softReset_result0 (s : State) : (softReset s).result0 = 0 := rfl
@[simp] theorem softReset_result1 (s : State) : (softReset s).result1 = 0 := rfl
@[simp] theorem softReset_irqEn (s : State) : (softReset s).irqEn = false := rfl
@[simp] theorem softReset_done (s : State) : (softReset s).done = false := rfl
@[simp] theorem softReset_err (s : State) : (softReset s).err = false := rfl
@[simp] theorem softReset_errCode (s : State) : (softReset s).errCode = 0 := rfl
@[simp] theorem softReset_cmd (s : State) : (softReset s).cmd = 0 := rfl
@[simp] theorem softReset_errInfo (s : State) : (softReset s).errInfo = 0 := rfl
@[simp] theorem softReset_seq (s : State) : (softReset s).seq = .idle := rfl
@[simp] theorem softReset_acc (s : State) : (softReset s).acc = Acc.reset := rfl
@[simp] theorem softReset_mem (s : State) : (softReset s).mem = s.mem := rfl
@[simp] theorem softReset_dmemBytes (s : State) : (softReset s).dmemBytes = s.dmemBytes := rfl
@[simp] theorem softReset_powerOns (s : State) : (softReset s).powerOns = s.powerOns := rfl
@[simp] theorem softReset_rngIn (s : State) : (softReset s).rngIn = s.rngIn := rfl
@[simp] theorem softReset_rngDraws (s : State) : (softReset s).rngDraws = s.rngDraws := rfl
@[simp] theorem softReset_latIn (s : State) : (softReset s).latIn = s.latIn := rfl
@[simp] theorem softReset_issues (s : State) : (softReset s).issues = s.issues := rfl
@[simp] theorem softReset_latency (s : State) : (softReset s).latency = 0 := rfl
@[simp] theorem softReset_powerOnPin (s : State) : (softReset s).powerOnPin = s.powerOnPin := rfl
@[simp] theorem softReset_host (s : State) : (softReset s).host = s.host := rfl

/-! ## `powerOnReset` -/

@[simp] theorem powerOnReset_args (s : State) : (powerOnReset s).args = Vector.replicate 6 0 := rfl
@[simp] theorem powerOnReset_result0 (s : State) : (powerOnReset s).result0 = 0 := rfl
@[simp] theorem powerOnReset_result1 (s : State) : (powerOnReset s).result1 = 0 := rfl
@[simp] theorem powerOnReset_irqEn (s : State) : (powerOnReset s).irqEn = false := rfl
@[simp] theorem powerOnReset_done (s : State) : (powerOnReset s).done = false := rfl
@[simp] theorem powerOnReset_err (s : State) : (powerOnReset s).err = false := rfl
@[simp] theorem powerOnReset_errCode (s : State) : (powerOnReset s).errCode = 0 := rfl
@[simp] theorem powerOnReset_cmd (s : State) : (powerOnReset s).cmd = 0 := rfl
@[simp] theorem powerOnReset_errInfo (s : State) : (powerOnReset s).errInfo = 0 := rfl
@[simp] theorem powerOnReset_seq (s : State) : (powerOnReset s).seq = .idle := rfl
@[simp] theorem powerOnReset_acc (s : State) : (powerOnReset s).acc = Acc.reset := rfl
@[simp] theorem powerOnReset_mem (s : State) : (powerOnReset s).mem = [] := rfl
@[simp] theorem powerOnReset_dmemBytes (s : State) : (powerOnReset s).dmemBytes = s.dmemBytes := rfl
@[simp] theorem powerOnReset_powerOns (s : State) : (powerOnReset s).powerOns = s.powerOns + 1 := rfl
@[simp] theorem powerOnReset_rngIn (s : State) : (powerOnReset s).rngIn = s.rngIn := rfl
@[simp] theorem powerOnReset_rngDraws (s : State) : (powerOnReset s).rngDraws = s.rngDraws := rfl
@[simp] theorem powerOnReset_latIn (s : State) : (powerOnReset s).latIn = s.latIn := rfl
@[simp] theorem powerOnReset_issues (s : State) : (powerOnReset s).issues = s.issues := rfl
@[simp] theorem powerOnReset_latency (s : State) : (powerOnReset s).latency = 0 := rfl
@[simp] theorem powerOnReset_powerOnPin (s : State) : (powerOnReset s).powerOnPin = false := rfl
@[simp] theorem powerOnReset_host (s : State) : (powerOnReset s).host = s.host := rfl

/-! ## `issuedNow` -/

@[simp] theorem issuedNow_args (s : State) (v : Word) : (issuedNow s v).args = s.args := rfl
@[simp] theorem issuedNow_result0 (s : State) (v : Word) : (issuedNow s v).result0 = s.result0 := rfl
@[simp] theorem issuedNow_result1 (s : State) (v : Word) : (issuedNow s v).result1 = s.result1 := rfl
@[simp] theorem issuedNow_irqEn (s : State) (v : Word) : (issuedNow s v).irqEn = s.irqEn := rfl
@[simp] theorem issuedNow_done (s : State) (v : Word) : (issuedNow s v).done = false := rfl
@[simp] theorem issuedNow_err (s : State) (v : Word) : (issuedNow s v).err = false := rfl
@[simp] theorem issuedNow_errCode (s : State) (v : Word) : (issuedNow s v).errCode = 0 := rfl
@[simp] theorem issuedNow_cmd (s : State) (v : Word) : (issuedNow s v).cmd = v := rfl
@[simp] theorem issuedNow_errInfo (s : State) (v : Word) : (issuedNow s v).errInfo = 0 := rfl
@[simp] theorem issuedNow_seq (s : State) (v : Word) : (issuedNow s v).seq = .busy := rfl
@[simp] theorem issuedNow_acc (s : State) (v : Word) : (issuedNow s v).acc = s.acc := rfl
@[simp] theorem issuedNow_mem (s : State) (v : Word) : (issuedNow s v).mem = s.mem := rfl
@[simp] theorem issuedNow_dmemBytes (s : State) (v : Word) : (issuedNow s v).dmemBytes = s.dmemBytes := rfl
@[simp] theorem issuedNow_powerOns (s : State) (v : Word) : (issuedNow s v).powerOns = s.powerOns := rfl
@[simp] theorem issuedNow_rngIn (s : State) (v : Word) : (issuedNow s v).rngIn = s.rngIn := rfl
@[simp] theorem issuedNow_rngDraws (s : State) (v : Word) : (issuedNow s v).rngDraws = s.rngDraws := rfl
@[simp] theorem issuedNow_latIn (s : State) (v : Word) : (issuedNow s v).latIn = s.latIn := rfl
@[simp] theorem issuedNow_issues (s : State) (v : Word) : (issuedNow s v).issues = s.issues := rfl
@[simp] theorem issuedNow_latency (s : State) (v : Word) : (issuedNow s v).latency = 0 := rfl
@[simp] theorem issuedNow_powerOnPin (s : State) (v : Word) : (issuedNow s v).powerOnPin = false := rfl
@[simp] theorem issuedNow_host (s : State) (v : Word) : (issuedNow s v).host = s.host := rfl

/-! ## `hostGoto` -/

@[simp] theorem hostGoto_args (s : State) (n : Nat) : (hostGoto s n).args = s.args := rfl
@[simp] theorem hostGoto_result0 (s : State) (n : Nat) : (hostGoto s n).result0 = s.result0 := rfl
@[simp] theorem hostGoto_result1 (s : State) (n : Nat) : (hostGoto s n).result1 = s.result1 := rfl
@[simp] theorem hostGoto_irqEn (s : State) (n : Nat) : (hostGoto s n).irqEn = s.irqEn := rfl
@[simp] theorem hostGoto_done (s : State) (n : Nat) : (hostGoto s n).done = s.done := rfl
@[simp] theorem hostGoto_err (s : State) (n : Nat) : (hostGoto s n).err = s.err := rfl
@[simp] theorem hostGoto_errCode (s : State) (n : Nat) : (hostGoto s n).errCode = s.errCode := rfl
@[simp] theorem hostGoto_cmd (s : State) (n : Nat) : (hostGoto s n).cmd = s.cmd := rfl
@[simp] theorem hostGoto_errInfo (s : State) (n : Nat) : (hostGoto s n).errInfo = s.errInfo := rfl
@[simp] theorem hostGoto_seq (s : State) (n : Nat) : (hostGoto s n).seq = s.seq := rfl
@[simp] theorem hostGoto_acc (s : State) (n : Nat) : (hostGoto s n).acc = s.acc := rfl
@[simp] theorem hostGoto_mem (s : State) (n : Nat) : (hostGoto s n).mem = s.mem := rfl
@[simp] theorem hostGoto_dmemBytes (s : State) (n : Nat) : (hostGoto s n).dmemBytes = s.dmemBytes := rfl
@[simp] theorem hostGoto_powerOns (s : State) (n : Nat) : (hostGoto s n).powerOns = s.powerOns := rfl
@[simp] theorem hostGoto_rngIn (s : State) (n : Nat) : (hostGoto s n).rngIn = s.rngIn := rfl
@[simp] theorem hostGoto_rngDraws (s : State) (n : Nat) : (hostGoto s n).rngDraws = s.rngDraws := rfl
@[simp] theorem hostGoto_latIn (s : State) (n : Nat) : (hostGoto s n).latIn = s.latIn := rfl
@[simp] theorem hostGoto_issues (s : State) (n : Nat) : (hostGoto s n).issues = s.issues := rfl
@[simp] theorem hostGoto_latency (s : State) (n : Nat) : (hostGoto s n).latency = s.latency := rfl
@[simp] theorem hostGoto_powerOnPin (s : State) (n : Nat) : (hostGoto s n).powerOnPin = s.powerOnPin := rfl
@[simp] theorem hostGoto_host (s : State) (n : Nat) : (hostGoto s n).host = { s.host with pc := n } := rfl

/-! ## `hostNext` -/

@[simp] theorem hostNext_args (s : State) : (hostNext s).args = s.args := rfl
@[simp] theorem hostNext_result0 (s : State) : (hostNext s).result0 = s.result0 := rfl
@[simp] theorem hostNext_result1 (s : State) : (hostNext s).result1 = s.result1 := rfl
@[simp] theorem hostNext_irqEn (s : State) : (hostNext s).irqEn = s.irqEn := rfl
@[simp] theorem hostNext_done (s : State) : (hostNext s).done = s.done := rfl
@[simp] theorem hostNext_err (s : State) : (hostNext s).err = s.err := rfl
@[simp] theorem hostNext_errCode (s : State) : (hostNext s).errCode = s.errCode := rfl
@[simp] theorem hostNext_cmd (s : State) : (hostNext s).cmd = s.cmd := rfl
@[simp] theorem hostNext_errInfo (s : State) : (hostNext s).errInfo = s.errInfo := rfl
@[simp] theorem hostNext_seq (s : State) : (hostNext s).seq = s.seq := rfl
@[simp] theorem hostNext_acc (s : State) : (hostNext s).acc = s.acc := rfl
@[simp] theorem hostNext_mem (s : State) : (hostNext s).mem = s.mem := rfl
@[simp] theorem hostNext_dmemBytes (s : State) : (hostNext s).dmemBytes = s.dmemBytes := rfl
@[simp] theorem hostNext_powerOns (s : State) : (hostNext s).powerOns = s.powerOns := rfl
@[simp] theorem hostNext_rngIn (s : State) : (hostNext s).rngIn = s.rngIn := rfl
@[simp] theorem hostNext_rngDraws (s : State) : (hostNext s).rngDraws = s.rngDraws := rfl
@[simp] theorem hostNext_latIn (s : State) : (hostNext s).latIn = s.latIn := rfl
@[simp] theorem hostNext_issues (s : State) : (hostNext s).issues = s.issues := rfl
@[simp] theorem hostNext_latency (s : State) : (hostNext s).latency = s.latency := rfl
@[simp] theorem hostNext_powerOnPin (s : State) : (hostNext s).powerOnPin = s.powerOnPin := rfl
@[simp] theorem hostNext_host (s : State) : (hostNext s).host = { s.host with pc := s.host.pc + 1 } := rfl

/-! ## `hostRead` -/

@[simp] theorem hostRead_args (s : State) (v : Word) : (hostRead s v).args = s.args := rfl
@[simp] theorem hostRead_result0 (s : State) (v : Word) : (hostRead s v).result0 = s.result0 := rfl
@[simp] theorem hostRead_result1 (s : State) (v : Word) : (hostRead s v).result1 = s.result1 := rfl
@[simp] theorem hostRead_irqEn (s : State) (v : Word) : (hostRead s v).irqEn = s.irqEn := rfl
@[simp] theorem hostRead_done (s : State) (v : Word) : (hostRead s v).done = s.done := rfl
@[simp] theorem hostRead_err (s : State) (v : Word) : (hostRead s v).err = s.err := rfl
@[simp] theorem hostRead_errCode (s : State) (v : Word) : (hostRead s v).errCode = s.errCode := rfl
@[simp] theorem hostRead_cmd (s : State) (v : Word) : (hostRead s v).cmd = s.cmd := rfl
@[simp] theorem hostRead_errInfo (s : State) (v : Word) : (hostRead s v).errInfo = s.errInfo := rfl
@[simp] theorem hostRead_seq (s : State) (v : Word) : (hostRead s v).seq = s.seq := rfl
@[simp] theorem hostRead_acc (s : State) (v : Word) : (hostRead s v).acc = s.acc := rfl
@[simp] theorem hostRead_mem (s : State) (v : Word) : (hostRead s v).mem = s.mem := rfl
@[simp] theorem hostRead_dmemBytes (s : State) (v : Word) : (hostRead s v).dmemBytes = s.dmemBytes := rfl
@[simp] theorem hostRead_powerOns (s : State) (v : Word) : (hostRead s v).powerOns = s.powerOns := rfl
@[simp] theorem hostRead_rngIn (s : State) (v : Word) : (hostRead s v).rngIn = s.rngIn := rfl
@[simp] theorem hostRead_rngDraws (s : State) (v : Word) : (hostRead s v).rngDraws = s.rngDraws := rfl
@[simp] theorem hostRead_latIn (s : State) (v : Word) : (hostRead s v).latIn = s.latIn := rfl
@[simp] theorem hostRead_issues (s : State) (v : Word) : (hostRead s v).issues = s.issues := rfl
@[simp] theorem hostRead_latency (s : State) (v : Word) : (hostRead s v).latency = s.latency := rfl
@[simp] theorem hostRead_powerOnPin (s : State) (v : Word) : (hostRead s v).powerOnPin = s.powerOnPin := rfl
@[simp] theorem hostRead_host (s : State) (v : Word) : (hostRead s v).host = { s.host with lastRead := v, pc := s.host.pc + 1 } := rfl

/-! ## Completion -/

@[simp] theorem settle_ok (i : Instr) (s : State) (e : Effect) : settle i s (.ok e) = finish i s e := rfl

@[simp] theorem settle_error (i : Instr) (s : State) (r : Raise) : settle i s (.error r) = raise s r := rfl

theorem complete_eq (i : Instr) (s : State) (r : Except Raise Effect) :
    complete i s r = .next (settle i s r) := rfl

/-- Raising is the error completion of Safety.lean with the code of the error's name. -/
theorem raise_eq_erred (s : State) (r : Raise) : raise s r = erred s (errCodeOf r.name) r.info := rfl

end Sys2Proof.Machine
end

