-- ==== Sys2Proof/Laws/Memory.lean ====
section
/-!
SUPPORT. The laws of DMEM: reading after writing, the canonical form, the bound on written addresses.
-/

namespace Sys2Proof.Machine

/-! ## Reading after writing -/

@[simp] theorem Memory.get?_nil (a : Nat) : Memory.get? [] a = none := rfl

theorem Memory.get?_set (m : Memory) (a b : Nat) (v : Byte) :
    Memory.get? (Memory.set m a v) b = if a = b then some v else Memory.get? m b := by
  induction m with
  | nil => simp [Memory.set, Memory.get?]
  | cons c m ih =>
    obtain ⟨a', b'⟩ := c
    simp only [Memory.set]
    split
    · simp [Memory.get?]
    · split
      · rename_i h; subst h
        by_cases hb : a = b <;> simp [Memory.get?, hb]
      · rename_i h1 h2
        by_cases hb : a' = b
        · have : a ≠ b := by omega
          simp [Memory.get?, hb, this]
        · simp [Memory.get?, hb, ih]

theorem Memory.get?_write (m : Memory) (a b : Nat) (B : List Byte) :
    Memory.get? (Memory.write m a B) b =
      if a ≤ b ∧ b < a + B.length then B[b - a]? else Memory.get? m b := by
  induction B generalizing m a with
  | nil => simp [Memory.write]
  | cons v B ih =>
    rw [Memory.write, ih, Memory.get?_set]
    by_cases hb : a = b
    · subst hb
      simp
    · by_cases h : a + 1 ≤ b ∧ b < a + 1 + B.length
      · have e : b - a = (b - (a + 1)) + 1 := by omega
        simp only [List.length_cons]
        rw [if_pos h, if_pos (by omega), e, List.getElem?_cons_succ]
      · simp only [List.length_cons]
        rw [if_neg h, if_neg hb, if_neg (by omega)]

/-- A byte outside every written region keeps what is listed at it. -/
theorem Memory.get?_applyWrites_outside (m : Memory) (ws : List (Nat × List Byte)) (b : Nat)
    (h : ∀ w ∈ ws, b < w.1 ∨ w.1 + w.2.length ≤ b) :
    Memory.get? (Memory.applyWrites m ws) b = Memory.get? m b := by
  induction ws generalizing m with
  | nil => rfl
  | cons w ws ih =>
    have hw := h w (by simp)
    rw [Memory.applyWrites, List.foldl_cons]
    rw [show List.foldl (fun m w => Memory.write m w.1 w.2) (Memory.write m w.1 w.2) ws =
      Memory.applyWrites (Memory.write m w.1 w.2) ws from rfl]
    rw [ih _ fun w' hw' => h w' (by simp [hw']), Memory.get?_write, if_neg (by omega)]

/-- One write list entry at the head of the list is applied first. -/
theorem Memory.applyWrites_cons (m : Memory) (w : Nat × List Byte) (ws : List (Nat × List Byte)) :
    Memory.applyWrites m (w :: ws) = Memory.applyWrites (Memory.write m w.1 w.2) ws := rfl

@[simp] theorem Memory.applyWrites_nil (m : Memory) : Memory.applyWrites m [] = m := rfl

@[simp] theorem Memory.applyWrites_one (m : Memory) (a : Nat) (B : List Byte) :
    Memory.applyWrites m [(a, B)] = Memory.write m a B := rfl

/-! ## The canonical form -/

theorem Memory.risesFrom_mono {lo lo' : Nat} {m : Memory} (h : lo' ≤ lo)
    (hm : Memory.risesFrom lo m = true) : Memory.risesFrom lo' m = true := by
  cases m with
  | nil => rfl
  | cons c m =>
    obtain ⟨a, b⟩ := c
    simp only [Memory.risesFrom, Bool.and_eq_true, decide_eq_true_eq] at hm ⊢
    exact ⟨by omega, hm.2⟩

theorem Memory.risesFrom_set {lo a : Nat} {m : Memory} (v : Byte) (ha : lo ≤ a)
    (hm : Memory.risesFrom lo m = true) : Memory.risesFrom lo (Memory.set m a v) = true := by
  induction m generalizing lo with
  | nil => simpa [Memory.set, Memory.risesFrom] using ha
  | cons c m ih =>
    obtain ⟨a', b'⟩ := c
    simp only [Memory.risesFrom, Bool.and_eq_true, decide_eq_true_eq] at hm
    simp only [Memory.set]
    split
    · simp only [Memory.risesFrom, Bool.and_eq_true, decide_eq_true_eq]
      exact ⟨ha, by omega, hm.2⟩
    · split
      · rename_i h; subst h
        simp only [Memory.risesFrom, Bool.and_eq_true, decide_eq_true_eq]
        exact ⟨ha, hm.2⟩
      · simp only [Memory.risesFrom, Bool.and_eq_true, decide_eq_true_eq]
        exact ⟨hm.1, ih (by omega) hm.2⟩

/-- Writing a byte keeps the canonical form. -/
theorem Memory.wf_set {m : Memory} (a : Nat) (v : Byte) (hm : Memory.wf m = true) :
    Memory.wf (Memory.set m a v) = true := Memory.risesFrom_set v (Nat.zero_le a) hm

/-- Writing bytes keeps the canonical form. -/
theorem Memory.wf_write {m : Memory} (a : Nat) (B : List Byte) (hm : Memory.wf m = true) :
    Memory.wf (Memory.write m a B) = true := by
  induction B generalizing m a with
  | nil => exact hm
  | cons v B ih => exact ih _ (Memory.wf_set a v hm)

/-- Applying a write list keeps the canonical form. -/
theorem Memory.wf_applyWrites {m : Memory} (ws : List (Nat × List Byte)) (hm : Memory.wf m = true) :
    Memory.wf (Memory.applyWrites m ws) = true := by
  induction ws generalizing m with
  | nil => exact hm
  | cons w ws ih => exact ih (Memory.wf_write _ _ hm)

theorem Memory.get?_of_lt {lo a : Nat} {m : Memory} (hm : Memory.risesFrom lo m = true) (h : a < lo) :
    Memory.get? m a = none := by
  induction m generalizing lo with
  | nil => rfl
  | cons c m ih =>
    obtain ⟨a', b'⟩ := c
    simp only [Memory.risesFrom, Bool.and_eq_true, decide_eq_true_eq] at hm
    rw [Memory.get?, if_neg (by omega)]
    exact ih hm.2 (by omega)

/-- Equal memories are equal data. -/
theorem Memory.ext_of_risesFrom {lo : Nat} {m m' : Memory} (hm : Memory.risesFrom lo m = true)
    (hm' : Memory.risesFrom lo m' = true) (h : ∀ a, Memory.get? m a = Memory.get? m' a) : m = m' := by
  induction m generalizing lo m' with
  | nil =>
    cases m' with
    | nil => rfl
    | cons c m' =>
      have := h c.1
      simp [Memory.get?] at this
  | cons c m ih =>
    obtain ⟨a, b⟩ := c
    cases m' with
    | nil =>
      have := h a
      simp [Memory.get?] at this
    | cons c' m' =>
      obtain ⟨a', b'⟩ := c'
      simp only [Memory.risesFrom, Bool.and_eq_true, decide_eq_true_eq] at hm hm'
      have e : a = a' := by
        rcases Nat.lt_trichotomy a a' with hlt | he | hgt
        · have := h a
          rw [Memory.get?, if_pos rfl, Memory.get?, if_neg (by omega),
            Memory.get?_of_lt hm'.2 (by omega)] at this
          exact absurd this (by simp)
        · exact he
        · have := h a'
          rw [Memory.get?, if_neg (by omega), Memory.get?_of_lt hm.2 (by omega), Memory.get?,
            if_pos rfl] at this
          exact absurd this (by simp)
      subst e
      have hb := h a
      rw [Memory.get?, if_pos rfl, Memory.get?, if_pos rfl] at hb
      obtain rfl : b = b' := by simpa using hb
      rw [ih hm.2 hm'.2 fun d => ?_]
      by_cases hd : a = d
      · rw [Memory.get?_of_lt hm.2 (by omega), Memory.get?_of_lt hm'.2 (by omega)]
      · have := h d
        rwa [Memory.get?, if_neg hd, Memory.get?, if_neg hd] at this

theorem Memory.ext_of_wf {m m' : Memory} (hm : Memory.wf m = true) (hm' : Memory.wf m' = true)
    (h : ∀ a, Memory.get? m a = Memory.get? m' a) : m = m' := Memory.ext_of_risesFrom hm hm' h

/-! ## The bound on written addresses -/

theorem Memory.below_set {n a : Nat} {m : Memory} (v : Byte) (ha : a < n)
    (hm : Memory.below n m = true) : Memory.below n (Memory.set m a v) = true := by
  induction m with
  | nil => simpa [Memory.set, Memory.below] using ha
  | cons c m ih =>
    obtain ⟨a', b'⟩ := c
    simp only [Memory.below, List.all_cons, Bool.and_eq_true, decide_eq_true_eq] at hm ih ⊢
    simp only [Memory.set]
    split
    · simp only [List.all_cons, Bool.and_eq_true, decide_eq_true_eq]
      exact ⟨ha, hm.1, hm.2⟩
    · split
      · simp only [List.all_cons, Bool.and_eq_true, decide_eq_true_eq]
        exact ⟨ha, hm.2⟩
      · simp only [List.all_cons, Bool.and_eq_true, decide_eq_true_eq]
        exact ⟨hm.1, ih hm.2⟩

theorem Memory.below_write {n a : Nat} {m : Memory} (B : List Byte) (ha : a + B.length ≤ n)
    (hm : Memory.below n m = true) : Memory.below n (Memory.write m a B) = true := by
  induction B generalizing m a with
  | nil => exact hm
  | cons v B ih =>
    simp only [List.length_cons] at ha
    exact ih (by omega) (Memory.below_set v (by omega) hm)

theorem Memory.below_applyWrites {n : Nat} {m : Memory} (ws : List (Nat × List Byte))
    (hw : ∀ w ∈ ws, w.1 + w.2.length ≤ n) (hm : Memory.below n m = true) :
    Memory.below n (Memory.applyWrites m ws) = true := by
  induction ws generalizing m with
  | nil => exact hm
  | cons w ws ih =>
    exact ih (fun w' hw' => hw w' (by simp [hw'])) (Memory.below_write w.2 (hw w (by simp)) hm)

/-! ## Bytes of DMEM -/

theorem byteAt_of_get? {s : State} {a : Nat} {b : Byte} (h : Memory.get? s.mem a = some b) :
    byteAt s a = b := by simp [byteAt, h]

/-- A byte depends on the listing and the number of power-on resets only. -/
theorem byteAt_congr {s t : State} {a : Nat} (hm : Memory.get? t.mem a = Memory.get? s.mem a)
    (hp : t.powerOns = s.powerOns) : byteAt t a = byteAt s a := by simp [byteAt, hm, hp]

/-- A command that stores one region: its bytes read back, every other byte is as before. -/
theorem byteAt_finish_one (i : Instr) (s : State) (e : Effect) (a : Nat) (B : List Byte)
    (he : e.writes = [(a, B)]) (b : Nat) :
    byteAt (finish i s e) b =
      if h : a ≤ b ∧ b < a + B.length then B[b - a]'(by omega) else byteAt s b := by
  have hg : Memory.get? (finish i s e).mem b =
      if a ≤ b ∧ b < a + B.length then B[b - a]? else Memory.get? s.mem b := by
    rw [finish_mem, he, Memory.applyWrites_one, Memory.get?_write]
  by_cases h : a ≤ b ∧ b < a + B.length
  · rw [dif_pos h]
    apply byteAt_of_get?
    rw [hg, if_pos h, List.getElem?_eq_getElem]
  · rw [dif_neg h]
    exact byteAt_congr (by rw [hg, if_neg h]) rfl

/-- A command that stores nothing changes no byte. -/
theorem byteAt_finish_nil (i : Instr) (s : State) (e : Effect) (he : e.writes = []) (b : Nat) :
    byteAt (finish i s e) b = byteAt s b :=
  byteAt_congr (by rw [finish_mem, he, Memory.applyWrites_nil]) rfl

/-- An error changes no byte (60_exceptions.md R306). -/
@[simp] theorem byteAt_raise (s : State) (r : Raise) (b : Nat) : byteAt (raise s r) b = byteAt s b := rfl

@[simp] theorem byteAt_erred (s : State) (code : Byte) (info b : Nat) :
    byteAt (erred s code info) b = byteAt s b := rfl

@[simp] theorem length_memRead (s : State) (a n : Nat) : (memRead s a n).length = n := by simp [memRead]

@[simp] theorem length_symReads (s : State) (a n : Nat) : (symReads s a n).length = n := by
  simp [symReads]

/-- Reading a region depends on its bytes only. -/
theorem memRead_congr {s t : State} {a b n : Nat}
    (h : ∀ k, k < n → byteAt t (b + k) = byteAt s (a + k)) : memRead t b n = memRead s a n := by
  simp only [memRead, List.map_inj_left, List.mem_range]
  exact h

/-- What is listed after a write list of equally long pieces laid one after the other. -/
theorem Memory.get?_applyWrites_stride (m : Memory) (dst L : Nat) (f : Nat → List Byte)
    (hf : ∀ j, (f j).length = L) (N b : Nat) :
    Memory.get? (Memory.applyWrites m ((List.range N).map fun j => (dst + j * L, f j))) b =
      if dst ≤ b ∧ b < dst + N * L then (f ((b - dst) / L))[(b - dst) % L]? else Memory.get? m b := by
  induction N with
  | zero => simp; try omega
  | succ N ih =>
    rw [List.range_succ, List.map_append, Memory.applyWrites, List.foldl_append]
    rw [show List.foldl (fun m w => Memory.write m w.1 w.2) m
        ((List.range N).map fun j => (dst + j * L, f j)) =
      Memory.applyWrites m ((List.range N).map fun j => (dst + j * L, f j)) from rfl]
    simp only [List.map_cons, List.map_nil, List.foldl_cons, List.foldl_nil]
    rw [Memory.get?_write, ih, hf, Nat.add_mul]
    by_cases h : dst + N * L ≤ b ∧ b < dst + N * L + L
    · rw [if_pos h, if_pos (by omega)]
      have e : b - dst = N * L + (b - (dst + N * L)) := by omega
      have hL : 0 < L := by omega
      generalize b - (dst + N * L) = q at *
      rw [e, Nat.mul_comm, Nat.mul_add_div hL, Nat.div_eq_of_lt (by omega), Nat.mul_add_mod,
        Nat.mod_eq_of_lt (by omega)]
      rfl
    · rw [if_neg h]
      by_cases h2 : dst ≤ b ∧ b < dst + N * L
      · rw [if_pos h2, if_pos (by omega)]
      · rw [if_neg h2, if_neg (by omega)]

/-- The region a command stored reads back as what it stored. -/
theorem memRead_finish {i : Instr} {s : State} {e : Effect} {a : Nat} {B : List Byte}
    (he : e.writes = [(a, B)]) : memRead (finish i s e) a B.length = B := by
  apply List.ext_getElem
  · simp
  · intro n h1 h2
    simp only [memRead, List.getElem_map, List.getElem_range]
    rw [byteAt_finish_one i s e a B he, dif_pos (by omega)]
    simp

/-- A byte of a region whose contents are known. -/
theorem byteAt_of_memRead {t : State} {a : Nat} {B : List Byte} (h : memRead t a B.length = B) (k : Nat)
    (hk : k < B.length) : byteAt t (a + k) = B.getD k 0 := by
  conv_rhs => rw [← h]
  simp [memRead, hk]

theorem symReads_getElem (s : State) (a n j : Nat) (h : j < n) :
    (symReads s a n)[j]'(by simpa using h) = symRead s a j := by simp [symReads]

/-- The randomness port after a completion: the draws are taken off the front. -/
theorem rngAnswer_finish (i : Instr) (s : State) (e : Effect) (k : Nat) :
    rngAnswer (finish i s e) k = rngAnswer s (e.draws + k) := by
  simp only [rngAnswer, finish_rngIn, finish_rngDraws, List.getElem?_drop, Nat.add_assoc]

end Sys2Proof.Machine
end

