-- ==== Sys2Proof/Laws/Bits.lean ====
section
/-!
SUPPORT. The laws of bit strings (00_scope.md R13, R14): lengths, single bits, and the inverses of the
conversions.
-/

namespace Sys2Proof.Machine

/-! ## `bits_w` and `val` -/

@[simp] theorem length_bitsOf (w v : Nat) : (bitsOf w v).length = w := by simp [bitsOf]

/-- `bits_w(v)[i] = v[w-1-i]` (00_scope.md R13). -/
theorem getElem?_bitsOf (w v i : Nat) (h : i < w) : (bitsOf w v)[i]? = some (v.testBit (w - 1 - i)) := by
  simp [bitsOf, h]

@[simp] theorem bitsOf_zero (v : Nat) : bitsOf 0 v = [] := rfl

/-- The first bit is the most significant one. -/
theorem bitsOf_succ (w v : Nat) : bitsOf (w + 1) v = v.testBit w :: bitsOf w v := by
  apply List.ext_getElem?
  intro i
  cases i with
  | zero => simp [bitsOf]
  | succ i =>
    rw [List.getElem?_cons_succ]
    by_cases h : i < w
    · rw [getElem?_bitsOf _ _ _ (by omega), getElem?_bitsOf _ _ _ h]
      congr 2
      omega
    · rw [List.getElem?_eq_none (by simp; omega), List.getElem?_eq_none (by simp; omega)]

theorem foldl_valOf (s : List Bool) (v : Nat) :
    s.foldl (fun v b => 2 * v + b.toNat) v = v * 2 ^ s.length + valOf s := by
  induction s generalizing v with
  | nil => simp [valOf]
  | cons b s ih =>
    rw [valOf, List.foldl_cons, List.foldl_cons, ih, ih (2 * 0 + b.toNat), List.length_cons,
      Nat.pow_succ]
    ring

@[simp] theorem valOf_nil : valOf [] = 0 := rfl

theorem valOf_cons (b : Bool) (s : List Bool) : valOf (b :: s) = b.toNat * 2 ^ s.length + valOf s := by
  rw [valOf, List.foldl_cons, foldl_valOf]
  simp

theorem valOf_lt (s : List Bool) : valOf s < 2 ^ s.length := by
  induction s with
  | nil => simp
  | cons b s ih =>
    rw [valOf_cons, List.length_cons, Nat.pow_succ]
    have : b.toNat ≤ 1 := Bool.toNat_le b
    nlinarith [Nat.mul_le_mul_right (2 ^ s.length) this]

/-- `val(bits_w(v)) = v` for `v < 2^w` (00_scope.md R13). -/
theorem valOf_bitsOf_mod (w v : Nat) : valOf (bitsOf w v) = v % 2 ^ w := by
  induction w with
  | zero => simp [Nat.mod_one]
  | succ w ih =>
    rw [bitsOf_succ, valOf_cons, length_bitsOf, ih, Nat.mod_pow_succ, Nat.toNat_testBit, Nat.mul_comm,
      Nat.add_comm]

theorem valOf_bitsOf {w v : Nat} (h : v < 2 ^ w) : valOf (bitsOf w v) = v := by
  rw [valOf_bitsOf_mod, Nat.mod_eq_of_lt h]

/-- `bits_w(val(s)) = s` for `|s| = w`. -/
theorem bitsOf_valOf (s : List Bool) : bitsOf s.length (valOf s) = s := by
  induction s with
  | nil => rfl
  | cons b s ih =>
    rw [List.length_cons, bitsOf_succ, valOf_cons]
    have hlt := valOf_lt s
    congr 1
    · rw [Nat.testBit_eq_decide_div_mod_eq, Nat.mul_comm,
        Nat.mul_add_div (Nat.two_pow_pos _), Nat.div_eq_of_lt hlt]
      cases b <;> simp
    · conv_rhs => rw [← ih]
      apply List.ext_getElem?
      intro i
      by_cases h : i < s.length
      · rw [getElem?_bitsOf _ _ _ h, getElem?_bitsOf _ _ _ h, Nat.mul_comm b.toNat,
          Nat.testBit_two_pow_mul_add _ hlt, if_pos (by omega)]
      · rw [List.getElem?_eq_none (by simp; omega), List.getElem?_eq_none (by simp; omega)]

/-! ## Pieces -/

@[simp] theorem length_pieces (w n : Nat) (s : List Bool) : (pieces w n s).length = n := by
  induction n generalizing s with
  | zero => rfl
  | succ n ih => simp [pieces, ih]

@[simp] theorem length_symbolsOf (w n : Nat) (s : List Bool) : (symbolsOf w n s).length = n := by
  simp [symbolsOf]

theorem getElem?_pieces (w n : Nat) (s : List Bool) (j : Nat) (h : j < n) :
    (pieces w n s)[j]? = some ((s.drop (w * j)).take w) := by
  induction n generalizing s j with
  | zero => omega
  | succ n ih =>
    cases j with
    | zero => simp [pieces]
    | succ j =>
      rw [pieces, List.getElem?_cons_succ, ih _ _ (by omega), List.drop_drop]
      congr 3
      ring

/-- Symbol `j` is `val(s[w·j .. w·j + w))`. -/
theorem getElem?_symbolsOf (w n : Nat) (s : List Bool) (j : Nat) (h : j < n) :
    (symbolsOf w n s)[j]? = some (valOf ((s.drop (w * j)).take w)) := by
  rw [symbolsOf, List.getElem?_map, getElem?_pieces _ _ _ _ h]
  rfl

theorem symbolsOf_lt (w n : Nat) (s : List Bool) : ∀ x ∈ symbolsOf w n s, x < 2 ^ w := by
  intro x hx
  simp only [symbolsOf, List.mem_map] at hx
  obtain ⟨p, hp, rfl⟩ := hx
  refine lt_of_lt_of_le (valOf_lt p) (Nat.pow_le_pow_right (by norm_num) ?_)
  induction n generalizing s with
  | zero => simp [pieces] at hp
  | succ n ih =>
    rw [pieces, List.mem_cons] at hp
    rcases hp with rfl | hp
    · simp
    · exact ih _ hp

/-- Cutting a bit string of `w·n` bits into symbols and joining them again gives it back. -/
theorem symbolsToBits_symbolsOf (w n : Nat) (s : List Bool) (h : s.length = w * n) :
    symbolsToBits w (symbolsOf w n s) = s := by
  induction n generalizing s with
  | zero =>
    have : s = [] := List.length_eq_zero_iff.mp (by omega)
    simp [this, symbolsOf, pieces, symbolsToBits]
  | succ n ih =>
    have hle : w ≤ s.length := by rw [h]; nlinarith
    have htake : (s.take w).length = w := by simp [hle]
    have hb := bitsOf_valOf (s.take w)
    rw [htake] at hb
    rw [symbolsOf, pieces, List.map_cons, symbolsToBits, List.flatMap_cons, hb]
    have := ih (s.drop w) (by rw [List.length_drop, h, Nat.mul_succ]; omega)
    rw [symbolsToBits, symbolsOf] at this
    rw [this, List.take_append_drop]

@[simp] theorem symbolsToBits_nil (w : Nat) : symbolsToBits w [] = [] := rfl

theorem symbolsToBits_cons (w x : Nat) (X : List Nat) :
    symbolsToBits w (x :: X) = bitsOf w x ++ symbolsToBits w X := by simp [symbolsToBits]

@[simp] theorem length_symbolsToBits (w : Nat) (X : List Nat) :
    (symbolsToBits w X).length = w * X.length := by
  induction X with
  | nil => simp
  | cons x X ih => rw [symbolsToBits_cons, List.length_append, ih, length_bitsOf, List.length_cons]; ring

/-- Joining symbols below `2^w` and cutting them again gives them back, whatever bits follow. -/
theorem symbolsOf_symbolsToBits_append (w : Nat) (X : List Nat) (s : List Bool)
    (h : ∀ x ∈ X, x < 2 ^ w) : symbolsOf w X.length (symbolsToBits w X ++ s) = X := by
  induction X with
  | nil => rfl
  | cons x X ih =>
    rw [symbolsToBits_cons, List.append_assoc, List.length_cons, symbolsOf, pieces, List.map_cons]
    rw [List.take_append_of_le_length (by simp), List.take_of_length_le (by simp),
      valOf_bitsOf (h x (by simp)), List.drop_append_of_le_length (by simp),
      List.drop_of_length_le (by simp), List.nil_append]
    have := ih fun y hy => h y (by simp [hy])
    rw [symbolsOf] at this
    rw [this]

/-! ## Bytes -/

@[simp] theorem bytesToBits_nil : bytesToBits [] = [] := rfl

theorem bytesToBits_cons (b : Byte) (B : List Byte) :
    bytesToBits (b :: B) = bitsOf 8 b.toNat ++ bytesToBits B := by simp [bytesToBits]

theorem bytesToBits_eq (B : List Byte) : bytesToBits B = symbolsToBits 8 (B.map BitVec.toNat) := by
  simp [bytesToBits, symbolsToBits, List.flatMap_map]

@[simp] theorem length_bytesToBits (B : List Byte) : (bytesToBits B).length = 8 * B.length := by
  rw [bytesToBits_eq]; simp

@[simp] theorem length_zeroBits (k : Nat) : (zeroBits k).length = k := by simp [zeroBits]

/-- The number of pad bits that `bits_to_bytes` appends makes the length whole. -/
theorem pad_whole (n : Nat) : (n + (8 - n % 8) % 8) / 8 = cdiv n 8 ∧
    n + (8 - n % 8) % 8 = 8 * cdiv n 8 := by
  simp only [cdiv]
  omega

@[simp] theorem length_bitsToBytes (s : List Bool) : (bitsToBytes s).length = cdiv s.length 8 := by
  simp [bitsToBytes, pad_whole]

theorem map_ofNat_toNat (X : List Nat) (h : ∀ x ∈ X, x < 2 ^ 8) :
    (X.map (BitVec.ofNat 8)).map BitVec.toNat = X := by
  rw [List.map_map]
  conv_rhs => rw [← List.map_id X]
  apply List.map_congr_left
  intro x hx
  simp only [Function.comp, BitVec.toNat_ofNat, id]
  exact Nat.mod_eq_of_lt (h x hx)

/-- The bits of `bits_to_bytes(s)` are `s` and its pad. -/
theorem bytesToBits_bitsToBytes (s : List Bool) :
    bytesToBits (bitsToBytes s) = s ++ zeroBits ((8 - s.length % 8) % 8) := by
  rw [bytesToBits_eq, bitsToBytes, map_ofNat_toNat _ (symbolsOf_lt 8 _ _)]
  apply symbolsToBits_symbolsOf
  rw [List.length_append, length_zeroBits, (pad_whole _).1]
  exact (pad_whole _).2

/-- `bits_to_bytes(bytes_to_bits(B)) = B`. -/
theorem bitsToBytes_bytesToBits (B : List Byte) : bitsToBytes (bytesToBits B) = B := by
  rw [bitsToBytes, length_bytesToBits]
  have h0 : (8 - 8 * B.length % 8) % 8 = 0 := by omega
  simp only [h0, zeroBits, List.replicate_zero, List.append_nil, length_bytesToBits]
  have h1 : 8 * B.length / 8 = (B.map BitVec.toNat).length := by simp
  rw [h1, bytesToBits_eq]
  have := symbolsOf_symbolsToBits_append 8 (B.map BitVec.toNat) [] (by
    intro x hx
    simp only [List.mem_map] at hx
    obtain ⟨b, -, rfl⟩ := hx
    exact b.isLt)
  rw [List.append_nil] at this
  rw [this, List.map_map]
  conv_rhs => rw [← List.map_id B]
  apply List.map_congr_left
  intro b _
  simp

/-! ## Symbol arrays -/

@[simp] theorem symbolArrayBytes_nil : symbolArrayBytes [] = [] := rfl

theorem symbolArrayBytes_cons (x : Nat) (X : List Nat) :
    symbolArrayBytes (x :: X) =
      BitVec.ofNat 8 (x / 256) :: BitVec.ofNat 8 x :: symbolArrayBytes X := by
  simp [symbolArrayBytes, symbolBytes]

@[simp] theorem length_symbolArrayBytes (X : List Nat) : (symbolArrayBytes X).length = 2 * X.length := by
  induction X with
  | nil => rfl
  | cons x X ih => rw [symbolArrayBytes_cons, List.length_cons, List.length_cons, ih, List.length_cons]; ring

theorem getElem?_symbolArrayBytes_high (X : List Nat) (j : Nat) :
    (symbolArrayBytes X)[2 * j]? = X[j]?.map fun x => BitVec.ofNat 8 (x / 256) := by
  induction X generalizing j with
  | nil => simp
  | cons x X ih =>
    cases j with
    | zero => simp [symbolArrayBytes_cons]
    | succ j =>
      rw [symbolArrayBytes_cons, show 2 * (j + 1) = 2 * j + 1 + 1 by ring, List.getElem?_cons_succ,
        List.getElem?_cons_succ, List.getElem?_cons_succ, ih]

theorem getElem?_symbolArrayBytes_low (X : List Nat) (j : Nat) :
    (symbolArrayBytes X)[2 * j + 1]? = X[j]?.map fun x => BitVec.ofNat 8 x := by
  induction X generalizing j with
  | nil => simp
  | cons x X ih =>
    cases j with
    | zero => simp [symbolArrayBytes_cons]
    | succ j =>
      rw [symbolArrayBytes_cons, show 2 * (j + 1) + 1 = 2 * j + 1 + 1 + 1 by ring,
        List.getElem?_cons_succ, List.getElem?_cons_succ, List.getElem?_cons_succ, ih]

/-- The symbols of a stored symbol array read back. -/
theorem symRead_of_memRead {t : State} {a : Nat} {X : List Nat}
    (h : memRead t a (symbolArrayBytes X).length = symbolArrayBytes X) (hX : ∀ x ∈ X, x < 65536) (j : Nat)
    (hj : j < X.length) : symRead t a j = X[j] := by
  have hl : (symbolArrayBytes X).length = 2 * X.length := length_symbolArrayBytes X
  simp only [symRead, Nat.add_assoc]
  rw [byteAt_of_memRead h (2 * j) (by omega), byteAt_of_memRead h (2 * j + 1) (by omega),
    List.getD_eq_getElem?_getD, List.getD_eq_getElem?_getD, getElem?_symbolArrayBytes_high,
    getElem?_symbolArrayBytes_low]
  have := hX X[j] (List.getElem_mem ..)
  simp [hj]
  omega

/-! ## Single bits -/

/-- Bit `p` of joined symbols is bit `p mod w`, most significant first, of symbol `p / w`. -/
theorem getElem?_symbolsToBits (w : Nat) (X : List Nat) (p : Nat) (h : p < w * X.length) :
    (symbolsToBits w X)[p]? = some ((X.getD (p / w) 0).testBit (w - 1 - p % w)) := by
  induction X generalizing p with
  | nil => simp at h
  | cons x X ih =>
    have hw : 0 < w := by
      rcases Nat.eq_zero_or_pos w with rfl | h'
      · simp at h
      · exact h'
    rw [symbolsToBits_cons]
    by_cases hp : p < w
    · rw [List.getElem?_append_left (by simpa using hp), getElem?_bitsOf _ _ _ hp, Nat.div_eq_of_lt hp,
        Nat.mod_eq_of_lt hp]
      rfl
    · rw [List.getElem?_append_right (by simpa using hp), length_bitsOf,
        ih (p - w) (by rw [List.length_cons, Nat.mul_succ] at h; omega)]
      have h1 : p / w = (p - w) / w + 1 := by
        rw [← Nat.add_div_right _ hw]; congr 1; omega
      have h2 : p % w = (p - w) % w := by
        conv_lhs => rw [show p = p - w + w by omega]
        exact Nat.add_mod_right ..
      rw [h1, h2]
      simp

/-- Bit `p` of a byte sequence (00_scope.md R14). -/
theorem getElem?_bytesToBits (B : List Byte) (p : Nat) (h : p < 8 * B.length) :
    (bytesToBits B)[p]? = some ((B.getD (p / 8) 0).getLsbD (7 - p % 8)) := by
  rw [bytesToBits_eq, getElem?_symbolsToBits _ _ _ (by simpa using h)]
  simp only [List.getD_eq_getElem?_getD, List.getElem?_map, BitVec.getLsbD, Option.some.injEq]
  cases B[p / 8]? <;> simp

/-- Bit `q`, first to last, of the value of a bit string. -/
theorem testBit_valOf (s : List Bool) (q : Nat) (h : q < s.length) :
    (valOf s).testBit (s.length - 1 - q) = s.getD q false := by
  have := getElem?_bitsOf s.length (valOf s) q h
  rw [bitsOf_valOf] at this
  rw [List.getD_eq_getElem?_getD, this]
  rfl

/-- Symbols of two bit strings one after the other. -/
theorem symbolsOf_append (w n k : Nat) (s u : List Bool) (h : s.length = w * n) :
    symbolsOf w (n + k) (s ++ u) = symbolsOf w n s ++ symbolsOf w k u := by
  induction n generalizing s with
  | zero =>
    have : s = [] := List.length_eq_zero_iff.mp (by omega)
    subst this
    simp [symbolsOf, pieces]
  | succ n ih =>
    have hw : w ≤ s.length := by rw [h, Nat.mul_succ]; omega
    rw [show n + 1 + k = (n + k) + 1 by omega, symbolsOf, symbolsOf, pieces, pieces, List.map_cons,
      List.map_cons, List.take_append_of_le_length hw, List.drop_append_of_le_length hw]
    have := ih (s.drop w) (by rw [List.length_drop, h, Nat.mul_succ]; omega)
    rw [symbolsOf, symbolsOf] at this
    rw [this]
    rfl

end Sys2Proof.Machine
end

