-- ==== Sys2Proof/Laws/PerInstr.lean ====
section
/-!
SUPPORT. Statements about every instruction as syntax, one lemma per constructor.
-/

namespace Sys2Proof.Laws.Encoding

/-- The word of a command is well formed, its value is its OPCODE, and the table's own numbering of it,
at 8 bits, is read as the command (30_encoding.md R100, R102, R110). -/
def Statement (i : Instr) : Prop :=
  i.wellFormed = true ∧ CommandWord.wellFormed (encode i) = true ∧
    (encode i).toNat = (opcodeOf i).toNat ∧ decodeTableWord 8 (opcodeOf i).toNat = some i

theorem gfAdd : Statement .gfAdd := by unfold Statement; decide
theorem gfSub : Statement .gfSub := by unfold Statement; decide
theorem gfMul : Statement .gfMul := by unfold Statement; decide
theorem gfDiv : Statement .gfDiv := by unfold Statement; decide
theorem sssSplit : Statement .sssSplit := by unfold Statement; decide
theorem sssRecon : Statement .sssRecon := by unfold Statement; decide
theorem bpPack : Statement .bpPack := by unfold Statement; decide
theorem bpUnpack : Statement .bpUnpack := by unfold Statement; decide
theorem sfFrame : Statement .sfFrame := by unfold Statement; decide
theorem sfUnframe : Statement .sfUnframe := by unfold Statement; decide
theorem ckB39Enc : Statement .ckB39Enc := by unfold Statement; decide
theorem ckB39Dec : Statement .ckB39Dec := by unfold Statement; decide
theorem kdfSlip : Statement .kdfSlip := by unfold Statement; decide
theorem kdfBip : Statement .kdfBip := by unfold Statement; decide
theorem accReset : Statement .accReset := by unfold Statement; decide
theorem accAdd : Statement .accAdd := by unfold Statement; decide
theorem accMerge : Statement .accMerge := by unfold Statement; decide

end Sys2Proof.Laws.Encoding
end

