-- ==== Sys2Proof/Laws/Rules.lean ====
section
/-!
SUPPORT. What the rule of a command can do, said once: every command completes through `settle`, what its
effect may write, what it may raise. Later proofs cite these lemmas instead of unfolding the rules.
-/

namespace Sys2Proof.Machine

/-- The rule of each command: the body of its meaning before completion. -/
def ruleOf (i : Instr) (s : State) : Except Raise Effect :=
  match i with
  | .gfAdd => ruleGfAdd s
  | .gfSub => ruleGfSub s
  | .gfMul => ruleGfMul s
  | .gfDiv => ruleGfDiv s
  | .sssSplit => ruleSssSplit s
  | .sssRecon => ruleSssRecon s
  | .bpPack => ruleBpPack s
  | .bpUnpack => ruleBpUnpack s
  | .sfFrame => ruleSfFrame s
  | .sfUnframe => ruleSfUnframe s
  | .ckB39Enc => ruleCkB39Enc s
  | .ckB39Dec => ruleCkB39Dec s
  | .kdfSlip => ruleKdfSlip s
  | .kdfBip => ruleKdfBip s
  | .accReset => ruleAccReset s
  | .accAdd => ruleAccAdd s
  | .accMerge => ruleAccMerge s

/-- Every command answers a next state: the one its rule settles in (60_exceptions.md R300). -/
theorem exec_eq_settle (i : Instr) (s : State) : exec i s = .next (settle i s (ruleOf i s)) := by
  cases i <;> rfl

/-- What `exec` answers, by whether the rule raised. -/
theorem exec_cases (i : Instr) (s : State) :
    (∃ e, ruleOf i s = .ok e ∧ exec i s = .next (finish i s e)) ∨
    (∃ r, ruleOf i s = .error r ∧ exec i s = .next (raise s r)) := by
  rw [exec_eq_settle]
  cases h : ruleOf i s with
  | ok e => exact .inl ⟨e, rfl, rfl⟩
  | error r => exact .inr ⟨r, rfl, rfl⟩

/-! ## Lengths of what the rules write -/

@[simp] theorem length_splitCoeffs (s : State) (src L T : Nat) : (splitCoeffs s src L T).length = L := by
  simp [splitCoeffs]

@[simp] theorem length_shareBytes (c : List (List Byte)) (x : Nat) :
    (shareBytes c x).length = c.length := by simp [shareBytes]

@[simp] theorem length_reconBytes (s : State) (X : List Byte) (ya L : Nat) :
    (reconBytes s X ya L).length = L := by simp [reconBytes]

@[simp] theorem length_packSymbols (w : Nat) (X : List Nat) :
    (packSymbols w X).length = cdiv (X.length * w) 8 := by simp [packSymbols, Nat.mul_comm]

@[simp] theorem length_unpackBytes (w : Nat) (B : List Byte) :
    (unpackBytes w B).length = cdiv (8 * B.length) w := by simp [unpackBytes]

@[simp] theorem length_frameSyms (idx thr : Nat) (P : List Byte) :
    (frameSyms idx thr P).length = frameSymbols P.length := by simp [frameSyms]

@[simp] theorem length_b39Symbols (h : List Byte → List Byte) (E : List Byte) :
    (b39Symbols h E).length = 3 * E.length / 4 := by simp [b39Symbols]

@[simp] theorem length_xorBytes (A B : List Byte) : (xorBytes A B).length = min A.length B.length := by
  simp [xorBytes]

theorem length_pbkdf2Loop {prf : List Byte → List Byte → List Byte} {n : Nat}
    (hp : ∀ K M, (prf K M).length = n) (P : List Byte) (c : Nat) (U T : List Byte)
    (hT : T.length = n) : (pbkdf2Loop prf P c U T).length = n := by
  induction c generalizing U T with
  | zero => exact hT
  | succ c ih => exact ih _ _ (by simp [hT, hp])

theorem length_pbkdf2 {prf : List Byte → List Byte → List Byte} {n : Nat}
    (hp : ∀ K M, (prf K M).length = n) (P S : List Byte) (c : Nat) : (pbkdf2 prf P S c).length = n :=
  length_pbkdf2Loop hp P _ _ _ (hp _ _)

/-- `Linf(W)` names a length whose frame has exactly `W` symbols (43_framing.md R197). -/
theorem payloadLen?_some {W L : Nat} (h : payloadLen? W = some L) :
    frameSymbols L = W ∧ 2 ≤ L ∧ L % 2 = 0 ∧ 8 * L + 42 ≤ 10 * W ∧ 10 * W < 8 * L + 52 := by
  simp only [payloadLen?] at h
  split at h
  · exact absurd h (by simp)
  · split at h
    · obtain rfl := Option.some.inj h
      simp only [frameSymbols, cdiv, Params.shareOverheadBits] at *
      omega
    · exact absurd h (by simp)

/-- A parsed frame carries an index and a threshold in 1..32 and a payload of the length given
(43_framing.md R191, R198). -/
theorem parseFrame_ok {L : Nat} {syms : List Nat} {p : Parsed} (h : parseFrame L syms = .ok p)
    (hl : 8 * L + 42 ≤ 10 * syms.length) :
    1 ≤ p.idx ∧ p.idx ≤ 32 ∧ 1 ≤ p.thr ∧ p.thr ≤ 32 ∧ p.payload.length = L := by
  simp only [parseFrame] at h
  split at h
  · exact absurd h (by simp)
  · split at h
    · exact absurd h (by simp)
    · split at h
      · exact absurd h (by simp)
      · obtain rfl := Except.ok.inj h
        have h1 := valOf_lt ((symbolsToBits 10 syms).take 5)
        have h2 := valOf_lt (((symbolsToBits 10 syms).drop 5).take 5)
        rw [List.length_take, length_symbolsToBits, min_eq_left (by omega)] at h1
        rw [List.length_take, List.length_drop, length_symbolsToBits, min_eq_left (by omega)] at h2
        refine ⟨by simp, by simp only; omega, by simp, by simp only; omega, ?_⟩
        simp only [length_bitsToBytes, List.length_take, List.length_drop, length_symbolsToBits, cdiv]
        omega

/-! ## What an effect may write -/

theorem valid_iff (s : State) (a n : Nat) : valid s a n = true ↔ a + n ≤ s.dmemBytes := by simp [valid]

/-- Every region a command writes passed the region check (20_memory.md R74). -/
theorem rule_writes_inside {i : Instr} {s : State} {e : Effect} (h : ruleOf i s = .ok e) :
    ∀ w ∈ e.writes, w.1 + w.2.length ≤ s.dmemBytes := by
  cases i <;> simp only [ruleOf] at h
  case gfAdd => obtain rfl := Except.ok.inj h; simp [fieldResult]
  case gfSub => obtain rfl := Except.ok.inj h; simp [fieldResult]
  case gfMul => obtain rfl := Except.ok.inj h; simp [fieldResult]
  case gfDiv =>
    simp only [ruleGfDiv] at h
    split at h
    · exact absurd h (by simp)
    · obtain rfl := Except.ok.inj h; simp [fieldResult]
  case sssSplit =>
    simp only [ruleSssSplit] at h
    split at h; · exact absurd h (by simp)
    split at h; · exact absurd h (by simp)
    split at h; · exact absurd h (by simp)
    split at h; · exact absurd h (by simp)
    rename_i hv
    simp only [Bool.not_eq_true, Bool.not_eq_false', valid_iff] at hv
    obtain rfl := Except.ok.inj h
    intro w hw
    simp only [splitWrites, List.mem_map, List.mem_range] at hw
    obtain ⟨j, hj, rfl⟩ := hw
    simp only [length_shareBytes, length_splitCoeffs]
    have := Nat.mul_le_mul_right (argNat s 1) hj
    rw [Nat.succ_mul] at this
    omega
  case sssRecon =>
    simp only [ruleSssRecon] at h
    split at h; · exact absurd h (by simp)
    split at h; · exact absurd h (by simp)
    split at h; · exact absurd h (by simp)
    split at h; · exact absurd h (by simp)
    split at h; · exact absurd h (by simp)
    rename_i hv
    simp only [Bool.not_eq_true, Bool.not_eq_false', valid_iff] at hv
    split at h; · exact absurd h (by simp)
    split at h; · exact absurd h (by simp)
    obtain rfl := Except.ok.inj h
    simpa using hv
  case bpPack =>
    simp only [ruleBpPack] at h
    split at h; · exact absurd h (by simp)
    split at h; · exact absurd h (by simp)
    split at h; · exact absurd h (by simp)
    rename_i hv
    simp only [Bool.not_eq_true, Bool.not_eq_false', valid_iff] at hv
    split at h; · exact absurd h (by simp)
    obtain rfl := Except.ok.inj h
    simpa using hv
  case bpUnpack =>
    simp only [ruleBpUnpack] at h
    split at h; · exact absurd h (by simp)
    split at h; · exact absurd h (by simp)
    split at h; · exact absurd h (by simp)
    rename_i hv
    simp only [Bool.not_eq_true, Bool.not_eq_false', valid_iff] at hv
    obtain rfl := Except.ok.inj h
    simpa using hv
  case sfFrame =>
    simp only [ruleSfFrame] at h
    split at h; · exact absurd h (by simp)
    split at h; · exact absurd h (by simp)
    split at h; · exact absurd h (by simp)
    split at h; · exact absurd h (by simp)
    split at h; · exact absurd h (by simp)
    rename_i hv
    simp only [Bool.not_eq_true, Bool.not_eq_false', valid_iff] at hv
    obtain rfl := Except.ok.inj h
    simpa using hv
  case sfUnframe =>
    simp only [ruleSfUnframe] at h
    split at h; · exact absurd h (by simp)
    rename_i L hL
    split at h; · exact absurd h (by simp)
    split at h; · exact absurd h (by simp)
    rename_i hv
    simp only [Bool.not_eq_true, Bool.not_eq_false', valid_iff] at hv
    split at h; · exact absurd h (by simp)
    rename_i p hp
    obtain rfl := Except.ok.inj h
    have := (parseFrame_ok hp (by simpa using (payloadLen?_some hL).2.2.2.1)).2.2.2.2
    simpa [this] using hv
  case ckB39Enc =>
    simp only [ruleCkB39Enc] at h
    split at h; · exact absurd h (by simp)
    split at h; · exact absurd h (by simp)
    split at h; · exact absurd h (by simp)
    rename_i hv
    simp only [Bool.not_eq_true, Bool.not_eq_false', valid_iff] at hv
    obtain rfl := Except.ok.inj h
    simpa using hv
  case ckB39Dec =>
    simp only [ruleCkB39Dec] at h
    split at h; · exact absurd h (by simp)
    rename_i hW
    split at h; · exact absurd h (by simp)
    split at h; · exact absurd h (by simp)
    rename_i hv
    simp only [Bool.not_eq_true, Bool.not_eq_false', valid_iff] at hv
    split at h; · exact absurd h (by simp)
    rename_i E hE
    obtain rfl := Except.ok.inj h
    simp only [b39Entropy] at hE
    split at hE; · exact absurd hE (by simp)
    split at hE; · exact absurd hE (by simp)
    obtain rfl := Except.ok.inj hE
    simp only [List.mem_singleton, forall_eq, length_bitsToBytes, List.length_take,
      length_symbolsToBits, length_symReads, cdiv] at hv ⊢
    omega
  case kdfSlip =>
    simp only [ruleKdfSlip, deriveKey] at h
    split at h; · exact absurd h (by simp)
    split at h; · exact absurd h (by simp)
    split at h; · exact absurd h (by simp)
    rename_i hv
    simp only [Bool.not_eq_true, Bool.not_eq_false', valid_iff] at hv
    obtain rfl := Except.ok.inj h
    simp only [List.mem_singleton, forall_eq]
    rw [length_pbkdf2 (n := 32) fun K M => by simp [hmacSha256Bytes]]
    exact hv
  case kdfBip =>
    simp only [ruleKdfBip, deriveKey] at h
    split at h; · exact absurd h (by simp)
    split at h; · exact absurd h (by simp)
    split at h; · exact absurd h (by simp)
    rename_i hv
    simp only [Bool.not_eq_true, Bool.not_eq_false', valid_iff] at hv
    obtain rfl := Except.ok.inj h
    simp only [List.mem_singleton, forall_eq]
    rw [length_pbkdf2 (n := 64) fun K M => by simp [hmacSha512Bytes]]
    exact hv
  case accReset => obtain rfl := Except.ok.inj h; simp
  case accAdd =>
    simp only [ruleAccAdd] at h
    split at h; · exact absurd h (by simp)
    split at h; · exact absurd h (by simp)
    rename_i L hL
    split at h; · exact absurd h (by simp)
    split at h; · exact absurd h (by simp)
    rename_i p hp
    split at h; · exact absurd h (by simp)
    split at h; · exact absurd h (by simp)
    rename_i hv
    simp only [Bool.not_eq_true, Bool.not_eq_false', valid_iff] at hv
    obtain rfl := Except.ok.inj h
    have := (parseFrame_ok hp (by simpa using (payloadLen?_some hL).2.2.2.1)).2.2.2.2
    simpa [this] using hv
  case accMerge =>
    simp only [ruleAccMerge] at h
    split at h; · exact absurd h (by simp)
    split at h; · exact absurd h (by simp)
    rename_i hv
    simp only [Bool.not_eq_true, Bool.not_eq_false', valid_iff] at hv
    obtain rfl := Except.ok.inj h
    simpa using hv

/-! ## Completion by the rule's answer -/

theorem exec_of_ok {i : Instr} {s : State} {e : Effect} (h : ruleOf i s = .ok e) :
    exec i s = .next (finish i s e) := by rw [exec_eq_settle, h]; rfl

theorem exec_of_error {i : Instr} {s : State} {r : Raise} (h : ruleOf i s = .error r) :
    exec i s = .next (raise s r) := by rw [exec_eq_settle, h]; rfl

/-- Every completion without error is one in the sense of 60_exceptions.md R305. -/
theorem completedOk_finish (i : Instr) (s : State) (e : Effect) : CompletedOk s (finish i s e) :=
  ⟨rfl, rfl, rfl, rfl, rfl, ⟨rfl, rfl, rfl, rfl, rfl, rfl, rfl, rfl, rfl, rfl⟩⟩

/-- An effect of registers only. -/
theorem registersOnly_finish {i : Instr} {s : State} {e : Effect} (he : e.writes = [])
    (ha : e.acc = none) (hd : e.draws = 0) : RegistersOnly s (finish i s e) :=
  ⟨completedOk_finish _ _ _, byteAt_finish_nil _ _ _ he, by simp [ha], by simp [hd], by simp [hd]⟩

/-- An effect of registers and one region. -/
theorem storesOnly_finish {i : Instr} {s : State} {e : Effect} {a : Nat} {B : List Byte}
    (he : e.writes = [(a, B)]) (ha : e.acc = none) (hd : e.draws = 0) :
    StoresOnly s (finish i s e) a B.length := by
  refine ⟨completedOk_finish _ _ _, fun b hb => ?_, by simp [ha], by simp [hd], by simp [hd]⟩
  rw [byteAt_finish_one i s e a B he, dif_neg (by omega)]

/-- A result that fits its register is stored as it is. -/
theorem toResult_of_lt (i : Instr) {v : Nat} (h : v < 2 ^ 32) : toResult i v = BitVec.ofNat 32 v := by
  simp only [toResult, if_pos h]

/-! ## The checks -/

theorem badLength_iff (L : Nat) : badLength L = true ↔ L = 0 ∨ L % 2 = 1 := by simp [badLength]

theorem firstOutOfRange_none {b : Nat} (X : List Nat) (k : Nat) :
    firstOutOfRange b k X = none ↔ ∀ x ∈ X, x < b := by
  induction X generalizing k with
  | nil => simp [firstOutOfRange]
  | cons x X ih =>
    simp only [firstOutOfRange]
    split <;> simp [ih] <;> omega

theorem firstOutOfRange_some {b : Nat} (X : List Nat) (k j : Nat) (hj : j < X.length) (h1 : b ≤ X[j])
    (h2 : ∀ m (h : m < j), X[m] < b) : firstOutOfRange b k X = some (k + j) := by
  induction X generalizing k j with
  | nil => simp at hj
  | cons x X ih =>
    simp only [firstOutOfRange]
    cases j with
    | zero =>
      simp at h1
      rw [if_pos h1]
      rfl
    | succ j =>
      have := h2 0 (by omega)
      simp at this
      rw [if_neg (by omega), ih (k + 1) j (by simpa using hj) (by simpa using h1) fun m h => by
        simpa using h2 (m + 1) (by omega)]
      congr 1
      omega

theorem firstRepeat_none (X seen : List Byte) :
    firstRepeat seen X = none ↔ X.Nodup ∧ ∀ x ∈ X, x ∉ seen := by
  induction X generalizing seen with
  | nil => simp [firstRepeat]
  | cons x X ih =>
    simp only [firstRepeat]
    split
    · rename_i h
      simp [h]
    · rename_i h
      rw [ih]
      simp only [List.nodup_cons, List.mem_cons, not_or]
      constructor
      · rintro ⟨a, b⟩
        refine ⟨⟨fun hx => (b x hx).1 rfl, a⟩, ?_⟩
        rintro y (rfl | hy)
        · exact h
        · exact (b y hy).2
      · rintro ⟨⟨a, b⟩, c⟩
        exact ⟨b, fun y hy => ⟨by rintro rfl; exact a hy, c y (.inr hy)⟩⟩

/-- What a rule may raise: never UnknownWord or IllegalCommand, and DivisionByZero only in GF_DIV
(60_exceptions.md R301 to R303). -/
theorem rule_raises {i : Instr} {s : State} {r : Raise} (h : ruleOf i s = .error r) :
    r.name ≠ .unknownWord ∧ r.name ≠ .illegalCommand ∧
      (r.name = .divisionByZero → i = .gfDiv ∧ argByte s 1 = 0) := by
  have hp : ∀ {L syms r}, parseFrame L syms = .error r →
      r.name = .symbolOutOfRange ∨ r.name = .malformedShare := by
    intro L syms r h
    simp only [parseFrame] at h
    split at h; · cases h; simp
    split at h; · cases h; simp
    split at h <;> cases h; simp
  have hs : ∀ {a L p r}, sessionCheck a L p = some r →
      r.name = .thresholdMismatch ∨ r.name = .malformedShare ∨ r.name = .duplicateShareIndex := by
    intro a L p r h
    simp only [sessionCheck] at h
    repeat' split at h
    all_goals cases h <;> simp
  cases i <;> simp only [ruleOf] at h
  case gfAdd | gfSub | gfMul | accReset => cases h
  case gfDiv =>
    simp only [ruleGfDiv] at h
    split at h <;> cases h
    rename_i h
    exact ⟨by simp, by simp, fun _ => ⟨rfl, h⟩⟩
  case sssSplit => simp only [ruleSssSplit] at h; repeat' split at h
                   all_goals cases h <;> simp
  case sssRecon => simp only [ruleSssRecon] at h; repeat' split at h
                   all_goals cases h <;> simp
  case bpPack => simp only [ruleBpPack] at h; repeat' split at h
                 all_goals cases h <;> simp
  case bpUnpack => simp only [ruleBpUnpack] at h; repeat' split at h
                   all_goals cases h <;> simp
  case sfFrame => simp only [ruleSfFrame] at h; repeat' split at h
                  all_goals cases h <;> simp
  case sfUnframe =>
    simp only [ruleSfUnframe] at h
    split at h; · cases h; simp
    split at h; · cases h; simp
    split at h; · cases h; simp
    split at h <;> cases h
    rename_i hh
    rcases hp hh with h | h <;> simp [h]
  case ckB39Enc => simp only [ruleCkB39Enc] at h; repeat' split at h
                   all_goals cases h <;> simp
  case ckB39Dec =>
    simp only [ruleCkB39Dec, b39Entropy] at h
    repeat' split at h
    all_goals cases h
    all_goals first
      | (simp; done)
      | (rename_i hh; split at hh <;> [skip; split at hh] <;> cases hh <;> simp)
  case kdfSlip => simp only [ruleKdfSlip, deriveKey] at h; repeat' split at h
                  all_goals cases h <;> simp
  case kdfBip => simp only [ruleKdfBip, deriveKey] at h; repeat' split at h
                 all_goals cases h <;> simp
  case accAdd =>
    simp only [ruleAccAdd] at h
    split at h; · cases h; simp
    split at h; · cases h; simp
    split at h; · cases h; simp
    split at h
    · rename_i hh; cases h; rcases hp hh with h | h <;> simp [h]
    split at h
    · rename_i hh; cases h; rcases hs hh with h | h | h <;> simp [h]
    split at h <;> cases h; simp
  case accMerge => simp only [ruleAccMerge] at h; repeat' split at h
                   all_goals cases h <;> simp

/-- What a rule may do to the accumulator: nothing, clear it (ACC_RESET), or accept a share that passed
every check (ACC_ADD). -/
theorem rule_acc {i : Instr} {s : State} {e : Effect} (h : ruleOf i s = .ok e) :
    e.acc = none ∨ (i = .accReset ∧ e.acc = some { Acc.reset with base := s.args[0] }) ∨
    (i = .accAdd ∧ ∃ L p, payloadLen? (argNat s 1) = some L ∧
      parseFrame L (symReads s (argNat s 0) (argNat s 1)) = .ok p ∧ s.acc.phase ≠ .ready ∧
      sessionCheck s.acc L p = none ∧ argNat s 0 + 2 * argNat s 1 ≤ s.dmemBytes ∧
      s.acc.base.toNat + s.acc.count.toNat * L + L ≤ s.dmemBytes ∧
      e.acc = some (accAccept s.acc L p)) := by
  cases i <;> simp only [ruleOf] at h
  case accAdd =>
    refine .inr (.inr ⟨rfl, ?_⟩)
    simp only [ruleAccAdd] at h
    split at h; · cases h
    split at h; · cases h
    split at h; · cases h
    split at h; · cases h
    split at h; · cases h
    split at h; · cases h
    cases h
    refine ⟨_, _, by assumption, by assumption, by assumption, by assumption, ?_, ?_, rfl⟩
    · rename_i hv _ _ _ _ _ _
      simpa [valid] using hv
    · rename_i hv
      simpa [valid] using hv
  case accReset =>
    cases h
    exact .inr (.inl ⟨rfl, rfl⟩)
  all_goals left
  case gfAdd | gfSub | gfMul => cases h; rfl
  case gfDiv => simp only [ruleGfDiv] at h; repeat' split at h
                all_goals cases h <;> rfl
  case sssSplit => simp only [ruleSssSplit] at h; repeat' split at h
                   all_goals cases h <;> rfl
  case sssRecon => simp only [ruleSssRecon] at h; repeat' split at h
                   all_goals cases h <;> rfl
  case bpPack => simp only [ruleBpPack] at h; repeat' split at h
                 all_goals cases h <;> rfl
  case bpUnpack => simp only [ruleBpUnpack] at h; repeat' split at h
                   all_goals cases h <;> rfl
  case sfFrame => simp only [ruleSfFrame] at h; repeat' split at h
                  all_goals cases h <;> rfl
  case sfUnframe => simp only [ruleSfUnframe] at h; repeat' split at h
                    all_goals cases h <;> rfl
  case ckB39Enc => simp only [ruleCkB39Enc] at h; repeat' split at h
                   all_goals cases h <;> rfl
  case ckB39Dec => simp only [ruleCkB39Dec] at h; repeat' split at h
                   all_goals cases h <;> rfl
  case kdfSlip => simp only [ruleKdfSlip, deriveKey] at h; repeat' split at h
                  all_goals cases h <;> rfl
  case kdfBip => simp only [ruleKdfBip, deriveKey] at h; repeat' split at h
                 all_goals cases h <;> rfl
  case accMerge => simp only [ruleAccMerge] at h; repeat' split at h
                   all_goals cases h <;> rfl

/-- A rule reads the operands, the memory size, the accumulator, the bytes of DMEM and the coming random
bytes, and nothing else. -/
theorem ruleOf_congr (i : Instr) {s s' : State} (ha : s'.args = s.args) (hd : s'.dmemBytes = s.dmemBytes)
    (hc : s'.acc = s.acc) (hm : ∀ a, byteAt s' a = byteAt s a)
    (hr : ∀ k, rngAnswer s' k = rngAnswer s k) : ruleOf i s' = ruleOf i s := by
  have h1 : ∀ i, argNat s' i = argNat s i := fun i => by simp [argNat, ha]
  have h2 : ∀ i, argByte s' i = argByte s i := fun i => by simp [argByte, ha]
  have h3 : ∀ a n, memRead s' a n = memRead s a n := fun a n => by simp [memRead, hm]
  have h4 : ∀ a n, symReads s' a n = symReads s a n := fun a n => by
    simp only [symReads, symRead, hm, List.map_inj_left, implies_true]
  have h5 : ∀ a n, valid s' a n = valid s a n := fun a n => by simp [valid, hd]
  have h6 : ∀ a b c, splitCoeffs s' a b c = splitCoeffs s a b c := fun a b c => by
    simp [splitCoeffs, hm, hr]
  have h7 : ∀ a b c, reconBytes s' a b c = reconBytes s a b c := fun a b c => by simp [reconBytes, hm]
  cases i <;> simp only [ruleOf, ruleGfAdd, ruleGfSub, ruleGfMul, ruleGfDiv, ruleSssSplit, ruleSssRecon,
    ruleBpPack, ruleBpUnpack, ruleSfFrame, ruleSfUnframe, ruleCkB39Enc, ruleCkB39Dec, ruleKdfSlip,
    ruleKdfBip, deriveKey, ruleAccReset, ruleAccAdd, ruleAccMerge, h1, h2, h3, h4, h5, h6, h7, hc, ha]

end Sys2Proof.Machine
end

