-- ==== Sys2Proof/Laws/Step.lean ====
section
/-!
SUPPORT. What a step of the machine, of the host and of the sequencer can do, said once.
-/

namespace Sys2Proof.Machine

/-- Everything a step can do: power-on reset, a move of the host, or a completion. -/
theorem step_cases {s t : State} (h : step s = .next t) :
    (s.powerOnPin = true ∧ t = powerOnReset s) ∨
    (s.powerOnPin = false ∧ s.seq = .idle ∧ t = hostMove s) ∨
    (s.powerOnPin = false ∧ s.seq = .busy ∧ hostGoesFirst s = true ∧ t = hostMoveBusy s) ∨
    (s.powerOnPin = false ∧ s.seq = .busy ∧ hostGoesFirst s = false ∧ sequencerStep s = .next t) := by
  unfold step at h
  cases hp : s.powerOnPin <;> rw [hp] at h
  · cases hs : s.seq <;> rw [hs] at h
    · cases h
      exact .inr (.inl ⟨rfl, rfl, rfl⟩)
    · cases hf : hostGoesFirst s <;> simp only [hf] at h
      · exact .inr (.inr (.inr ⟨rfl, rfl, rfl, h⟩))
      · cases h
        exact .inr (.inr (.inl ⟨rfl, rfl, rfl, rfl⟩))
  · cases h
    exact .inl ⟨rfl, rfl⟩

/-- Everything a completion step can do. -/
theorem sequencerStep_cases {s t : State} (h : sequencerStep s = .next t) :
    (∃ i e, decode s.cmd = .ok i ∧ ruleOf i s = .ok e ∧ t = finish i s e) ∨
    (∃ i r, decode s.cmd = .ok i ∧ ruleOf i s = .error r ∧ t = raise s r) ∨
    (∃ r, decode s.cmd = .error r ∧ t = raise s ⟨.illegalCommand, s.cmd.toNat⟩) := by
  unfold sequencerStep at h
  cases hd : decode s.cmd with
  | ok i =>
    rw [hd] at h
    rcases exec_cases i s with ⟨e, h1, hx⟩ | ⟨r, h1, hx⟩ <;> simp only [hx] at h <;> cases h
    · exact .inl ⟨i, e, rfl, h1, rfl⟩
    · exact .inr (.inl ⟨i, r, rfl, h1, rfl⟩)
  | error r =>
    rw [hd] at h
    cases h
    exact .inr (.inr ⟨r, rfl, rfl⟩)

/-- While Busy the host moves only where a move is left and its line is not held. -/
theorem hostGoesFirst_iff (s : State) : hostGoesFirst s = true ↔
    0 < s.latency ∧ ∃ h, hostCurrent s = some h ∧ heldWhileBusy h = false := by
  unfold hostGoesFirst
  cases s.latency with
  | zero => simp
  | succ n =>
    cases hostCurrent s with
    | none => simp
    | some h => simp

/-- What a write of the register space leaves alone. -/
theorem csrWrite_keeps (s : State) (off : BitVec 12) (v : Word) :
    (csrWrite s off v).mem = s.mem ∧ (csrWrite s off v).dmemBytes = s.dmemBytes ∧
    (csrWrite s off v).powerOns = s.powerOns ∧ (csrWrite s off v).rngIn = s.rngIn ∧
    (csrWrite s off v).rngDraws = s.rngDraws ∧ (csrWrite s off v).powerOnPin = s.powerOnPin ∧
    (csrWrite s off v).host = s.host := by
  unfold csrWrite
  split
  · rename_i r _
    cases r <;> unfold writeReg
    case ctrl =>
      cases h : v.getLsbD 1 <;> simp only [writeCtrl, h] <;> exact ⟨rfl, rfl, rfl, rfl, rfl, rfl, rfl⟩
    case status =>
      cases h : v.getLsbD 1 <;> simp only [writeStatus, h] <;> exact ⟨rfl, rfl, rfl, rfl, rfl, rfl, rfl⟩
    all_goals exact ⟨rfl, rfl, rfl, rfl, rfl, rfl, rfl⟩
  · exact ⟨rfl, rfl, rfl, rfl, rfl, rfl, rfl⟩

/-- A line that is not held while Busy changes the host only. -/
theorem hostPerform_not_held (s : State) {h : HostInstr} (hn : heldWhileBusy h = false) :
    ∃ a, hostPerform s h = { s with host := a } := by
  cases h <;> simp [heldWhileBusy] at hn <;> simp only [hostPerform] <;> try split
  all_goals exact ⟨_, rfl⟩

end Sys2Proof.Machine
end

