-- ==== Sys2Proof/Tests/Slice0.lean ====
section
/-!
SUPPORT. Tests. Command words are written out bit by bit from 30_encoding.md R100 and R102: 24 zero bits
and the opcode. Expected results of the one-step tests are the vectors of 95_test_vectors.md named in each
comment. The witness theorems show that the hypotheses of each statement can be met.
-/

open Sys2Proof Sys2Proof.Machine

namespace Sys2Proof.Tests

/-! ## Decoding -/

theorem test_decode_gfAdd : decode 0b00000000_00000000_00000000_00000001#32 = .ok .gfAdd := by decide
theorem test_decode_gfSub : decode 0b00000000_00000000_00000000_00000010#32 = .ok .gfSub := by decide
theorem test_decode_gfMul : decode 0b00000000_00000000_00000000_00000011#32 = .ok .gfMul := by decide
theorem test_decode_gfDiv : decode 0b00000000_00000000_00000000_00000100#32 = .ok .gfDiv := by decide
theorem test_decode_sssSplit : decode 0b00000000_00000000_00000000_00010000#32 = .ok .sssSplit := by decide
theorem test_decode_sssRecon : decode 0b00000000_00000000_00000000_00010001#32 = .ok .sssRecon := by decide
theorem test_decode_bpPack : decode 0b00000000_00000000_00000000_00100000#32 = .ok .bpPack := by decide
theorem test_decode_bpUnpack : decode 0b00000000_00000000_00000000_00100001#32 = .ok .bpUnpack := by decide
theorem test_decode_sfFrame : decode 0b00000000_00000000_00000000_00110000#32 = .ok .sfFrame := by decide
theorem test_decode_sfUnframe : decode 0b00000000_00000000_00000000_00110001#32 = .ok .sfUnframe := by decide
theorem test_decode_ckB39Enc : decode 0b00000000_00000000_00000000_01000000#32 = .ok .ckB39Enc := by decide
theorem test_decode_ckB39Dec : decode 0b00000000_00000000_00000000_01000001#32 = .ok .ckB39Dec := by decide
theorem test_decode_kdfSlip : decode 0b00000000_00000000_00000000_01010000#32 = .ok .kdfSlip := by decide
theorem test_decode_kdfBip : decode 0b00000000_00000000_00000000_01010001#32 = .ok .kdfBip := by decide
theorem test_decode_accReset : decode 0b00000000_00000000_00000000_01100000#32 = .ok .accReset := by decide
theorem test_decode_accAdd : decode 0b00000000_00000000_00000000_01100001#32 = .ok .accAdd := by decide
theorem test_decode_accMerge : decode 0b00000000_00000000_00000000_01100010#32 = .ok .accMerge := by decide

/-- The table's numbering gives the same instruction, in 8 bits or in 32. -/
theorem test_decodeTableWord : decodeTableWord 32 0x61 = some .accAdd ∧ decodeTableWord 8 0x61 = some .accAdd ∧
    decodeTableWord 32 0x05 = none := by decide

/-! ## Ill-formed words and programs (30_encoding.md R103, R104) -/

/-- Bit 8 set: MBZ is not zero. -/
theorem test_wellFormed_mbz : CommandWord.mbzZero 0x00000101 = false ∧
    decode 0x00000101 = .error .mbzNonzero := by decide

/-- Bit 31 set. -/
theorem test_wellFormed_mbz_top : CommandWord.wellFormed 0x80000001 = false ∧
    decode 0x80000001 = .error .mbzNonzero := by decide

/-- Opcode 0x05 is not assigned. -/
theorem test_wellFormed_opcode : CommandWord.opcodeAssigned 0x00000005 = false ∧
    decode 0x00000005 = .error .opcodeUnassigned := by decide

/-- The all-zero word is illegal. -/
theorem test_wellFormed_zero : CommandWord.wellFormed 0 = false ∧ decode 0 = .error .opcodeUnassigned := by decide

/-- A branch beyond the end of a host program. -/
theorem test_targetsInside : targetsInside [.b 2] = false ∧ targetsInside (assemble [wait]) = true := by decide

/-! ## One step -/

/-- The reset state with operands, regions of DMEM written and random bytes to come. -/
def given (ops : List Word) (mem : List (Nat × List Byte)) (rng : List Byte := []) : State :=
  { State.reset with
    args := Vector.ofFn fun i => ops.getD i.val 0
    mem := Memory.applyWrites [] mem
    rngIn := rng }

/-- The state after the completion of a command. -/
def after (i : Instr) (s : State) : State :=
  match step (s.withFetchWord 32 (encode i).toNat) with
  | .next t => t
  | .fault _ => s
  | .refused _ => s

/-- STATUS, ERRINFO, RESULT0 and RESULT1. -/
def seen (s : State) : List Nat :=
  [(statusWord s).toNat, s.errInfo.toNat, s.result0.toNat, s.result1.toNat]

/-- V-G1. -/
theorem test_gfAdd : seen (after .gfAdd (given [0x57, 0x83] [])) = [0x002, 0, 0xD4, 0] := by decide

/-- V-G4. -/
theorem test_gfSub : seen (after .gfSub (given [0xD4, 0x83] [])) = [0x002, 0, 0x57, 0] := by decide

/-- V-G8: bits [31:8] of the operands are ignored. -/
theorem test_gfMul : seen (after .gfMul (given [0x00001157, 0x00000283] [])) = [0x002, 0, 0xC1, 0] := by decide

/-- V-G15. -/
theorem test_gfDiv : seen (after .gfDiv (given [0xC1, 0x83] [])) = [0x002, 0, 0x57, 0] := by decide +kernel

/-- V-G6: only ARG1[7:0] is the divisor. -/
theorem test_gfDiv_zero : seen (after .gfDiv (given [0x05, 0x00000100] [])) = [0x806, 0, 0, 0] := by decide

/-- V-S3. -/
theorem test_sssSplit : memRead (after .sssSplit (given [0x000, 2, 3, 5, 0x010] [(0, [0x42, 0x10])] [1, 2, 3, 4])) 0x010 10 =
    [0x41, 0x17, 0x48, 0x06, 0x4B, 0x01, 0x66, 0x5C, 0x65, 0x5B] := by decide +kernel

/-- V-S9. -/
theorem test_sssSplit_address : seen (after .sssSplit (given [0x000, 2, 2, 255, 0xFF00] [])) = [0xA06, 0xFF00, 0, 0] := by decide

/-- V-R4: the inputs are read before the output is written. -/
theorem test_sssRecon : memRead (after .sssRecon (given [0x100, 2, 0x200, 2, 0x200]
    [(0x100, [1, 3]), (0x200, [0x47, 0x17, 0x4D, 0x19])])) 0x200 4 = [0x42, 0x10, 0x4D, 0x19] := by decide +kernel

/-- V-R9: the zero check precedes the duplicate check. -/
theorem test_sssRecon_zero : seen (after .sssRecon (given [0x100, 3, 0x200, 2, 0x300] [(0x100, [2, 2, 0])])) =
    [0x106, 3, 0, 0] := by decide

/-- V-P1. -/
theorem test_bpPack : memRead (after .bpPack (given [0, 2, 10, 0x100] [(0, symbolArrayBytes [0x3FF, 0x001])])) 0x100 3 =
    [0xFF, 0xC0, 0x10] := by decide

/-- V-P6. -/
theorem test_bpPack_range : seen (after .bpPack (given [0, 2, 10, 0x100] [(0, symbolArrayBytes [0x001, 0x400])])) =
    [0x706, 1, 0, 0] := by decide

/-- V-U3. -/
theorem test_bpUnpack : symReads (after .bpUnpack (given [0, 2, 11, 0x100] [(0, [0xFF, 0xFF])])) 0x100 2 =
    [0x7FF, 0x7C0] := by decide

/-- V-U1: the last symbol is padded with zeros. -/
theorem test_bpUnpack_pad : seen (after .bpUnpack (given [0, 3, 10, 0x100] [(0, [0xFF, 0xC0, 0x10])])) =
    [0x002, 0, 3, 6] := by decide

/-- V-F1. -/
theorem test_sfFrame : symReads (after .sfFrame (given [1, 2, 0x000, 2, 0x100] [(0, [0x42, 0x10])])) 0x100 6 =
    [0x001, 0x108, 0x101, 0x085, 0x3AC, 0x38C] := by decide +kernel

/-- V-F6. -/
theorem test_sfFrame_index : seen (after .sfFrame (given [33, 2, 0x000, 2, 0x100] [])) = [0x106, 5, 0, 0] := by decide

/-- The frame of V-F1, symbol by symbol. -/
def frame12 : List Byte := symbolArrayBytes [0x001, 0x108, 0x101, 0x085, 0x3AC, 0x38C]

/-- V-N1. -/
theorem test_sfUnframe : seen (after .sfUnframe (given [0x100, 6, 0x200] [(0x100, frame12)])) =
    [0x002, 0, 2, 0x201] := by decide +kernel

/-- V-N4: a pad bit is set. -/
theorem test_sfUnframe_pad : seen (after .sfUnframe (given [0x100, 6, 0x200]
    [(0x100, symbolArrayBytes [0x001, 0x108, 0x101, 0x085, 0x3AC, 0x38D])])) = [0x406, 2, 0, 0] := by decide

/-- V-B1, with the SHA-256 prefix that the vector gives. -/
theorem test_ckB39Enc : b39Symbols (fun _ => [0x37, 0x47, 0x08, 0xFF]) (List.replicate 16 0) =
    [0, 0, 0, 0, 0, 0, 0, 0, 0, 0, 0, 3] := by decide

/-- V-B13. -/
theorem test_ckB39Enc_length : seen (after .ckB39Enc (given [0, 15, 0x100] [])) = [0x106, 7, 0, 0] := by decide

/-- V-B10, with the SHA-256 prefix of V-B1. -/
theorem test_ckB39Dec : b39Entropy (fun _ => [0x37, 0x47, 0x08, 0xFF]) 16 [0, 0, 0, 0, 0, 0, 0, 0, 0, 0, 0, 4] =
    .error ⟨.checksumMismatch, 4⟩ := by decide +kernel

/-- V-B14. -/
theorem test_ckB39Dec_count : seen (after .ckB39Dec (given [0, 13, 0x100] [])) = [0x106, 8, 0, 0] := by decide

/-- The error corner of 95_test_vectors.md section 2.7. -/
theorem test_kdfSlip_address : seen (after .kdfSlip (given [0, 0, 0, 0, 0xFFF0] [])) = [0xA06, 0xFFF0, 0, 0] := by decide

/-- Two iterations over a stub function: the output is the exclusive-or of both (45_kdf.md R240). -/
theorem test_kdfBip_loop : pbkdf2 (fun K M => [K.getD 0 0 ^^^ M.getD 0 0]) [0x0F] [0x33] 2 = [0x0F] := by decide

/-- V-A2: ACC_RESET and then ACC_ADD of F(1,1). -/
def oneShare : State :=
  { after .accAdd { after .accReset (given [0x800] [(0x100, symbolArrayBytes [0x000, 0x108, 0x106, 0x0A3, 0x121, 0x08C]),
      (0x140, symbolArrayBytes [0x020, 0x108, 0x10A, 0x1CE, 0x109, 0x330])]) with
        args := #v[0x100, 6, 0, 0, 0, 0] } with args := #v[0x140, 6, 0, 0, 0, 0] }

/-- V-A4: then ACC_ADD of F(2,1). -/
def twoShares : State := { after .accAdd oneShare with args := #v[0x900, 0, 0, 0, 0, 0] }

/-- ACC_RESET: the base is ARG0 and nothing is held. -/
theorem test_accReset : (accStatusWord (after .accReset (given [0x800] [])), (after .accReset (given [0x800] [])).acc.base) =
    (0x00000000, 0x800) := by decide

/-- V-A2. -/
theorem test_accAdd : ((accStatusWord oneShare).toNat, seen oneShare) = (0x00010101, [0x002, 0, 1, 0x101]) := by
  decide +kernel

/-- V-A4. -/
theorem test_accAdd_ready : ((accStatusWord twoShares).toNat, seen twoShares) = (0x00010202, [0x002, 0, 2, 0x102]) := by
  decide +kernel

/-- V-A6. -/
theorem test_accMerge : memRead (after .accMerge twoShares) 0x900 2 = [0x42, 0x10] := by decide +kernel

/-- V-A3. -/
theorem test_accMerge_early : seen (after .accMerge oneShare) = [0x206, 1, 1, 0x101] := by decide +kernel

/-- V-D5. -/
theorem test_illegal : (match step (State.reset.withFetchWord 32 0x00000103) with
    | .next t => seen t
    | .fault _ => []
    | .refused _ => []) = [0x906, 0x103, 0, 0] := by decide

/-! ## Witnesses: the hypotheses of each statement can be met, clause by clause, at boundary values -/

/-- The unit Busy with a command word, a latency and a host program. -/
def busyWith (word : Word) (lat : Nat) (prog : List HostInstr) : State :=
  { State.reset with
    cmd := word
    seq := .busy
    latency := lat
    host := { prog := prog, pc := 0, lastRead := 0 } }

/-- The sequencer's turn in each way that StepRunsTheDecodedCommand and
IllegalWordCompletesWithIllegalCommand name: no move left; the host's line is held; the
program has ended. -/
theorem witness_sequencersTurn :
    (∀ s ∈ [busyWith 0x61 0 [.rd 0x008], busyWith 0x61 1 [.rd 0x014], busyWith 0x61 1 []],
      s.powerOnPin = false ∧ s.seq = .busy ∧ decode s.cmd = .ok .accAdd) ∧
    (busyWith 0x61 0 [.rd 0x008]).latency = 0 ∧
    (∀ h, (busyWith 0x61 1 [.rd 0x014]).host.prog[0]? = some h → heldWhileBusy h = true) ∧
    ∀ h, (busyWith 0x61 1 []).host.prog[0]? = some h → heldWhileBusy h = true := by
  refine ⟨by decide, by decide, fun h e => ?_, fun h e => ?_⟩
  · obtain rfl : HostInstr.rd 0x014 = h := by simpa [busyWith] using e
    decide
  · simp [busyWith] at e

theorem witness_DecodeAndEncodeAgree : decode 0x62 = .ok .accMerge := by decide

theorem witness_StepRunsTheDecodedCommand :
    (busyWith 0x62 0 []).powerOnPin = false ∧ (busyWith 0x62 0 []).seq = .busy ∧
      (busyWith 0x62 0 []).latency = 0 ∧ decode (busyWith 0x62 0 []).cmd = .ok .accMerge := by decide

/-- An MBZ bit and an unassigned opcode, next to assigned ones. -/
theorem witness_IllegalWordCompletesWithIllegalCommand :
    ∀ s ∈ [busyWith 0x00000101 0 [], busyWith 0x80000001 0 [], busyWith 0x63 0 [], busyWith 0x05 0 [],
      busyWith 0 0 []],
    s.powerOnPin = false ∧ s.seq = .busy ∧ s.latency = 0 ∧
      (s.cmd.toNat / 256 ≠ 0 ∨ s.cmd.toNat % 256 ∉ assignedOpcodes) := by decide

theorem witness_CmdWriteIssuesTheWord :
    (0x00C : BitVec 12).toNat / 4 = 3 ∧ (0x00F : BitVec 12).toNat / 4 = 3 := by decide

theorem witness_AccessesAreHeldWhileBusy :
    (heldWhileBusy (.mrd 0) = true ∧ (busyWith 1 1 [.mrd 0]).seq = .busy ∧
      (busyWith 1 1 [.mrd 0]).powerOnPin = false ∧ (busyWith 1 1 [.mrd 0]).host.prog[0]? = some (.mrd 0)) ∧
    (0 < (busyWith 1 1 [.rd 0x008]).latency ∧ (0x008 : BitVec 12).toNat / 4 = 2 ∧
      (0x003 : BitVec 12).toNat / 4 = 0) ∧
    (given [] []).seq = .idle ∧ (given [] []).powerOnPin = false := by decide

theorem witness_BusyUnitCompletesWithinItsLatency :
    (busyWith 1 3 [.rd 0x008]).powerOnPin = false ∧ (busyWith 1 3 [.rd 0x008]).seq = .busy := by decide

/-- Completions with and without error: the hypotheses of ErrorCompletionIsAllOrNothing,
CompletionWithoutErrorClearsTheRecord, ErrorCodesStayInTheTable, InterruptFollowsEnableAndDone and the first
clause of DivisionByZeroOnlyFromGfDiv. -/
theorem witness_completions :
    (∃ t, exec .gfDiv (given [5, 0] []) = .next t ∧ t.err = true ∧ t.errCode = 8) ∧
    (∃ t, exec .gfDiv (given [5, 1] []) = .next t ∧ t.err = false) ∧
    ∃ t, sequencerStep (busyWith 0x63 0 []) = .next t :=
  ⟨⟨_, rfl, rfl, rfl⟩, ⟨_, rfl, rfl⟩, ⟨_, rfl⟩⟩

theorem witness_DivisionByZeroOnlyFromGfDiv :
    (∃ t, exec .sssRecon (given [0x100, 2, 0x200, 2, 0x300] [(0x100, [1, 255])]) = .next t ∧ t.err = false) ∧
    ∃ t, exec .accMerge twoShares = .next t ∧ t.err = false := by
  refine ⟨⟨_, exec_eq_settle _ _, by decide +kernel⟩, ⟨_, exec_eq_settle _ _, by decide +kernel⟩⟩

/-- Two states that agree on the inputs and differ in the rest. -/
theorem witness_CompletionDependsOnlyOnItsInputs :
    let s := given [0x10, 2] [(0x10, [1, 2])]
    let s' : State := { s with irqEn := true, result0 := 7, cmd := 0x61, issues := 3 }
    s' ≠ s ∧ s'.args = s.args ∧ s'.dmemBytes = s.dmemBytes ∧ s'.acc = s.acc ∧
      (∀ a, byteAt s' a = byteAt s a) ∧ ∀ k, rngAnswer s' k = rngAnswer s k :=
  ⟨by decide, rfl, rfl, rfl, fun _ => rfl, fun _ => rfl⟩

/-- Both ends of every range of offsets. -/
theorem witness_RegisterMapReadsAsTabled :
    ((0x003 : BitVec 12).toNat / 4 * 4 = 0x000) ∧ ((0x027 : BitVec 12).toNat / 4 * 4 = 0x024) ∧
    ((0x040 : BitVec 12).toNat / 4 * 4 = 0x040 + 4 * 0) ∧ ((0x057 : BitVec 12).toNat / 4 * 4 = 0x040 + 4 * 5) ∧
    (0x028 ≤ (0x028 : BitVec 12).toNat / 4 * 4 ∧ (0x03F : BitVec 12).toNat / 4 * 4 < 0x040) ∧
    0x058 ≤ (0x058 : BitVec 12).toNat / 4 * 4 ∧ 0x058 ≤ (0xFFF : BitVec 12).toNat / 4 * 4 := by decide

theorem witness_RegisterWritesActAsTabled :
    ((0x057 : BitVec 12).toNat / 4 * 4 = 0x040 + 4 * 5) ∧
    ((0x004 : BitVec 12).toNat / 4 * 4 = 0x004 ∧ (1 : Word).getLsbD 1 = false) ∧
    ((0x00B : BitVec 12).toNat / 4 * 4 = 0x008) ∧
    (0x010 ≤ (0x010 : BitVec 12).toNat / 4 * 4 ∧ (0x03F : BitVec 12).toNat / 4 * 4 < 0x040) ∧
    0x058 ≤ (0x058 : BitVec 12).toNat / 4 * 4 := by decide

theorem witness_HostDmemAccessIsRangeChecked :
    65535 < State.reset.dmemBytes ∧ State.reset.dmemBytes ≤ 65536 := by decide

theorem witness_SoftResetKeepsDmem :
    (0x004 : BitVec 12).toNat / 4 = 1 ∧ (0x007 : BitVec 12).toNat / 4 = 1 ∧ (2 : Word).getLsbD 1 = true := by
  decide

theorem witness_PowerOnResetAbandonsTheCommand :
    ({ busyWith 1 0 [] with powerOnPin := true } : State).powerOnPin = true := rfl

theorem witness_InterruptFollowsEnableAndDone : (after .gfAdd (given [] [])).done = true := by decide

/-- The invariant holds in a state that is Busy, and a step of it is a completion. -/
theorem witness_StepKeepsTheInvariant : Inv (busyWith 0x60 0 []) ∧ ∃ t, step (busyWith 0x60 0 []) = .next t := by
  refine ⟨⟨?_, ?_, ?_⟩, ⟨_, rfl⟩⟩
  · constructor <;> simp [busyWith, State.reset]
  · constructor <;> simp [busyWith, State.reset, Acc.reset, accIndices]
  · constructor <;> simp [busyWith, State.reset, Memory.wf, Memory.risesFrom, Memory.below,
      Config.dmemBytesDefault]

theorem witness_AccumulatorChangesOnlyByItsCommands :
    (∃ t, step ({ busyWith 0x60 0 [] with args := #v[4, 0, 0, 0, 0, 0] } : State) = .next t ∧
      t.acc ≠ (busyWith 0x60 0 []).acc) ∧
    ∃ t, exec .accAdd oneShare = .next t := by
  refine ⟨⟨_, rfl, by decide⟩, ⟨_, rfl⟩⟩

/-- Divisor 0 by the low byte alone, and divisor 1. -/
theorem witness_GfDivIsTheUniqueQuotient :
    (given [5, 0x100] []).args[1].setWidth 8 = (0 : Byte) ∧
    (given [5, 0x101] []).args[1].setWidth 8 ≠ (0 : Byte) := by decide

/-- The hypotheses of FieldLawsHold, TablesAgreeWithThePolynomials and TablesHoldTheGeneratorPowers. -/
theorem witness_nonzeroByte : (0xFF : Byte) ≠ 0 := by decide

/-! The operands of a statement's clauses, `[ARG0, …]`, read through `argNat`. -/

/-- InvalidParameters(1): T = 0, T = N + 1, N = 256. (2): L = 0, L odd. Regions one byte too long, and
exactly fitting. -/
theorem witness_SplitWritesEveryShare :
    (∀ s ∈ [given [0, 2, 0, 2, 16] [], given [0, 2, 3, 2, 16] [], given [0, 2, 2, 256, 16] []],
      ¬(1 ≤ argNat s 2 ∧ argNat s 2 ≤ argNat s 3 ∧ argNat s 3 ≤ 255)) ∧
    (∀ s ∈ [given [0, 0, 1, 255, 16] [], given [0, 65535, 255, 255, 16] []],
      1 ≤ argNat s 2 ∧ argNat s 2 ≤ argNat s 3 ∧ argNat s 3 ≤ 255 ∧ (argNat s 1 = 0 ∨ argNat s 1 % 2 = 1)) ∧
    (∀ s ∈ [given [0xFFFF, 2, 1, 1, 0] [], given [0xFFFE, 2, 1, 2, 0xFFFD] [], given [0xFFFE, 2, 1, 1, 0xFFFE] []],
      1 ≤ argNat s 2 ∧ argNat s 2 ≤ argNat s 3 ∧ argNat s 3 ≤ 255 ∧ argNat s 1 ≠ 0 ∧ argNat s 1 % 2 = 0) ∧
    (let s := given [0xFFFF, 2, 1, 1, 0] []; s.dmemBytes < argNat s 0 + argNat s 1) ∧
    (let s := given [0xFFFE, 2, 1, 2, 0xFFFD] []
     argNat s 0 + argNat s 1 ≤ s.dmemBytes ∧ s.dmemBytes < argNat s 4 + argNat s 3 * argNat s 1) ∧
    (let s := given [0xFFFE, 2, 1, 1, 0xFFFE] []
     argNat s 0 + argNat s 1 ≤ s.dmemBytes ∧ argNat s 4 + argNat s 3 * argNat s 1 ≤ s.dmemBytes) := by
  decide +kernel

/-- k = 1 and k = 2; the regions; a zero coordinate; a repeated one; distinct ones. -/
theorem witness_ReconInterpolatesAtZero :
    (argNat (given [0, 1] []) 1 < 2) ∧ (2 ≤ argNat (given [0, 2, 0, 1] []) 1 ∧ argNat (given [0, 2, 0, 1] []) 3 % 2 = 1) ∧
    (∀ s ∈ [given [0xFFFF, 2, 0, 2, 0] [], given [0xFFFE, 2, 0xFFFD, 2, 0] [],
        given [0xFFFE, 2, 0xFFFC, 2, 0xFFFF] [], given [0xFFFE, 2, 0xFFFC, 2, 0xFFFE] []],
      2 ≤ argNat s 1 ∧ argNat s 3 ≠ 0 ∧ argNat s 3 % 2 = 0) ∧
    (let s := given [0xFFFF, 2, 0, 2, 0] []; s.dmemBytes < argNat s 0 + argNat s 1) ∧
    (let s := given [0xFFFE, 2, 0xFFFD, 2, 0] []
     argNat s 0 + argNat s 1 ≤ s.dmemBytes ∧ s.dmemBytes < argNat s 2 + argNat s 1 * argNat s 3) ∧
    (let s := given [0xFFFE, 2, 0xFFFC, 2, 0xFFFF] []
     argNat s 0 + argNat s 1 ≤ s.dmemBytes ∧ argNat s 2 + argNat s 1 * argNat s 3 ≤ s.dmemBytes ∧
       s.dmemBytes < argNat s 4 + argNat s 3) ∧
    (let s := given [0x100, 2, 0x200, 2, 0x300] [(0x100, [1, 0])]
     ∃ j, j < argNat s 1 ∧ byteAt s (argNat s 0 + j) = 0) ∧
    (let s := given [0x100, 2, 0x200, 2, 0x300] [(0x100, [2, 2])]
     (∀ j, j < argNat s 1 → byteAt s (argNat s 0 + j) ≠ 0) ∧ 1 < argNat s 1 ∧
       (∃ m, m < 1 ∧ byteAt s (argNat s 0 + m) = byteAt s (argNat s 0 + 1)) ∧
       ∀ n, n < 1 → ∀ m, m < n → byteAt s (argNat s 0 + m) ≠ byteAt s (argNat s 0 + n)) ∧
    (let s := given [0x100, 2, 0x200, 2, 0x300] [(0x100, [1, 255])]
     (∀ j, j < argNat s 1 → byteAt s (argNat s 0 + j) ≠ 0) ∧
       (∀ j, j < argNat s 1 → ∀ m, m < j → byteAt s (argNat s 0 + m) ≠ byteAt s (argNat s 0 + j)) ∧
       argNat s 0 + argNat s 1 ≤ s.dmemBytes ∧ argNat s 2 + argNat s 1 * argNat s 3 ≤ s.dmemBytes ∧
       argNat s 4 + argNat s 3 ≤ s.dmemBytes) := by
  refine ⟨by decide +kernel, by decide +kernel, by decide +kernel, by decide +kernel, by decide +kernel,
    by decide +kernel, ⟨1, by decide +kernel⟩, ⟨by decide +kernel, by decide +kernel, ⟨0, by decide +kernel⟩,
    by decide +kernel⟩, by decide +kernel⟩

/-- The state a command completes in. -/
def completed (i : Instr) (s : State) : State := settle i s (ruleOf i s)

/-- V-S1 with the coordinates ⟨1, 2⟩ in DMEM. -/
def splitExample : State :=
  given [0, 2, 2, 3, 0x10] [(0, [0x42, 0x10]), (0x100, [1, 2])] [5, 7]

/-- The shares 1 and 2 of a split, where the split put them. -/
theorem witness_SplitThenReconRestoresTheSecret :
    let t := completed .sssSplit splitExample
    let u : State := { t with args := #v[0x100, 2, 0x10, 2, 0x200, 0] }
    exec .sssSplit splitExample = .next t ∧ t.err = false ∧
    splitExample.args[1].toNat = u.args[3].toNat ∧ u.args[1].toNat = 2 ∧ splitExample.args[2].toNat ≤ 2 ∧
    u.args[0].toNat + 2 ≤ u.dmemBytes ∧ u.args[2].toNat + 2 * 2 ≤ u.dmemBytes ∧
    u.args[4].toNat + 2 ≤ u.dmemBytes ∧
    (∀ j, j < 2 → 1 ≤ (byteAt u (u.args[0].toNat + j)).toNat ∧
      (byteAt u (u.args[0].toNat + j)).toNat ≤ splitExample.args[3].toNat) ∧
    (∀ j, j < 2 → ∀ m, m < j → byteAt u (u.args[0].toNat + m) ≠ byteAt u (u.args[0].toNat + j)) ∧
    ∀ j, j < 2 → ∀ i, i < 2 → byteAt u (u.args[2].toNat + j * 2 + i) =
      byteAt t (splitExample.args[4].toNat + ((byteAt u (u.args[0].toNat + j)).toNat - 1) * 2 + i) := by
  refine ⟨exec_eq_settle _ _, ?_⟩
  decide +kernel

theorem witness_PointsBelowTheThresholdFitEverySecret :
    (List.map Prod.fst ([(1, 7), (255, 7)] : List (Byte × Byte))).Nodup ∧
      ∀ p ∈ ([(1, 7), (255, 7)] : List (Byte × Byte)), p.1 ≠ 0 := by simp

/-- Widths 9 and 12; regions one byte too long and exactly fitting; a symbol of 2^w. -/
theorem witness_PackLaysSymbolsMsbFirst :
    (argNat (given [0, 0, 9] []) 2 ≠ 10 ∧ argNat (given [0, 0, 12] []) 2 ≠ 11) ∧
    (let s := given [0xFFFD, 2, 10, 0] []; s.dmemBytes < argNat s 0 + 2 * argNat s 1) ∧
    (let s := given [0xFFFC, 2, 10, 0xFFFE] []
     argNat s 0 + 2 * argNat s 1 ≤ s.dmemBytes ∧ s.dmemBytes < argNat s 3 + cdiv (argNat s 1 * argNat s 2) 8) ∧
    (let s := given [0xFFFC, 2, 10, 0xFFFD] [(0xFFFC, symbolArrayBytes [0x3FF, 0x400])]
     argNat s 0 + 2 * argNat s 1 ≤ s.dmemBytes ∧ argNat s 3 + cdiv (argNat s 1 * argNat s 2) 8 ≤ s.dmemBytes ∧
       2 ^ 10 ≤ symRead s (argNat s 0) 1 ∧ symRead s (argNat s 0) 0 < 2 ^ 10) ∧
    (let s := given [0, 2, 11, 0x100] [(0, symbolArrayBytes [0x7FF, 0x400])]
     argNat s 2 = 11 ∧ ∀ j, j < argNat s 1 → symRead s (argNat s 0) j < 2 ^ argNat s 2) := by decide

theorem witness_UnpackCutsSymbolsMsbFirst :
    (argNat (given [0, 0, 9] []) 2 ≠ 10 ∧ argNat (given [0, 0, 12] []) 2 ≠ 11) ∧
    (let s := given [0xFFFF, 2, 11, 0] []; s.dmemBytes < argNat s 0 + argNat s 1) ∧
    (let s := given [0xFFFE, 2, 11, 0xFFFD] []
     argNat s 0 + argNat s 1 ≤ s.dmemBytes ∧ s.dmemBytes < argNat s 3 + 2 * cdiv (8 * argNat s 1) (argNat s 2)) ∧
    (let s := given [0xFFFE, 2, 11, 0xFFFC] []
     argNat s 0 + argNat s 1 ≤ s.dmemBytes ∧ argNat s 3 + 2 * cdiv (8 * argNat s 1) (argNat s 2) ≤ s.dmemBytes) := by
  decide

/-- UnpackAfterPackRestoresTheSymbols and PackAfterUnpackAppendsZeroBytes: packed lengths that are a multiple of 8 bits (four symbols of 10 bits) and are not (one of 11). -/
theorem witness_packLaws :
    ((∀ x ∈ [0x3FF, 0, 1, 2], x < 2 ^ 10) ∧ [0x3FF, 0, 1, 2].length * 10 % 8 = 0) ∧
    ((∀ x ∈ [0x7FF], x < 2 ^ 11) ∧ [0x7FF].length * 11 % 8 ≠ 0) := by decide

/-- Index 0 and 33, threshold 0 and 33, length 0 and odd, regions, and the accepted corner 32, 32. -/
theorem witness_FrameWritesTheFramedShare :
    (∀ s ∈ [given [0] [], given [33] []], ¬(1 ≤ argNat s 0 ∧ argNat s 0 ≤ 32)) ∧
    (∀ s ∈ [given [1, 0] [], given [32, 33] []], 1 ≤ argNat s 0 ∧ argNat s 0 ≤ 32 ∧
      ¬(1 ≤ argNat s 1 ∧ argNat s 1 ≤ 32)) ∧
    (∀ s ∈ [given [1, 1, 0, 0] [], given [32, 32, 0, 1] []], 1 ≤ argNat s 1 ∧ argNat s 1 ≤ 32 ∧
      (argNat s 3 = 0 ∨ argNat s 3 % 2 = 1)) ∧
    (let s := given [1, 1, 0xFFFF, 2, 0] []; s.dmemBytes < argNat s 2 + argNat s 3) ∧
    (let s := given [1, 1, 0xFFFE, 2, 0xFFF5] []
     argNat s 2 + argNat s 3 ≤ s.dmemBytes ∧ s.dmemBytes < argNat s 4 + 2 * cdiv (8 * argNat s 3 + 42) 10) ∧
    (let s := given [32, 32, 0xFFFE, 2, 0xFFF4] []
     1 ≤ argNat s 0 ∧ argNat s 0 ≤ 32 ∧ 1 ≤ argNat s 1 ∧ argNat s 1 ≤ 32 ∧ argNat s 3 ≠ 0 ∧ argNat s 3 % 2 = 0 ∧
     argNat s 2 + argNat s 3 ≤ s.dmemBytes ∧ argNat s 4 + 2 * cdiv (8 * argNat s 3 + 42) 10 ≤ s.dmemBytes) := by
  decide

/-- W = 7 has no payload length, W = 6 has length 2. -/
theorem witness_PayloadLengthIsInferredUniquely :
    (∀ L, 2 ≤ L → L % 2 = 0 → cdiv (8 * L + 42) 10 ≠ 7) ∧ 2 % 2 = 0 ∧ cdiv (8 * 2 + 42) 10 = 6 := by
  refine ⟨fun L _ h => ?_, by decide⟩
  unfold cdiv
  omega

/-- The bits of the frame that a state has at ARG0, W = 6. -/
def frameAt (s : State) : List Bool := symbolsToBits 10 (symReads s (argNat s 0) 6)

/-- The checks on a frame of payload length 2 in the order of 43_framing.md R198: symbols, pad,
checksum. -/
def frameChecks (s : State) : Bool × Bool × Bool :=
  (decide (∀ j : Nat, j < 6 → symRead s (argNat s 0) j < 1024),
    decide ((frameAt s).drop (8 * 2 + 42) = zeroBits (10 * 6 - 8 * 2 - 42)),
    decide (valOf (((frameAt s).drop (10 + 8 * 2)).take 32) = (crc32 (bitsToBytes ((frameAt s).take (10 + 8 * 2)))).toNat))

/-- V-N1, V-N4, V-N5, V-N7 and regions at the end of DMEM. -/
theorem witness_UnframeParsesTheFramedShare :
    argNat (given [0x100, 7, 0x200] []) 1 = 7 ∧ argNat (given [0x100, 6, 0x200] []) 1 = 6 ∧
    (let s := given [0xFFF5, 6, 0x200] []; s.dmemBytes < argNat s 0 + 2 * 6) ∧
    (let s := given [0xFFF4, 6, 0xFFFF] []; argNat s 0 + 2 * 6 ≤ s.dmemBytes ∧ s.dmemBytes < argNat s 2 + 2) ∧
    (let s := given [0xFFF4, 6, 0xFFFE] [(0xFFF4, frame12)]
     argNat s 0 + 2 * 6 ≤ s.dmemBytes ∧ argNat s 2 + 2 ≤ s.dmemBytes ∧ frameChecks s = (true, true, true)) ∧
    (let s := given [0x100, 6, 0x200] [(0x100, symbolArrayBytes [0x001, 0x108, 0x101, 0x400, 0x3AC, 0x38C])]
     1024 ≤ symRead s (argNat s 0) 3 ∧ ∀ m, m < 3 → symRead s (argNat s 0) m < 1024) ∧
    frameChecks (given [0x100, 6, 0x200] [(0x100, symbolArrayBytes [0x001, 0x108, 0x101, 0x085, 0x3AC, 0x38D])]) =
      (true, false, true) ∧
    frameChecks (given [0x100, 6, 0x200] [(0x100, symbolArrayBytes [0x001, 0x108, 0x101, 0x085, 0x3AC, 0x388])]) =
      (true, true, false) := by decide +kernel

/-- A frame written by SF_FRAME, and SF_UNFRAME pointed at it. -/
theorem witness_FrameThenUnframeRestoresTheShare :
    let s := given [32, 32, 0, 2, 0x100] [(0, [0x42, 0x10])]
    let t := completed .sfFrame s
    let u : State := { t with args := #v[0x100, 6, 0x200, 0, 0, 0] }
    exec .sfFrame s = .next t ∧ t.err = false ∧ cdiv (8 * s.args[3].toNat + 42) 10 = u.args[1].toNat ∧
    u.args[0].toNat + 2 * 6 ≤ u.dmemBytes ∧ u.args[2].toNat + 2 ≤ u.dmemBytes ∧
    ∀ j, j < 6 → symRead u u.args[0].toNat j = symRead t s.args[4].toNat j := by
  refine ⟨exec_eq_settle _ _, ?_⟩
  decide +kernel

/-- The frame of V-F1 with a bit of the payload, of the pad and of an element's upper part flipped. -/
theorem witness_SingleBitFlipIsDetected :
    let s := given [0x100, 6, 0x200] [(0x100, frame12)]
    exec .sfUnframe s = .next (completed .sfUnframe s) ∧ (completed .sfUnframe s).err = false ∧
    ∀ c ∈ [(2, 9, [0x001, 0x108, 0x301, 0x085, 0x3AC, 0x38C]), (5, 0, [0x001, 0x108, 0x101, 0x085, 0x3AC, 0x38D]),
        (0, 15, [0x8001, 0x108, 0x101, 0x085, 0x3AC, 0x38C])],
      let s' := given [0x100, 6, 0x200] [(0x100, symbolArrayBytes c.2.2)]
      (∀ i, i < 6 → i ≠ c.1 → symRead s' 0x100 i = symRead s 0x100 i) ∧
      symRead s' 0x100 c.1 = symRead s 0x100 c.1 ^^^ 2 ^ c.2.1 := by
  refine ⟨exec_eq_settle _ _, ?_⟩
  decide +kernel

/-- Length 15 beside 16; regions; the longest length. -/
theorem witness_B39EncodeAppendsTheHashPrefix :
    argNat (given [0, 15] []) 1 ∉ Params.b39Lengths ∧ argNat (given [0, 33] []) 1 ∉ Params.b39Lengths ∧
    (∀ s ∈ [given [0xFFE1, 32, 0] [], given [0xFFE0, 32, 0xFFD1] [], given [0xFFE0, 32, 0xFFD0] []],
      argNat s 1 ∈ Params.b39Lengths) ∧
    (let s := given [0xFFE1, 32, 0] []; s.dmemBytes < argNat s 0 + argNat s 1) ∧
    (let s := given [0xFFE0, 32, 0xFFD1] []
     argNat s 0 + argNat s 1 ≤ s.dmemBytes ∧ s.dmemBytes < argNat s 2 + 2 * (3 * argNat s 1 / 4)) ∧
    (let s := given [0xFFE0, 32, 0xFFD0] []
     argNat s 0 + argNat s 1 ≤ s.dmemBytes ∧ argNat s 2 + 2 * (3 * argNat s 1 / 4) ≤ s.dmemBytes) := by decide

/-- The symbols that CK_B39_ENC writes for 16 zero bytes, decoded by CK_B39_DEC where they stand: the
checksum is the port's. -/
theorem witness_B39EncodeThenDecodeRestoresTheEntropy :
    let s := given [0, 16, 0x100] [(0, List.replicate 16 0)]
    let t := completed .ckB39Enc s
    let u : State := { t with args := #v[0x100, 12, 0x200, 0, 0, 0] }
    exec .ckB39Enc s = .next t ∧ t.err = false ∧ 3 * s.args[1].toNat / 4 = u.args[1].toNat ∧
    u.args[0].toNat + 2 * 12 ≤ u.dmemBytes ∧ u.args[2].toNat + 16 ≤ u.dmemBytes ∧
    ∀ j, j < 12 → symRead u u.args[0].toNat j = symRead t s.args[2].toNat j := by
  refine ⟨exec_eq_settle _ _, by decide +kernel, by decide, by decide, by decide, fun _ _ => rfl⟩

/-- Counts 13 and 12; regions; an element of 2048; elements below it. Which of the two last clauses of the
statement a word list meets depends on the port. -/
theorem witness_B39DecodeVerifiesTheHashPrefix :
    argNat (given [0, 13] []) 1 ∉ Params.b39Counts ∧ argNat (given [0, 12] []) 1 ∈ Params.b39Counts ∧
    (let s := given [0xFFE9, 12, 0] []; s.dmemBytes < argNat s 0 + 2 * argNat s 1) ∧
    (let s := given [0xFFE8, 12, 0xFFF1] []
     argNat s 0 + 2 * argNat s 1 ≤ s.dmemBytes ∧ s.dmemBytes < argNat s 2 + 4 * argNat s 1 / 3) ∧
    (let s := given [0, 12, 0xFFF0] [(0, symbolArrayBytes [0x7FF, 0x800])]
     argNat s 2 + 4 * argNat s 1 / 3 ≤ s.dmemBytes ∧ 2048 ≤ symRead s 0 1 ∧ symRead s 0 0 < 2048) ∧
    (let s := given [0, 12, 0x100] [(0, symbolArrayBytes (List.replicate 12 0x7FF))]
     ∀ j, j < argNat s 1 → symRead s 0 j < 2048) := by decide +kernel

/-- Every 32-byte function is a pseudorandom function in the sense of the statement; one iteration is the
least. -/
theorem witness_PbkdfIsTheXorOfItsIterates :
    (∀ K M, (hmacSha256Bytes K M).length = 32) ∧ 1 ≤ 1 := ⟨fun _ _ => by simp [hmacSha256Bytes], le_rfl⟩

/-- Each region one byte too long while the earlier ones fit exactly, and all fitting exactly. -/
theorem witness_KdfSlipWritesTheDerivedKey :
    (let s := given [0xFFFF, 2, 0, 0, 0] []; s.dmemBytes < argNat s 0 + argNat s 1) ∧
    (let s := given [0xFFFE, 2, 0xFFFF, 2, 0] []
     argNat s 0 + argNat s 1 ≤ s.dmemBytes ∧ s.dmemBytes < argNat s 2 + argNat s 3) ∧
    (let s := given [0xFFFE, 2, 0xFFFE, 2, 0xFFE1] []
     argNat s 2 + argNat s 3 ≤ s.dmemBytes ∧ s.dmemBytes < argNat s 4 + 32) ∧
    (let s := given [0xFFFE, 2, 0xFFFE, 2, 0xFFE0] []
     argNat s 0 + argNat s 1 ≤ s.dmemBytes ∧ argNat s 2 + argNat s 3 ≤ s.dmemBytes ∧ argNat s 4 + 32 ≤ s.dmemBytes) := by
  decide

/-- As for KDF_SLIP, with 64 bytes. -/
theorem witness_KdfBipWritesTheDerivedKey :
    (let s := given [0xFFFF, 2, 0, 0, 0] []; s.dmemBytes < argNat s 0 + argNat s 1) ∧
    (let s := given [0xFFFE, 2, 0xFFFF, 2, 0] []
     argNat s 0 + argNat s 1 ≤ s.dmemBytes ∧ s.dmemBytes < argNat s 2 + argNat s 3) ∧
    (let s := given [0xFFFE, 2, 0xFFFE, 2, 0xFFC1] []
     argNat s 2 + argNat s 3 ≤ s.dmemBytes ∧ s.dmemBytes < argNat s 4 + 64) ∧
    (let s := given [0xFFFE, 2, 0xFFFE, 2, 0xFFC0] []
     argNat s 0 + argNat s 1 ≤ s.dmemBytes ∧ argNat s 2 + argNat s 3 ≤ s.dmemBytes ∧ argNat s 4 + 64 ≤ s.dmemBytes) := by
  decide

theorem witness_TrailingZeroBytesOfAShortPasswordDoNotMatter :
    (List.replicate 62 (0x41 : Byte)).length + 2 ≤ 64 := by decide

/-- A state whose accumulator is Empty, with a frame at 0x100. -/
def emptyWith (base : Word) (W : Word) (syms : List Nat) : State :=
  { given [0x100, W] [(0x100, symbolArrayBytes syms)] with
    acc := Acc.mk .empty 0 0 0 (Vector.replicate 32 0) base }

/-- A state whose accumulator holds share 1 of a session of threshold `T` and payload length `L`, with the
frame of V-F1, which has index 1, threshold 2 and length 2, at 0x100. -/
def heldWith (idx : Byte) (T : BitVec 6) (L : Word) : State :=
  { given [0x100, 6] [(0x100, frame12)] with
    acc := Acc.mk .collecting T L 1 ((Vector.replicate 32 0).set 0 idx) 0x800 }

theorem witness_accInv_empty :
    AccInv (emptyWith 0xFFFF 6 []) ∧ AccInv (emptyWith 0xFFFE 6 []) := by
  refine ⟨?_, ?_⟩ <;> constructor <;> decide +kernel

theorem witness_accInv_held :
    AccInv (heldWith 2 3 2) ∧ AccInv (heldWith 2 2 4) ∧ AccInv (heldWith 1 2 2) ∧ AccInv (heldWith 32 2 2) ∧
      AccInv twoShares := by
  refine ⟨?_, ?_, ?_, ?_, ?_⟩ <;> constructor <;> decide +kernel

/-- Full; no length for W; the region; a bad symbol, pad, checksum; threshold, length, index; a slot one byte
too long and exactly fitting; a second share. The frame carries index 1, threshold 2, length 2. -/
theorem witness_AccAddChecksThenAccepts :
    (twoShares.acc.phase = .ready ∧ twoShares.dmemBytes ≤ 2 ^ 32) ∧
    (argNat (emptyWith 0 7 []) 1 = 7 ∧ (emptyWith 0 7 []).acc.phase ≠ .ready) ∧
    (let s : State := { emptyWith 0 6 [] with args := #v[0xFFF5, 6, 0, 0, 0, 0] }; s.dmemBytes < argNat s 0 + 2 * 6) ∧
    (1024 ≤ symRead (emptyWith 0 6 [0x400]) 0x100 0) ∧
    frameChecks (emptyWith 0 6 [0x001, 0x108, 0x101, 0x085, 0x3AC, 0x38D]) = (true, false, true) ∧
    frameChecks (emptyWith 0 6 [0x001, 0x108, 0x101, 0x085, 0x3AC, 0x388]) = (true, true, false) ∧
    (∀ s ∈ [heldWith 2 3 2, heldWith 2 2 4, heldWith 1 2 2, heldWith 32 2 2,
        emptyWith 0xFFFF 6 [0x001, 0x108, 0x101, 0x085, 0x3AC, 0x38C],
        emptyWith 0xFFFE 6 [0x001, 0x108, 0x101, 0x085, 0x3AC, 0x38C]],
      frameChecks s = (true, true, true) ∧ valOf ((frameAt s).take 5) + 1 = 1 ∧
        valOf (((frameAt s).drop 5).take 5) + 1 = 2 ∧ argNat s 0 + 2 * 6 ≤ s.dmemBytes) ∧
    ((heldWith 2 3 2).acc.phase = .collecting ∧ 2 ≠ (heldWith 2 3 2).acc.threshold.toNat) ∧
    (2 = (heldWith 2 2 4).acc.threshold.toNat ∧ 2 ≠ (heldWith 2 2 4).acc.len.toNat) ∧
    (2 = (heldWith 1 2 2).acc.len.toNat ∧
      ∃ j : Fin 32, j.val < (heldWith 1 2 2).acc.count.toNat ∧ (heldWith 1 2 2).acc.xs[j].toNat = 1) ∧
    (2 = (heldWith 32 2 2).acc.threshold.toNat ∧ 2 = (heldWith 32 2 2).acc.len.toNat ∧
      (∀ j : Fin 32, j.val < (heldWith 32 2 2).acc.count.toNat → (heldWith 32 2 2).acc.xs[j].toNat ≠ 1) ∧
      (heldWith 32 2 2).acc.base.toNat + (heldWith 32 2 2).acc.count.toNat * 2 + 2 ≤ (heldWith 32 2 2).dmemBytes) ∧
    ((emptyWith 0xFFFF 6 []).acc.phase = .empty ∧ (emptyWith 0xFFFF 6 []).dmemBytes < 0xFFFF + 0 * 2 + 2) ∧
    ((emptyWith 0xFFFE 6 []).acc.phase = .empty ∧ 0xFFFE + 0 * 2 + 2 ≤ (emptyWith 0xFFFE 6 []).dmemBytes) := by
  decide +kernel

/-- One share is too few; two are enough; the region one byte too long and exactly fitting. -/
theorem witness_AccMergeReconstructsTheSession :
    (heldWith 32 2 2).acc.phase ≠ .ready ∧ twoShares.acc.phase = .ready ∧
    (let s : State := { twoShares with args := #v[0xFFFF, 0, 0, 0, 0, 0] }; s.dmemBytes < argNat s 0 + s.acc.len.toNat) ∧
    (let s : State := { twoShares with args := #v[0xFFFE, 0, 0, 0, 0, 0] }; argNat s 0 + s.acc.len.toNat ≤ s.dmemBytes) := by
  decide +kernel

end Sys2Proof.Tests
end

section
/-!
The register map as one table of word numbers (10_state.md R37): which register an offset selects, and
with it what a read and a write of each offset do.
-/

namespace Sys2Proof.Machine

/-! ## The register map -/

/-- The word number of a register: its offset of 10_state.md R37 divided by 4. -/
def Reg.wordNumber : Reg → Nat
  | .id => 0
  | .ctrl => 1
  | .status => 2
  | .cmd => 3
  | .errInfo => 4
  | .result0 => 5
  | .result1 => 6
  | .accStatus => 7
  | .accLen => 8
  | .accBase => 9
  | .arg i => 16 + i.val

/-- An offset selects a register exactly where its word number, bits [1:0] ignored, is the register's. -/
theorem regAt_eq_some_iff {off : BitVec 12} {r : Reg} :
    regAt off = some r ↔ off.toNat / 4 = r.wordNumber := by
  constructor
  · intro h
    unfold regAt at h
    split at h <;> cases h <;> assumption
  · intro h
    cases r with
    | arg i => fin_cases i <;> simp [regAt, h, Reg.wordNumber]
    | _ => simp [regAt, h, Reg.wordNumber]

/-- The reserved words of the map (10_state.md R47). -/
theorem regAt_reserved {off : BitVec 12}
    (h : (10 ≤ off.toNat / 4 ∧ off.toNat / 4 < 16) ∨ 22 ≤ off.toNat / 4) : regAt off = none := by
  cases hr : regAt off with
  | none => rfl
  | some r =>
    have hw := regAt_eq_some_iff.mp hr
    cases r <;> simp only [Reg.wordNumber] at hw <;> omega

theorem csrRead_of_wordNumber (s : State) {off : BitVec 12} (r : Reg) (h : off.toNat / 4 = r.wordNumber) :
    csrRead s off = readReg s r := by
  rw [csrRead, regAt_eq_some_iff.mpr h]

theorem csrRead_reserved (s : State) {off : BitVec 12} (h : regAt off = none) : csrRead s off = 0 := by
  rw [csrRead, h]

theorem csrWrite_of_wordNumber (s : State) {off : BitVec 12} (r : Reg) (v : Word)
    (h : off.toNat / 4 = r.wordNumber) : csrWrite s off v = writeReg s r v := by
  rw [csrWrite, regAt_eq_some_iff.mpr h]

theorem csrWrite_reserved (s : State) {off : BitVec 12} (v : Word) (h : regAt off = none) :
    csrWrite s off v = s := by
  rw [csrWrite, h]

/-! ## The composed register views -/

/-- Concatenation of fields as a sum: the upper field is scaled by the width of the lower one. -/
theorem toNat_append_eq_add {m n : Nat} (x : BitVec m) (y : BitVec n) :
    (x ++ y).toNat = x.toNat * 2 ^ n + y.toNat := by
  rw [BitVec.toNat_append, ← Nat.shiftLeft_add_eq_or_of_lt y.isLt, Nat.shiftLeft_eq]

theorem toNat_ctrlWord (s : State) : (ctrlWord s).toNat = s.irqEn.toNat := by
  rw [ctrlWord, toNat_append_eq_add, BitVec.toNat_ofBool]
  simp

theorem toNat_busy (s : State) : (busy s).toNat = if s.seq = .busy then 1 else 0 := by
  unfold busy
  cases s.seq <;> rfl

theorem toNat_statusWord (s : State) : (statusWord s).toNat =
    (if s.seq = .busy then 1 else 0) + 2 * s.done.toNat + 4 * s.err.toNat + 256 * s.errCode.toNat := by
  rw [← toNat_busy]
  simp only [statusWord, toNat_append_eq_add, BitVec.toNat_ofBool, BitVec.toNat_ofNat]
  omega

theorem toNat_accStatusWord (s : State) : (accStatusWord s).toNat =
    (accPhaseCode s.acc.phase).toNat + 256 * s.acc.count.toNat + 65536 * s.acc.threshold.toNat := by
  have hc : (s.acc.count.setWidth 8).toNat = s.acc.count.toNat :=
    BitVec.toNat_setWidth_of_le (by norm_num)
  have ht : (s.acc.threshold.setWidth 8).toNat = s.acc.threshold.toNat :=
    BitVec.toNat_setWidth_of_le (by norm_num)
  simp only [accStatusWord, toNat_append_eq_add, hc, ht, BitVec.toNat_ofNat]
  omega

/-! ## The writes of CTRL and STATUS -/

theorem writeCtrl_of_srst {v : Word} (s : State) (h : v.getLsbD 1 = true) :
    writeCtrl s v = softReset { s with irqEn := v.getLsbD 0 } :=
  if_pos h

theorem writeCtrl_of_no_srst {v : Word} (s : State) (h : v.getLsbD 1 = false) :
    writeCtrl s v = { s with irqEn := v.getLsbD 0 } :=
  if_neg (by simp only [h, Bool.false_eq_true, not_false_eq_true])

theorem writeStatus_eq (s : State) (v : Word) :
    writeStatus s v = { s with done := if v.getLsbD 1 then false else s.done } := by
  unfold writeStatus
  cases v.getLsbD 1 <;> rfl

end Sys2Proof.Machine
end

section
/-!
What the host sees of the registers: reads, writes, the issue and the interrupt output.
-/

namespace Sys2Proof.Machine

/-- Settles O5: word 3 of the map is CMD, and its write is `issue`, whose fields are its laws. -/
theorem cmdWriteIssuesTheWord : Obligations.CmdWriteIssuesTheWord := by
  intro s off v h
  refine ⟨issue s v, csrWrite_of_wordNumber s .cmd v h, ?_⟩
  simp only [issue_cmd, issue_seq, issue_done, issue_err, issue_errCode, issue_errInfo, issue_args,
    issue_result0, issue_result1, issue_irqEn, issue_acc, issue_rngIn, issue_rngDraws, issue_host,
    true_and, and_true]
  exact fun a => byteAt_congr (by rw [issue_mem]) (issue_powerOns s v)

/-- Settles O14: each offset by its word number, the composed registers by their sums of fields. -/
theorem registerMapReadsAsTabled : Obligations.RegisterMapReadsAsTabled := by
  intro s off
  have read (r : Reg) (h : off.toNat / 4 * 4 = r.wordNumber * 4) : csrRead s off = readReg s r :=
    csrRead_of_wordNumber s r (by omega)
  refine ⟨read .id, fun h => ?_, fun h => ?_, read .cmd, read .errInfo, read .result0, read .result1,
    fun h => ?_, read .accLen, read .accBase, fun i h => ?_, fun h h' => ?_, fun h => ?_⟩
  · rw [read .ctrl h]
    exact toNat_ctrlWord s
  · rw [read .status h]
    exact toNat_statusWord s
  · rw [read .accStatus h]
    refine (toNat_accStatusWord s).trans ?_
    cases s.acc.phase <;> rfl
  · exact read (.arg i) (by simp only [Reg.wordNumber]; omega)
  · exact csrRead_reserved s (regAt_reserved (by omega))
  · exact csrRead_reserved s (regAt_reserved (by omega))

/-- Settles O15: each offset by its word number; words 4 to 9 are read-only, the rest is reserved. -/
theorem registerWritesActAsTabled : Obligations.RegisterWritesActAsTabled := by
  intro s off v
  have write (r : Reg) (h : off.toNat / 4 * 4 = r.wordNumber * 4) : csrWrite s off v = writeReg s r v :=
    csrWrite_of_wordNumber s r v (by omega)
  refine ⟨fun i h => ?_, fun h hv => ?_, fun h => ?_, fun h => ?_⟩
  · rw [write (.arg i) (by simp only [Reg.wordNumber]; omega)]
    refine ⟨rfl, fun j => ?_⟩
    simp [writeReg, Vector.getElem_set, Fin.ext_iff, eq_comm]
  · rw [write .ctrl h]
    exact writeCtrl_of_no_srst s hv
  · rw [write .status h]
    exact writeStatus_eq s v
  · cases hr : regAt off with
    | none => exact csrWrite_reserved s v hr
    | some r =>
      have hw := regAt_eq_some_iff.mp hr
      rw [csrWrite_of_wordNumber s r v hw]
      cases r
      case ctrl | status | cmd | arg => simp only [Reg.wordNumber] at hw; omega
      all_goals rfl

/-- Settles O16: a read is `hostRead` of the state it reads, which touches the host only. -/
theorem hostReadsChangeNothing : Obligations.HostReadsChangeNothing :=
  fun _ _ _ => ⟨rfl, rfl⟩

/-! ## The interrupt output -/

@[simp] theorem settle_done (i : Instr) (s : State) (r : Except Raise Effect) :
    (settle i s r).done = true := by cases r <;> rfl

@[simp] theorem settle_irqEn (i : Instr) (s : State) (r : Except Raise Effect) :
    (settle i s r).irqEn = s.irqEn := by cases r <;> rfl

theorem irq_of_done {s : State} (h : s.done = true) : irq s = s.irqEn := by
  rw [irq, h, Bool.and_true]

theorem irq_of_not_done {s : State} (h : s.done = false) : irq s = false := by
  rw [irq, h, Bool.and_false]

/-- Every completion sets DONE and keeps CTRL (60_exceptions.md R305, R306). -/
theorem done_irqEn_of_exec {i : Instr} {s t : State} (h : exec i s = .next t) :
    t.done = true ∧ t.irqEn = s.irqEn := by
  rw [exec_eq_settle] at h
  cases h
  exact ⟨settle_done .., settle_irqEn ..⟩

theorem done_irqEn_of_sequencerStep {s t : State} (h : sequencerStep s = .next t) :
    t.done = true ∧ t.irqEn = s.irqEn := by
  rcases sequencerStep_cases h with ⟨i, e, -, -, rfl⟩ | ⟨i, r, -, -, rfl⟩ | ⟨r, -, rfl⟩ <;>
    exact ⟨rfl, rfl⟩

/-- Settles O20: IRQ is IRQ_EN where DONE is set and 0 where it is clear, so each clause says what its
event does to the two flags. -/
theorem interruptFollowsEnableAndDone : Obligations.InterruptFollowsEnableAndDone := by
  refine ⟨fun s => rfl, fun i s t h => ?_, fun s t h => ?_, fun s v => ?_, fun s => ?_, fun s => ?_,
    fun s => ?_, fun s hd => ?_⟩
  · obtain ⟨hd, he⟩ := done_irqEn_of_exec h
    exact ⟨hd, by rw [irq_of_done hd, he]⟩
  · obtain ⟨hd, he⟩ := done_irqEn_of_sequencerStep h
    exact ⟨hd, by rw [irq_of_done hd, he]⟩
  · rw [csrWrite_of_wordNumber s .cmd v rfl]
    exact irq_of_not_done (issue_done s v)
  · rw [csrWrite_of_wordNumber s .status 2 rfl]
    exact irq_of_not_done (by simp [writeReg, writeStatus_eq])
  · rw [csrWrite_of_wordNumber s .ctrl 2 rfl]
    have hw : writeReg s .ctrl 2 = softReset _ := writeCtrl_of_srst (v := 2) s rfl
    exact ⟨irq_of_not_done (by rw [hw, softReset_done]), irq_of_not_done (powerOnReset_done s)⟩
  · rw [csrWrite_of_wordNumber s .ctrl 0 rfl]
    exact ⟨rfl, rfl⟩
  · rw [csrWrite_of_wordNumber s .ctrl 1 rfl, irq_of_done]
    · rfl
    · exact hd

end Sys2Proof.Machine
end

section
/-!
What each agent's turn can do to the accumulator (10_state.md R52, 46_accumulator.md R266).
-/

namespace Sys2Proof.Machine

/-! ## The word of a decoded command -/

theorem opcodeOf_of_decodeOpcode {op : Nat} {i : Instr} (h : decodeOpcode op = .ok i) :
    op = (opcodeOf i).toNat := by
  unfold decodeOpcode at h
  split at h <;> cases h <;> rfl

/-- A word that selects a command is the command's own word (30_encoding.md R102, R110). -/
theorem eq_encode_of_decode {w : Word} {i : Instr} (h : decode w = .ok i) : w = encode i := by
  unfold decode at h
  split at h
  · next hz =>
    have hop := opcodeOf_of_decodeOpcode h
    have hlt := (opcodeOf i).isLt
    apply BitVec.eq_of_toNat_eq
    rw [encode, BitVec.toNat_setWidth_of_le (by norm_num)]
    omega
  · cases h

/-! ## Moves of the host -/

/-- A move of the host while Busy changes the host and the moves left, and nothing of the unit. -/
theorem hostMoveBusy_eq {s : State} (h : hostGoesFirst s = true) :
    ∃ a, hostMoveBusy s = { s with latency := s.latency - 1, host := a } := by
  obtain ⟨-, l, hl, hheld⟩ := (hostGoesFirst_iff s).mp h
  obtain ⟨a, ha⟩ := hostPerform_not_held { s with latency := s.latency - 1 } hheld
  have hcur : hostCurrent { s with latency := s.latency - 1 } = some l := hl
  exact ⟨a, by rw [hostMoveBusy, hostMove, hcur]; exact ha⟩

/-- A register write changes the accumulator only where it is a soft reset (10_state.md R39, R52). -/
theorem csrWrite_acc {s : State} {off : BitVec 12} {v : Word} (h : (csrWrite s off v).acc ≠ s.acc) :
    off.toNat / 4 = 1 ∧ v.getLsbD 1 = true := by
  cases hr : regAt off with
  | none => rw [csrWrite_reserved s v hr] at h; exact absurd rfl h
  | some r =>
    have hw := regAt_eq_some_iff.mp hr
    rw [csrWrite_of_wordNumber s r v hw] at h
    cases r
    case ctrl =>
      refine ⟨hw, ?_⟩
      by_contra hv
      exact h (by rw [writeReg, writeCtrl_of_no_srst s (by simpa using hv)])
    case status => exact absurd (by rw [writeReg, writeStatus_eq]) h
    all_goals exact absurd rfl h

/-- A line of the host program changes the accumulator only where it writes CTRL.SRST. -/
theorem hostPerform_acc {s : State} {l : HostInstr} (h : (hostPerform s l).acc ≠ s.acc) :
    ∃ off v, l = .wr off v ∧ off.toNat / 4 = 1 ∧ v.getLsbD 1 = true := by
  cases l with
  | wr off v => exact ⟨off, v, rfl, csrWrite_acc h⟩
  | mwr a b =>
    refine absurd ?_ h
    simp only [hostPerform, hostNext_acc, dmemWrite]
    split <;> rfl
  | rd | mrd | b | halt => exact absurd rfl h
  | bnz | bz =>
    refine absurd ?_ h
    simp only [hostPerform]
    split <;> rfl

theorem hostMove_acc {s : State} (h : (hostMove s).acc ≠ s.acc) :
    ∃ off v, hostCurrent s = some (.wr off v) ∧ off.toNat / 4 = 1 ∧ v.getLsbD 1 = true := by
  cases hc : hostCurrent s with
  | none => rw [hostMove, hc] at h; exact absurd rfl h
  | some l =>
    rw [hostMove, hc] at h
    obtain ⟨off, v, rfl, hoff, hv⟩ := hostPerform_acc h
    exact ⟨off, v, rfl, hoff, hv⟩

/-! ## Completions -/

/-- A completion changes the accumulator only where CMD is ACC_RESET or ACC_ADD. -/
theorem sequencerStep_acc {s t : State} (h : sequencerStep s = .next t) (ha : t.acc ≠ s.acc) :
    s.cmd = 0x60 ∨ s.cmd = 0x61 := by
  rcases sequencerStep_cases h with ⟨i, e, hd, hr, rfl⟩ | ⟨i, r, -, -, rfl⟩ | ⟨r, -, rfl⟩
  · rcases rule_acc hr with hn | ⟨rfl, -⟩ | ⟨rfl, -⟩
    · exact absurd (by rw [finish_acc, hn]; rfl) ha
    · exact .inl (eq_encode_of_decode hd)
    · exact .inr (eq_encode_of_decode hd)
  · exact absurd rfl ha
  · exact absurd rfl ha

/-- Accepting a share writes the index file at position count only (46_accumulator.md R261). -/
theorem accAccept_xs_of_ne (a : Acc) (L : Nat) (p : Parsed) (j : Fin 32) (h : j.val ≠ a.count.toNat) :
    (accAccept a L p).xs[j] = a.xs[j] :=
  Vector.getElem_setIfInBounds_ne j.isLt (Ne.symm h)

/-- Settles O23: each agent's turn by `step_cases`, and the index file by `accAccept_xs_of_ne`. -/
theorem accumulatorChangesOnlyByItsCommands : Obligations.AccumulatorChangesOnlyByItsCommands := by
  refine ⟨fun s t h ha => ?_, fun s t h j hj => ?_⟩
  · rcases step_cases h with ⟨hp, -⟩ | ⟨-, hs, rfl⟩ | ⟨-, -, hg, rfl⟩ | ⟨-, hs, -, hq⟩
    · exact .inl hp
    · exact .inr (.inr ⟨hs, hostMove_acc ha⟩)
    · obtain ⟨a, he⟩ := hostMoveBusy_eq hg
      exact absurd (by rw [he]) ha
    · exact .inr (.inl ⟨hs, sequencerStep_acc hq ha⟩)
  · rcases exec_cases .accAdd s with ⟨e, hr, hx⟩ | ⟨r, -, hx⟩
    · obtain rfl : finish .accAdd s e = t := by simpa [hx] using h
      rcases rule_acc hr with hn | ⟨hi, -⟩ | ⟨-, L, p, -, -, -, -, -, -, he⟩
      · rw [finish_acc, hn]; rfl
      · cases hi
      · rw [finish_acc, he]
        exact accAccept_xs_of_ne s.acc L p j hj
    · obtain rfl : raise s r = t := by simpa [hx] using h
      rfl

end Sys2Proof.Machine
end

section
/-!
The invariant of the machine, part by part: STATUS and ERRINFO, the accumulator, DMEM. Each part depends
on a few fields of the state only, and each operation of the unit keeps it.
-/

namespace Sys2Proof.Machine

/-! ## STATUS and ERRINFO -/

theorem StatusInv.congr {s t : State} (h : StatusInv s) (hseq : t.seq = s.seq) (hdone : t.done = s.done)
    (herr : t.err = s.err) (hcode : t.errCode = s.errCode) (hinfo : t.errInfo = s.errInfo) :
    StatusInv t where
  busyClear := by rw [hseq, hdone, herr, hcode, hinfo]; exact h.busyClear
  errIff := by rw [herr, hcode]; exact h.errIff
  codeLegal := by rw [hcode]; exact h.codeLegal
  infoZero := by rw [herr, hinfo]; exact h.infoZero

/-- A cleared error record meets the invariant in either phase: after an issue and after a reset. -/
theorem statusInv_of_clear {s : State} (hdone : s.done = false) (herr : s.err = false)
    (hcode : s.errCode = 0) (hinfo : s.errInfo = 0) : StatusInv s where
  busyClear _ := ⟨hdone, herr, hcode, hinfo⟩
  errIff := by simp [herr, hcode]
  codeLegal := by simp [hcode]
  infoZero _ := hinfo

theorem StatusInv.acknowledge {s : State} (h : StatusInv s) : StatusInv (acknowledge s) where
  busyClear hs := ⟨rfl, (h.busyClear hs).2⟩
  errIff := h.errIff
  codeLegal := h.codeLegal
  infoZero := h.infoZero

/-- The produced codes: every name but UnknownWord has one of 1 to 12 other than 6
(60_exceptions.md R301). -/
theorem errCodeOf_legal {n : ErrName} (h : n ≠ .unknownWord) :
    errCodeOf n ≠ 0 ∧ (errCodeOf n).toNat ≤ 12 ∧ errCodeOf n ≠ 6 := by
  cases n
  case unknownWord => exact absurd rfl h
  all_goals decide

theorem statusInv_raise (s : State) {r : Raise} (h : r.name ≠ .unknownWord) : StatusInv (raise s r) where
  busyClear hs := by cases hs
  errIff := by simpa using (errCodeOf_legal h).1
  codeLegal := (errCodeOf_legal h).2
  infoZero he := by cases he

theorem statusInv_finish (i : Instr) {s : State} (e : Effect) (h : s.errInfo = 0) :
    StatusInv (finish i s e) where
  busyClear hs := by cases hs
  errIff := by simp
  codeLegal := by simp
  infoZero _ := h

/-! ## The accumulator -/

theorem AccInv.congr {s t : State} (h : AccInv s) (hacc : t.acc = s.acc)
    (hsize : t.dmemBytes = s.dmemBytes) : AccInv t where
  emptyIff := hacc ▸ h.emptyIff
  readyIff := hacc ▸ h.readyIff
  countBound := hacc ▸ h.countBound
  distinct := hacc ▸ h.distinct
  indexRange := hacc ▸ h.indexRange
  unusedZero := hacc ▸ h.unusedZero
  emptyFields := hacc ▸ h.emptyFields
  thresholdRange := hacc ▸ h.thresholdRange
  lengthEven := hacc ▸ h.lengthEven
  storeInside := by rw [hacc, hsize]; exact h.storeInside

/-- A cleared accumulator meets the invariant whatever its base is. -/
theorem accInv_of_cleared {s : State} {b : Word} (h : s.acc = { Acc.reset with base := b }) :
    AccInv s := by
  have hi : accIndices s.acc = [] := by rw [h]; rfl
  constructor
  case distinct => simp [hi]
  case indexRange => simp [hi]
  all_goals simp [h, Acc.reset]

theorem toNat_accAccept_count {a : Acc} (L : Nat) (p : Parsed) (h : a.count.toNat < 32) :
    (accAccept a L p).count.toNat = a.count.toNat + 1 := by
  simp only [accAccept]
  bv_omega

theorem accAccept_phase (a : Acc) (L : Nat) (p : Parsed) : (accAccept a L p).phase =
    if max (accAccept a L p).threshold.toNat 2 ≤ (accAccept a L p).count.toNat then .ready
    else .collecting := rfl

theorem accAccept_phase_ne_empty (a : Acc) (L : Nat) (p : Parsed) : (accAccept a L p).phase ≠ .empty := by
  rw [accAccept_phase]
  split <;> simp

theorem accAccept_phase_eq_ready_iff (a : Acc) (L : Nat) (p : Parsed) : (accAccept a L p).phase = .ready ↔
    max (accAccept a L p).threshold.toNat 2 ≤ (accAccept a L p).count.toNat := by
  rw [accAccept_phase]
  split
  · next hle => exact iff_of_true rfl hle
  · next hlt => exact iff_of_false (by simp) hlt

/-- Accepting a share appends its index to the accepted ones. -/
theorem accIndices_accAccept {a : Acc} (L : Nat) (p : Parsed) (h : a.count.toNat < 32) :
    accIndices (accAccept a L p) = accIndices a ++ [BitVec.ofNat 8 p.idx] := by
  rw [accIndices, toNat_accAccept_count L p h, accAccept, Vector.toList_setIfInBounds, List.take_succ_eq_append_getElem (by simpa using h), List.take_set_of_le le_rfl,
    List.getElem_set_self, accIndices]

/-- What the session checks say of a share that passed them (46_accumulator.md R261). -/
theorem sessionCheck_none {a : Acc} {L : Nat} {p : Parsed} (h : sessionCheck a L p = none)
    (hp : a.phase = .collecting) :
    p.thr = a.threshold.toNat ∧ L = a.len.toNat ∧ BitVec.ofNat 8 p.idx ∉ accIndices a := by
  simp only [sessionCheck, hp] at h
  split at h; · cases h
  split at h; · cases h
  split at h; · cases h
  exact ⟨by omega, by omega, by assumption⟩

/-- A share that passed every check of ACC_ADD (46_accumulator.md R261), by its payload length and what
its frame carries. -/
structure Accepted (s : State) (L : Nat) (p : Parsed) : Prop where
  notReady : s.acc.phase ≠ .ready
  session : sessionCheck s.acc L p = none
  idxRange : 1 ≤ p.idx ∧ p.idx ≤ 32
  thrRange : 1 ≤ p.thr ∧ p.thr ≤ 32
  length : 2 ≤ L ∧ L % 2 = 0 ∧ L < 2 ^ 32
  slotInside : s.acc.base.toNat + s.acc.count.toNat * L + L ≤ s.dmemBytes

/-- What a command may do to the accumulator in a memory of at most 2^32 bytes: nothing, clear it, or
accept a share that passed every check. -/
theorem rule_acc_accepted {i : Instr} {s : State} {e : Effect} (hm : MemoryInv s)
    (h : ruleOf i s = .ok e) :
    e.acc = none ∨ (∃ b, e.acc = some { Acc.reset with base := b }) ∨
      ∃ L p, Accepted s L p ∧ e.acc = some (accAccept s.acc L p) := by
  rcases rule_acc h with hn | ⟨-, hr⟩ | ⟨-, L, p, hL, hp, hready, hsess, hin, hslot, ha⟩
  · exact .inl hn
  · exact .inr (.inl ⟨_, hr⟩)
  · obtain ⟨-, hL2, heven, hfit, -⟩ := payloadLen?_some hL
    obtain ⟨hi1, hi2, ht1, ht2, -⟩ := parseFrame_ok hp (by rw [length_symReads]; exact hfit)
    have hsize := hm.size.2
    exact .inr (.inr ⟨L, p,
      ⟨hready, hsess, ⟨hi1, hi2⟩, ⟨ht1, ht2⟩, ⟨hL2, heven, by omega⟩, hslot⟩, ha⟩)

/-- The session an accepted share belongs to: its first share opens it, and a later one agrees with it;
either way there is room for the share and its index is new. -/
theorem accAccept_session {s : State} {L : Nat} {p : Parsed} (h : AccInv s) (hs : Accepted s L p) :
    (accAccept s.acc L p).threshold.toNat = p.thr ∧ (accAccept s.acc L p).len.toNat = L ∧
      s.acc.count.toNat < max p.thr 2 ∧ BitVec.ofNat 8 p.idx ∉ accIndices s.acc := by
  have hthr := hs.thrRange.2
  have hlen := hs.length.2.2
  cases hp : s.acc.phase with
  | ready => exact absurd hp hs.notReady
  | empty =>
    have hcount : s.acc.count = 0 := h.emptyIff.mp hp
    refine ⟨?_, ?_, by simp [hcount], by simp [accIndices, hcount]⟩
    · simp only [accAccept, hp, if_true, BitVec.toNat_ofNat]
      omega
    · simp only [accAccept, hp, if_true, BitVec.toNat_ofNat]
      omega
  | collecting =>
    obtain ⟨ht, hl, hnew⟩ := sessionCheck_none hs.session hp
    have hnot : ¬ max s.acc.threshold.toNat 2 ≤ s.acc.count.toNat :=
      fun hle => hs.notReady (h.readyIff.mpr hle)
    refine ⟨?_, ?_, by rw [ht]; exact Nat.lt_of_not_le hnot, hnew⟩
    · simp [accAccept, hp, ht]
    · simp [accAccept, hp, hl]

/-- Accepting a share keeps the accumulator's invariant (46_accumulator.md R261 to R263). -/
theorem AccInv.accept {s t : State} {L : Nat} {p : Parsed} (h : AccInv s) (hs : Accepted s L p)
    (hacc : t.acc = accAccept s.acc L p) (hsize : t.dmemBytes = s.dmemBytes) : AccInv t := by
  obtain ⟨hT, hL, hroom, hnew⟩ := accAccept_session h hs
  have hthr := hs.thrRange
  have hc32 : s.acc.count.toNat < 32 := by omega
  have hcount := toNat_accAccept_count L p hc32
  have hind := accIndices_accAccept L p hc32
  have hne := accAccept_phase_ne_empty s.acc L p
  have hidx : (BitVec.ofNat 8 p.idx).toNat = p.idx := by
    have := hs.idxRange.2
    rw [BitVec.toNat_ofNat]
    omega
  constructor <;> rw [hacc]
  case emptyIff =>
    refine iff_of_false hne fun h0 => ?_
    rw [h0] at hcount
    simp at hcount
  case readyIff => exact accAccept_phase_eq_ready_iff s.acc L p
  case countBound => rw [hT, hcount]; exact hroom
  case distinct =>
    rw [hind, ← List.concat_eq_append, List.nodup_concat]
    exact ⟨hnew, h.distinct⟩
  case indexRange =>
    intro x hx
    rw [hind, List.mem_append, List.mem_singleton] at hx
    rcases hx with hx | rfl
    · exact h.indexRange x hx
    · rw [hidx]; exact hs.idxRange
  case unusedZero =>
    intro j hj
    rw [hcount] at hj
    rw [accAccept_xs_of_ne s.acc L p j (by omega)]
    exact h.unusedZero j (by omega)
  case emptyFields => exact fun hp => absurd hp hne
  case thresholdRange => exact fun _ => by rw [hT]; exact hthr
  case lengthEven => exact fun _ => by rw [hL]; exact ⟨hs.length.1, hs.length.2.1⟩
  case storeInside =>
    intro _
    rw [hL, hcount, hsize, Nat.succ_mul, ← Nat.add_assoc]
    exact hs.slotInside

theorem accInv_finish {i : Instr} {s : State} {e : Effect} (h : Inv s) (hr : ruleOf i s = .ok e) :
    AccInv (finish i s e) := by
  rcases rule_acc_accepted h.memory hr with hn | ⟨b, hb⟩ | ⟨L, p, hs, ha⟩
  · exact h.acc.congr (by rw [finish_acc, hn]; rfl) rfl
  · exact accInv_of_cleared (b := b) (by rw [finish_acc, hb]; rfl)
  · exact h.acc.accept hs (by rw [finish_acc, ha]; rfl) rfl

/-! ## DMEM -/

theorem MemoryInv.congr {s t : State} (h : MemoryInv s) (hmem : t.mem = s.mem)
    (hsize : t.dmemBytes = s.dmemBytes) : MemoryInv t where
  canonical := by rw [hmem]; exact h.canonical
  inside := by rw [hmem, hsize]; exact h.inside
  size := by rw [hsize]; exact h.size

theorem memoryInv_finish {i : Instr} {s : State} {e : Effect} (h : MemoryInv s)
    (hr : ruleOf i s = .ok e) : MemoryInv (finish i s e) where
  canonical := Memory.wf_applyWrites e.writes h.canonical
  inside := Memory.below_applyWrites (n := s.dmemBytes) e.writes (rule_writes_inside hr) h.inside
  size := h.size

theorem MemoryInv.powerOnReset {s : State} (h : MemoryInv s) : MemoryInv (powerOnReset s) where
  canonical := rfl
  inside := rfl
  size := h.size

end Sys2Proof.Machine
end

section
/-!
Every step keeps the invariant: the resets, a completion, and each move of the host.
-/

namespace Sys2Proof.Machine

/-! ## Resets -/

theorem inv_softReset {s : State} (h : MemoryInv s) : Inv (softReset s) where
  status := statusInv_of_clear rfl rfl rfl rfl
  acc := accInv_of_cleared (b := 0) rfl
  memory := h.congr rfl rfl

theorem inv_powerOnReset {s : State} (h : MemoryInv s) : Inv (powerOnReset s) where
  status := statusInv_of_clear rfl rfl rfl rfl
  acc := accInv_of_cleared (b := 0) rfl
  memory := h.powerOnReset

/-! ## Moves of the host -/

/-- The invariant says nothing of the host and of the moves it has left. -/
theorem Inv.withHost {s : State} (h : Inv s) (n : Nat) (a : HostAgent) :
    Inv { s with latency := n, host := a } where
  status := h.status.congr rfl rfl rfl rfl rfl
  acc := h.acc.congr rfl rfl
  memory := h.memory.congr rfl rfl

theorem Inv.writeReg {s : State} (h : Inv s) (r : Reg) (v : Word) : Inv (writeReg s r v) := by
  cases r with
  | ctrl =>
    show Inv (writeCtrl s v)
    cases hv : v.getLsbD 1 with
    | true =>
      rw [writeCtrl_of_srst s hv]
      exact inv_softReset (h.memory.congr rfl rfl)
    | false =>
      rw [writeCtrl_of_no_srst s hv]
      exact ⟨h.status.congr rfl rfl rfl rfl rfl, h.acc.congr rfl rfl, h.memory.congr rfl rfl⟩
  | status =>
    show Inv (writeStatus s v)
    unfold writeStatus
    split
    · exact ⟨h.status.acknowledge, h.acc.congr rfl rfl, h.memory.congr rfl rfl⟩
    · exact h
  | cmd => exact ⟨statusInv_of_clear rfl rfl rfl rfl, h.acc.congr rfl rfl, h.memory.congr rfl rfl⟩
  | arg => exact ⟨h.status.congr rfl rfl rfl rfl rfl, h.acc.congr rfl rfl, h.memory.congr rfl rfl⟩
  | id | errInfo | result0 | result1 | accStatus | accLen | accBase => exact h

theorem Inv.csrWrite {s : State} (h : Inv s) (off : BitVec 12) (v : Word) : Inv (csrWrite s off v) := by
  unfold Machine.csrWrite
  split
  · exact h.writeReg _ v
  · exact h

theorem Inv.dmemWrite {s : State} (h : Inv s) (a : Nat) (b : Byte) : Inv (dmemWrite s a b) := by
  unfold Machine.dmemWrite
  split
  · next ha =>
    exact ⟨h.status.congr rfl rfl rfl rfl rfl, h.acc.congr rfl rfl,
      ⟨Memory.wf_set a b h.memory.canonical, Memory.below_set b ha h.memory.inside, h.memory.size⟩⟩
  · exact h

theorem Inv.hostPerform {s : State} (h : Inv s) (l : HostInstr) : Inv (hostPerform s l) := by
  cases l with
  | wr off v => exact (h.csrWrite off v).withHost _ _
  | mwr a b => exact (h.dmemWrite a b).withHost _ _
  | halt => exact h
  | rd | mrd | b => exact h.withHost _ _
  | bnz | bz =>
    simp only [Machine.hostPerform]
    split <;> exact h.withHost _ _

theorem Inv.hostMove {s : State} (h : Inv s) : Inv (hostMove s) := by
  unfold Machine.hostMove
  split
  · exact h.hostPerform _
  · exact h

/-! ## Completions -/

theorem Inv.raise {s : State} (h : Inv s) {r : Raise} (hr : r.name ≠ .unknownWord) :
    Inv (raise s r) where
  status := statusInv_raise s hr
  acc := h.acc.congr rfl rfl
  memory := h.memory.congr rfl rfl

/-- A completion starts Busy, so ERRINFO is 0 before it, and one without error leaves it so. -/
theorem inv_sequencerStep {s t : State} (h : Inv s) (hbusy : s.seq = .busy)
    (hstep : sequencerStep s = .next t) : Inv t := by
  obtain ⟨-, -, -, hinfo⟩ := h.status.busyClear hbusy
  rcases sequencerStep_cases hstep with ⟨i, e, -, hr, rfl⟩ | ⟨i, r, -, hr, rfl⟩ | ⟨r, -, rfl⟩
  · exact ⟨statusInv_finish i e hinfo, accInv_finish h hr, memoryInv_finish h.memory hr⟩
  · exact h.raise (rule_raises hr).1
  · exact h.raise (by simp)

/-- Settles O21, by whose turn the step is. -/
theorem stepKeepsTheInvariant : Obligations.StepKeepsTheInvariant := by
  intro s t h hstep
  rcases step_cases hstep with ⟨-, rfl⟩ | ⟨-, -, rfl⟩ | ⟨-, -, -, rfl⟩ | ⟨-, hbusy, -, hq⟩
  · exact inv_powerOnReset h.memory
  · exact h.hostMove
  · exact (h.withHost (s.latency - 1) s.host).hostMove
  · exact inv_sequencerStep h hbusy hq

end Sys2Proof.Machine
end

section
/-!
The host's bus (20_memory.md R77, R80): what a DMEM access does on each side of DMEM_BYTES, and whose turn a
step is while a line of the host program waits.
-/

namespace Sys2Proof.Machine

/-! ## DMEM accesses of the host -/

theorem dmemRead_of_lt {s : State} {a : Nat} (h : a < s.dmemBytes) : dmemRead s a = byteAt s a :=
  if_pos h

theorem dmemRead_of_le {s : State} {a : Nat} (h : s.dmemBytes ≤ a) : dmemRead s a = 0 :=
  if_neg (Nat.not_lt.mpr h)

theorem dmemWrite_of_lt {s : State} {a : Nat} (b : Byte) (h : a < s.dmemBytes) :
    dmemWrite s a b = { s with mem := Memory.set s.mem a b } :=
  if_pos h

theorem dmemWrite_of_le {s : State} {a : Nat} (b : Byte) (h : s.dmemBytes ≤ a) : dmemWrite s a b = s :=
  if_neg (Nat.not_lt.mpr h)

@[simp] theorem dmemWrite_dmemBytes (s : State) (a : Nat) (b : Byte) :
    (dmemWrite s a b).dmemBytes = s.dmemBytes := by
  unfold dmemWrite
  split <;> rfl

theorem byteAt_dmemWrite_same {s : State} {a : Nat} (b : Byte) (h : a < s.dmemBytes) :
    byteAt (dmemWrite s a b) a = b := by
  rw [dmemWrite_of_lt b h]
  exact byteAt_of_get? (by rw [Memory.get?_set, if_pos rfl])

theorem byteAt_dmemWrite_of_ne (s : State) {a c : Nat} (b : Byte) (hc : c ≠ a) :
    byteAt (dmemWrite s a b) c = byteAt s c := by
  unfold dmemWrite
  split
  · exact byteAt_congr (by rw [Memory.get?_set, if_neg hc.symm]) rfl
  · rfl

/-- Settles O17: the two sides of DMEM_BYTES by the rules of a read and of a write. -/
theorem hostDmemAccessIsRangeChecked : Obligations.HostDmemAccessIsRangeChecked := by
  refine fun s a b => ⟨fun h => ⟨dmemRead_of_lt h, ?_, fun c => byteAt_dmemWrite_of_ne s b, ?_⟩,
    fun h => ⟨dmemRead_of_le h, dmemWrite_of_le b h⟩⟩
  · rw [dmemRead_of_lt (by rwa [dmemWrite_dmemBytes]), byteAt_dmemWrite_same b h]
  · rw [dmemWrite_of_lt b h]

/-! ## Whose turn a step is -/

theorem step_of_idle {s : State} (hp : s.powerOnPin = false) (hs : s.seq = .idle) :
    step s = .next (hostMove s) := by
  simp [step, hp, hs]

theorem step_of_hostGoesFirst {s : State} (hp : s.powerOnPin = false) (hs : s.seq = .busy)
    (hg : hostGoesFirst s = true) : step s = .next (hostMoveBusy s) := by
  simp [step, hp, hs, hg]

theorem step_of_not_hostGoesFirst {s : State} (hp : s.powerOnPin = false) (hs : s.seq = .busy)
    (hg : hostGoesFirst s = false) : step s = sequencerStep s := by
  simp [step, hp, hs, hg]

theorem hostMove_of_current {s : State} {l : HostInstr} (h : hostCurrent s = some l) :
    hostMove s = hostPerform s l := by
  rw [hostMove, h]

/-! ## The hold while Busy -/

/-- The reads R80 lets through, by word number: STATUS is word 2 and ID is word 0. -/
theorem heldWhileBusy_rd_eq_false_iff (off : BitVec 12) :
    heldWhileBusy (.rd off) = false ↔ off.toNat / 4 = 2 ∨ off.toNat / 4 = 0 := by
  have hstatus : regAt off = some .status ↔ off.toNat / 4 = 2 := regAt_eq_some_iff
  have hid : regAt off = some .id ↔ off.toNat / 4 = 0 := regAt_eq_some_iff
  simp [heldWhileBusy, ← hstatus, ← hid, or_iff_not_imp_left]

theorem hostGoesFirst_of_held {s : State} {l : HostInstr} (hl : hostCurrent s = some l)
    (hheld : heldWhileBusy l = true) : hostGoesFirst s = false := by
  rw [Bool.eq_false_iff, Ne, hostGoesFirst_iff]
  rintro ⟨-, l', hl', hfree⟩
  obtain rfl : l = l' := Option.some.inj (hl.symm.trans hl')
  simp [hheld] at hfree

@[simp] theorem settle_seq (i : Instr) (s : State) (r : Except Raise Effect) :
    (settle i s r).seq = .idle := by cases r <;> rfl

@[simp] theorem settle_host (i : Instr) (s : State) (r : Except Raise Effect) :
    (settle i s r).host = s.host := by cases r <;> rfl

/-- The sequencer's turn always completes the command, legal or not, and leaves the host alone. -/
theorem sequencerStep_completes (s : State) :
    ∃ t, sequencerStep s = .next t ∧ t.seq = .idle ∧ t.host = s.host := by
  unfold sequencerStep
  cases decode s.cmd with
  | ok i => exact ⟨_, exec_eq_settle i s, settle_seq .., settle_host ..⟩
  | error r => exact ⟨_, rfl, raise_seq .., raise_host ..⟩

/-- The host moves left are no register: no read depends on them. -/
theorem csrRead_withLatency (s : State) (n : Nat) (off : BitVec 12) :
    csrRead { s with latency := n } off = csrRead s off := by
  unfold csrRead
  cases regAt off with
  | none => rfl
  | some r => cases r <;> rfl

theorem hostMoveBusy_of_rd {s : State} {off : BitVec 12} (h : hostCurrent s = some (.rd off)) :
    hostMoveBusy s = { s with latency := s.latency - 1,
                              host := { s.host with pc := s.host.pc + 1, lastRead := csrRead s off } } := by
  have hl : hostCurrent { s with latency := s.latency - 1 } = some (.rd off) := h
  rw [hostMoveBusy, hostMove_of_current hl, hostPerform, csrRead_withLatency]
  rfl

/-- Settles O6: a held line gives the turn to the sequencer, a read of STATUS or ID with moves left keeps it
for the host, and while Idle the turn is the host's. -/
theorem accessesAreHeldWhileBusy : Obligations.AccessesAreHeldWhileBusy := by
  refine ⟨fun _ _ => rfl, fun _ _ => rfl, fun _ => rfl, heldWhileBusy_rd_eq_false_iff,
    fun s l hp hs hl hheld => ?held, fun s off hp hs hlat hl hoff => ?free, fun s l hp hs hl => ?idle⟩
  case held =>
    rw [step_of_not_hostGoesFirst hp hs (hostGoesFirst_of_held hl hheld)]
    exact sequencerStep_completes s
  case free =>
    have hfree := (heldWhileBusy_rd_eq_false_iff off).mpr hoff
    have hg : hostGoesFirst s = true := (hostGoesFirst_iff s).mpr ⟨hlat, _, hl, hfree⟩
    rw [step_of_hostGoesFirst hp hs hg, hostMoveBusy_of_rd hl]
  case idle => rw [step_of_idle hp hs, hostMove_of_current hl]

end Sys2Proof.Machine
end

section
/-!
The command words (30_encoding.md R100 to R105): which words are legal, which command each selects, and the
completion of an illegal one.
-/

namespace Sys2Proof.Machine

/-! ## Opcodes -/

theorem decodeOpcode_opcodeOf (i : Instr) : decodeOpcode (opcodeOf i).toNat = .ok i := by
  cases i <;> rfl

theorem opcodeOf_mem_assignedOpcodes (i : Instr) : (opcodeOf i).toNat ∈ assignedOpcodes := by
  cases i <;> decide

theorem decodeOpcode_isOk_of_mem : ∀ op ∈ assignedOpcodes, (decodeOpcode op).isOk = true := by
  decide

theorem exists_decodeOpcode_iff (op : Nat) :
    (∃ i, decodeOpcode op = .ok i) ↔ op ∈ assignedOpcodes := by
  constructor
  · rintro ⟨i, h⟩
    rw [opcodeOf_of_decodeOpcode h]
    exact opcodeOf_mem_assignedOpcodes i
  · intro h
    have hok := decodeOpcode_isOk_of_mem op h
    cases hd : decodeOpcode op with
    | ok i => exact ⟨i, rfl⟩
    | error r => rw [hd] at hok; cases hok

/-! ## Command words -/

theorem decode_of_mbzZero {w : Word} (h : w.toNat / 256 = 0) :
    decode w = decodeOpcode (w.toNat % 256) :=
  if_pos h

theorem decode_of_mbzNonzero {w : Word} (h : w.toNat / 256 ≠ 0) : decode w = .error .mbzNonzero :=
  if_neg h

theorem toNat_encode (i : Instr) : (encode i).toNat = (opcodeOf i).toNat :=
  BitVec.toNat_setWidth_of_le (by norm_num)

@[simp] theorem decode_encode (i : Instr) : decode (encode i) = .ok i := by
  have hlt : (encode i).toNat < 256 := by rw [toNat_encode]; exact (opcodeOf i).isLt
  rw [decode_of_mbzZero (Nat.div_eq_of_lt hlt), Nat.mod_eq_of_lt hlt, toNat_encode,
    decodeOpcode_opcodeOf]

/-- The legal words are those with MBZ zero and an assigned OPCODE (30_encoding.md R102, R103). -/
theorem exists_decode_iff (w : Word) :
    (∃ i, decode w = .ok i) ↔ w.toNat / 256 = 0 ∧ w.toNat % 256 ∈ assignedOpcodes := by
  by_cases hz : w.toNat / 256 = 0
  · rw [decode_of_mbzZero hz, exists_decodeOpcode_iff]
    exact (and_iff_right hz).symm
  · simp [decode_of_mbzNonzero hz, hz]

/-- Settles O2: the two directions of the round trip, each by the one table of opcodes. -/
theorem decodeAndEncodeAgree : Obligations.DecodeAndEncodeAgree :=
  ⟨decode_encode, fun _ _ h => (eq_encode_of_decode h).symm⟩

/-- Settles O1: the legal words by their two fields; each row of the table is the round trip of its
command. -/
theorem wordSelectsCommandIffInTable : Obligations.WordSelectsCommandIffInTable :=
  ⟨exists_decode_iff, decode_encode .gfAdd, decode_encode .gfSub, decode_encode .gfMul,
    decode_encode .gfDiv, decode_encode .sssSplit, decode_encode .sssRecon, decode_encode .bpPack,
    decode_encode .bpUnpack, decode_encode .sfFrame, decode_encode .sfUnframe, decode_encode .ckB39Enc,
    decode_encode .ckB39Dec, decode_encode .kdfSlip, decode_encode .kdfBip, decode_encode .accReset,
    decode_encode .accAdd, decode_encode .accMerge⟩

/-! ## The completion of an illegal word -/

/-- It is the sequencer's turn where no move of the host is left or its line, if any, is held
(assumption log 5). -/
theorem hostGoesFirst_eq_false {s : State}
    (h : s.latency = 0 ∨ ∀ l, hostCurrent s = some l → heldWhileBusy l = true) :
    hostGoesFirst s = false := by
  rw [Bool.eq_false_iff, Ne, hostGoesFirst_iff]
  rintro ⟨hlat, l, hl, hfree⟩
  rcases h with h0 | hheld
  · omega
  · simp [hheld l hl] at hfree

theorem sequencerStep_of_illegal {s : State} (h : ¬ ∃ i, decode s.cmd = .ok i) :
    sequencerStep s = .next (raise s ⟨.illegalCommand, s.cmd.toNat⟩) := by
  unfold sequencerStep
  cases hd : decode s.cmd with
  | ok i => exact absurd ⟨i, hd⟩ h
  | error r => rfl

/-- ERRINFO takes the whole word: it is 32 bits wide (30_encoding.md R105). -/
theorem raise_illegalCommand (s : State) : raise s ⟨.illegalCommand, s.cmd.toNat⟩ =
    { s with seq := .idle, done := true, err := true, errCode := 9, errInfo := s.cmd } := by
  simp [raise, errCodeOf]

/-- Settles O4: the turn is the sequencer's, no command is decoded, so IllegalCommand is raised. -/
theorem illegalWordCompletesWithIllegalCommand :
    Obligations.IllegalWordCompletesWithIllegalCommand := by
  intro s hp hs hturn hbad
  have hill : ¬ ∃ i, decode s.cmd = .ok i := by
    rw [exists_decode_iff, not_and_or]
    exact hbad
  rw [step_of_not_hostGoesFirst hp hs (hostGoesFirst_eq_false hturn), sequencerStep_of_illegal hill,
    raise_illegalCommand]

end Sys2Proof.Machine
end

section
/-!
The arithmetic of GF(256) (40_field.md R130 to R136). The product is linear over ⊕ in each operand, so its
commutativity and associativity are facts about the eight bytes of one bit; every nonzero byte is a power of
the generator 3, as the tables list them, so its 255th power is 1 and its inverse the 254th.
-/

namespace Sys2Proof.Machine

/-! ## Linearity over ⊕ -/

/-- A conditional ⊕ of two accumulators at once: the step of both loops of `gf_mul`, by the bits that decide
it. -/
theorem ite_xor_ite {n : Nat} (b c : Bool) (p q x : BitVec n) :
    (if b ^^ c then (p ^^^ q) ^^^ x else p ^^^ q) =
      (if b then p ^^^ x else p) ^^^ (if c then q ^^^ x else q) := by
  have hboth : (p ^^^ x) ^^^ (q ^^^ x) = (p ^^^ q) ^^^ (x ^^^ x) := by ac_rfl
  have hleft : (p ^^^ x) ^^^ q = (p ^^^ q) ^^^ x := by ac_rfl
  have hright : p ^^^ (q ^^^ x) = (p ^^^ q) ^^^ x := by ac_rfl
  cases b <;> cases c <;> simp [hboth, hleft, hright]

theorem clmul_xor (a b c : Byte) : clmul a (b ^^^ c) = clmul a b ^^^ clmul a c := by
  unfold clmul
  refine List.foldl_hom₂ _ (· ^^^ ·) _ _ _ (0 : BitVec 15) (0 : BitVec 15) fun p q i => ?_
  rw [BitVec.getLsbD_xor, ite_xor_ite]

theorem xor_clmul (a b c : Byte) : clmul (a ^^^ b) c = clmul a c ^^^ clmul b c := by
  unfold clmul
  refine List.foldl_hom₂ _ (· ^^^ ·) _ _ _ (0 : BitVec 15) (0 : BitVec 15) fun p q i => ?_
  rw [BitVec.setWidth_xor, BitVec.shiftLeft_xor_distrib]
  split <;> ac_rfl

theorem gfReduce_xor (p q : BitVec 15) : gfReduce (p ^^^ q) = gfReduce p ^^^ gfReduce q := by
  rw [gfReduce, gfReduce, gfReduce, ← BitVec.setWidth_xor]
  refine congrArg _ (List.foldl_hom₂ _ (· ^^^ ·) _ _ _ p q fun p q i => ?_)
  rw [BitVec.getLsbD_xor, ite_xor_ite]

/-- The product distributes over ⊕ (40_field.md R134). -/
theorem gfMul_xor (a b c : Byte) : gfMul a (b ^^^ c) = gfMul a b ^^^ gfMul a c := by
  rw [gfMul, clmul_xor, gfReduce_xor, gfMul, gfMul]

theorem xor_gfMul (a b c : Byte) : gfMul (a ^^^ b) c = gfMul a c ^^^ gfMul b c := by
  rw [gfMul, xor_clmul, gfReduce_xor, gfMul, gfMul]

theorem gfMul_zero (a : Byte) : gfMul a 0 = 0 := by
  simpa using gfMul_xor a 0 0

theorem zero_gfMul (a : Byte) : gfMul 0 a = 0 := by
  simpa using xor_gfMul 0 0 a

/-! ## The ring laws, from the bytes of one bit -/

theorem xorSum_and_twoPow : ∀ a : Byte, xorSum (fun i => a &&& BitVec.twoPow 8 i) 8 = a := by
  decide +kernel

/-- What holds of 0 and of the bytes of one bit and is kept by ⊕ holds of every byte. -/
theorem byte_induction {P : Byte → Prop} (zero : P 0) (bit : ∀ i < 8, P (BitVec.twoPow 8 i))
    (xor : ∀ a b, P a → P b → P (a ^^^ b)) (a : Byte) : P a := by
  have hsum : ∀ n ≤ 8, P (xorSum (fun i => a &&& BitVec.twoPow 8 i) n) := by
    intro n hn
    induction n with
    | zero => exact zero
    | succ n ih =>
      refine xor _ _ (ih (by omega)) ?_
      beta_reduce
      rw [BitVec.and_twoPow]
      split
      · exact bit n hn
      · exact zero
  rw [← xorSum_and_twoPow a]
  exact hsum 8 le_rfl

theorem gfMul_one (a : Byte) : gfMul a 1 = a := by
  have hbits : ∀ i < 8, gfMul (BitVec.twoPow 8 i) 1 = BitVec.twoPow 8 i := by decide
  induction a using byte_induction with
  | zero => rfl
  | bit i hi => exact hbits i hi
  | xor x y hx hy => rw [xor_gfMul, hx, hy]

theorem gfMul_comm_bits : ∀ i < 8, ∀ j < 8, gfMul (BitVec.twoPow 8 i) (BitVec.twoPow 8 j) =
    gfMul (BitVec.twoPow 8 j) (BitVec.twoPow 8 i) := by
  decide +kernel

theorem gfMul_comm (a b : Byte) : gfMul a b = gfMul b a := by
  induction a using byte_induction with
  | zero => rw [zero_gfMul, gfMul_zero]
  | xor x y hx hy => rw [xor_gfMul, gfMul_xor, hx, hy]
  | bit i hi =>
    induction b using byte_induction with
    | zero => rw [zero_gfMul, gfMul_zero]
    | xor x y hx hy => rw [xor_gfMul, gfMul_xor, hx, hy]
    | bit j hj => exact gfMul_comm_bits i hi j hj

theorem one_gfMul (a : Byte) : gfMul 1 a = a := by
  rw [gfMul_comm, gfMul_one]

theorem gfMul_assoc_bits : ∀ i < 8, ∀ j < 8, ∀ k < 8,
    gfMul (gfMul (BitVec.twoPow 8 i) (BitVec.twoPow 8 j)) (BitVec.twoPow 8 k) =
      gfMul (BitVec.twoPow 8 i) (gfMul (BitVec.twoPow 8 j) (BitVec.twoPow 8 k)) := by
  decide +kernel

theorem gfMul_assoc (a b c : Byte) : gfMul (gfMul a b) c = gfMul a (gfMul b c) := by
  induction a using byte_induction with
  | zero => simp only [zero_gfMul]
  | xor x y hx hy => simp only [xor_gfMul, hx, hy]
  | bit i hi =>
    induction b using byte_induction with
    | zero => simp only [zero_gfMul, gfMul_zero]
    | xor x y hx hy => simp only [xor_gfMul, gfMul_xor, hx, hy]
    | bit j hj =>
      induction c using byte_induction with
      | zero => simp only [gfMul_zero]
      | xor x y hx hy => simp only [gfMul_xor, hx, hy]
      | bit k hk => exact gfMul_assoc_bits i hi j hj k hk

/-! ## Powers -/

theorem gfPow_zero (b : Byte) : gfPow b 0 = 1 := rfl

theorem gfPow_succ (b : Byte) (n : Nat) : gfPow b (n + 1) = gfMul (gfPow b n) b := rfl

theorem gfPow_add (b : Byte) (m n : Nat) : gfPow b (m + n) = gfMul (gfPow b m) (gfPow b n) := by
  induction n with
  | zero => exact (gfMul_one _).symm
  | succ n ih => rw [← Nat.add_assoc, gfPow_succ, ih, gfMul_assoc, gfPow_succ]

theorem gfPow_mul (b : Byte) (m n : Nat) : gfPow b (m * n) = gfPow (gfPow b m) n := by
  induction n with
  | zero => rfl
  | succ n ih => rw [Nat.mul_succ, gfPow_add, ih, gfPow_succ]

theorem one_gfPow (n : Nat) : gfPow 1 n = 1 := by
  induction n with
  | zero => rfl
  | succ n ih => rw [gfPow_succ, ih, gfMul_one]

/-! ## The tables -/

theorem length_expTable : expTable.length = 256 := by decide +kernel

theorem length_logTable : logTable.length = 256 := by decide +kernel

theorem expAt_eq_getElem {i : Nat} (h : i < expTable.length) : expAt i = expTable[i] :=
  List.getD_eq_getElem _ _ h

/-- Each entry of EXP is the one before it times the generator. -/
theorem expTable_isChain : expTable.IsChain fun a b => b = gfMul a 3 := by
  decide +kernel

theorem expAt_succ {i : Nat} (h : i < 255) : expAt (i + 1) = gfMul (expAt i) 3 := by
  have hlen : i + 1 < expTable.length := by rw [length_expTable]; omega
  rw [expAt_eq_getElem hlen, expAt_eq_getElem (by omega)]
  exact List.isChain_iff_getElem.mp expTable_isChain i _

/-- EXP lists the powers of the generator 3 (40_field.md R136). -/
theorem expAt_eq_gfPow {i : Nat} (h : i ≤ 255) : expAt i = gfPow 3 i := by
  induction i with
  | zero => rfl
  | succ i ih => rw [expAt_succ h, ih (by omega), gfPow_succ]

theorem expAt_255 : expAt 255 = 1 := by decide +kernel

theorem gfPow_three_255 : gfPow 3 255 = 1 := by
  rw [← expAt_eq_gfPow le_rfl, expAt_255]

/-- The order of the generator divides 255: an exponent counts modulo 255. -/
theorem expAt_mod (n : Nat) : expAt (n % 255) = gfPow 3 n := by
  rw [expAt_eq_gfPow (by omega)]
  conv_rhs => rw [← Nat.mod_add_div n 255, gfPow_add, gfPow_mul, gfPow_three_255, one_gfPow, gfMul_one]

theorem expAt_ne_zero {i : Nat} (h : i < 255) : expAt i ≠ 0 := by
  have hlen : i < expTable.length := by rw [length_expTable]; omega
  have hmem : expAt i ∈ expTable := expAt_eq_getElem hlen ▸ List.getElem_mem hlen
  exact ne_of_mem_of_not_mem hmem (by decide +kernel)

/-- Every exponent of EXP is found again in LOG. -/
theorem map_logAt_expTable : (expTable.take 255).map logAt = List.range 255 := by
  decide +kernel

theorem logAt_expAt {i : Nat} (h : i < 255) : logAt (expAt i) = i := by
  have hlen : i < expTable.length := by rw [length_expTable]; omega
  have hi := congrArg (·[i]?) map_logAt_expTable
  simpa [h, hlen, expAt_eq_getElem] using hi

/-- The 255 powers of the generator that EXP lists are distinct, and there are 255 nonzero bytes: each is
one of them. -/
theorem exists_expAt_eq {a : Byte} (h : a ≠ 0) : ∃ i < 255, expAt i = a := by
  have hinj : Set.InjOn expAt (Finset.range 255 : Set Nat) := by
    intro i hi j hj hij
    rw [Finset.coe_range, Set.mem_Iio] at hi hj
    rw [← logAt_expAt hi, hij, logAt_expAt hj]
  have hmaps : Set.MapsTo expAt (Finset.range 255 : Set Nat) (Finset.univ.erase (0 : Byte)) := by
    intro i hi
    simpa using expAt_ne_zero (by simpa using hi)
  have hcard : (Finset.univ.erase (0 : Byte)).card ≤ (Finset.range 255).card := by
    simp [← FinEnum.card_eq_fintypeCard]
  have hsurj := Finset.surjOn_of_injOn_of_card_le expAt hmaps hinj hcard
  obtain ⟨i, hi, rfl⟩ := hsurj (by simpa using h)
  exact ⟨i, by simpa using hi, rfl⟩

theorem logAt_lt {a : Byte} (h : a ≠ 0) : logAt a < 255 := by
  obtain ⟨i, hi, rfl⟩ := exists_expAt_eq h
  rwa [logAt_expAt hi]

theorem expAt_logAt {a : Byte} (h : a ≠ 0) : expAt (logAt a) = a := by
  obtain ⟨i, hi, rfl⟩ := exists_expAt_eq h
  rw [logAt_expAt hi]

theorem gfPow_three_logAt {a : Byte} (h : a ≠ 0) : gfPow 3 (logAt a) = a := by
  rw [← expAt_eq_gfPow (logAt_lt h).le, expAt_logAt h]

/-- Settles O30: EXP by its recurrence, LOG as the two-sided inverse of EXP on the indices below 255. -/
theorem tablesHoldTheGeneratorPowers : Obligations.TablesHoldTheGeneratorPowers := by
  refine ⟨fun i hi => expAt_eq_gfPow hi.le, expAt_255, length_expTable, length_logTable, rfl,
    fun a ha => ⟨logAt_lt ha, fun i hi => ⟨?_, ?_⟩⟩⟩
  · rintro rfl
    exact (logAt_expAt hi).symm
  · rintro rfl
    exact expAt_logAt ha

/-! ## Inverses and quotients -/

theorem gfInv_eq_gfPow {b : Byte} (h : b ≠ 0) : gfInv b = gfPow b 254 := by
  have hsq : gfMul b b = gfPow b 2 := by rw [gfPow_succ, gfPow_succ, gfPow_zero, one_gfMul]
  simp only [gfInv, if_neg h, hsq, ← gfPow_add]

/-- Every nonzero byte is a power of the generator, so its order divides 255 too. -/
theorem gfPow_255 {b : Byte} (h : b ≠ 0) : gfPow b 255 = 1 := by
  rw [← gfPow_three_logAt h, ← gfPow_mul, Nat.mul_comm, gfPow_mul, gfPow_three_255, one_gfPow]

theorem gfInv_gfMul {b : Byte} (h : b ≠ 0) : gfMul (gfInv b) b = 1 := by
  rw [gfInv_eq_gfPow h, ← gfPow_succ, gfPow_255 h]

theorem gfDiv_gfMul (a : Byte) {b : Byte} (h : b ≠ 0) : gfMul (gfDiv a b) b = a := by
  rw [gfDiv, gfMul_assoc, gfInv_gfMul h, gfMul_one]

theorem gfMul_gfDiv (a : Byte) {b : Byte} (h : b ≠ 0) : gfDiv (gfMul a b) b = a := by
  rw [gfDiv, gfMul_assoc, gfMul_comm b, gfInv_gfMul h, gfMul_one]

/-- The quotient is unique (40_field.md R133). -/
theorem eq_gfDiv_of_gfMul_eq {a b c : Byte} (h : b ≠ 0) (hc : gfMul c b = a) : c = gfDiv a b := by
  rw [← hc, gfMul_gfDiv c h]

theorem gfMul_eq_zero_iff (a b : Byte) : gfMul a b = 0 ↔ a = 0 ∨ b = 0 := by
  constructor
  · intro h
    by_cases hb : b = 0
    · exact .inr hb
    · left
      calc a = gfDiv (gfMul a b) b := (gfMul_gfDiv a hb).symm
        _ = 0 := by rw [h, gfDiv, zero_gfMul]
  · rintro (rfl | rfl)
    · exact zero_gfMul b
    · exact gfMul_zero a

/-- Settles O28: the ring laws from the bytes of one bit, those of the quotient from the inverse. -/
theorem fieldLawsHold : Obligations.FieldLawsHold := fun a b c =>
  ⟨BitVec.xor_self, BitVec.xor_zero, gfMul_one a, gfMul_zero a, gfMul_eq_zero_iff a b, gfDiv_gfMul a,
    fun hb => ⟨(eq_gfDiv_of_gfMul_eq hb (zero_gfMul b)).symm, (eq_gfDiv_of_gfMul_eq hb (one_gfMul b)).symm⟩,
    gfMul_xor a b c, gfMul_comm a b, gfMul_assoc a b c⟩

/-! ## The table formulation -/

theorem gfMul_eq_expAt {a b : Byte} (ha : a ≠ 0) (hb : b ≠ 0) :
    gfMul a b = expAt ((logAt a + logAt b) % 255) := by
  rw [expAt_mod, gfPow_add, gfPow_three_logAt ha, gfPow_three_logAt hb]

/-- The sum of exponents `LOG a + 255 - LOG b` and `LOG b` is that of `a`, up to a full turn of the
generator. -/
theorem gfDiv_eq_expAt {a b : Byte} (ha : a ≠ 0) (hb : b ≠ 0) :
    gfDiv a b = expAt ((logAt a + 255 - logAt b) % 255) := by
  have hlt := logAt_lt hb
  refine (eq_gfDiv_of_gfMul_eq hb ?_).symm
  calc gfMul (expAt ((logAt a + 255 - logAt b) % 255)) b
      = gfMul (gfPow 3 (logAt a + 255 - logAt b)) (gfPow 3 (logAt b)) := by
        rw [expAt_mod, gfPow_three_logAt hb]
    _ = gfPow 3 (logAt a + 255) := by rw [← gfPow_add, Nat.sub_add_cancel (by omega)]
    _ = a := by rw [gfPow_add, gfPow_three_255, gfMul_one, gfPow_three_logAt ha]

/-- Settles O29: the operand 0 by the laws of the field, the others by their logarithms. -/
theorem tablesAgreeWithThePolynomials : Obligations.TablesAgreeWithThePolynomials := by
  refine ⟨fun a b => ?product, fun a b hb => ?quotient⟩
  case product =>
    split
    · next h0 => exact (gfMul_eq_zero_iff a b).mpr h0
    · next h =>
      obtain ⟨ha, hb⟩ := not_or.mp h
      exact gfMul_eq_expAt ha hb
  case quotient =>
    split
    · next ha => rw [ha, gfDiv, zero_gfMul]
    · next ha => exact gfDiv_eq_expAt ha hb

end Sys2Proof.Machine
end

section
/-!
The commands of the field (40_field.md R137 to R140): each completes with the field result of its low
operand bytes, and GF_DIV raises where the divisor byte is 0.
-/

namespace Sys2Proof.Machine

theorem toResult_toNat (i : Instr) (v : Byte) : toResult i v.toNat = v.setWidth 32 := by
  rw [toResult_of_lt i (by omega), BitVec.ofNat_toNat]

/-- A command whose rule answers a field result completes with that byte, zero-extended, and touches the
result registers only. -/
theorem exec_of_fieldResult {i : Instr} {s : State} {v : Byte} (h : ruleOf i s = .ok (fieldResult v)) :
    ∃ t, exec i s = .next t ∧ t.result0 = v.setWidth 32 ∧ t.result1 = 0 ∧ RegistersOnly s t :=
  ⟨finish i s (fieldResult v), exec_of_ok h, toResult_toNat i v, toResult_toNat i 0,
    registersOnly_finish rfl rfl rfl⟩

theorem ruleGfDiv_of_zero {s : State} (h : argByte s 1 = 0) :
    ruleGfDiv s = .error ⟨.divisionByZero, 0⟩ :=
  if_pos h

theorem ruleGfDiv_of_ne_zero {s : State} (h : argByte s 1 ≠ 0) :
    ruleGfDiv s = .ok (fieldResult (gfDiv (argByte s 0) (argByte s 1))) :=
  if_neg h

/-- Settles O24: the rule of GF_ADD answers the exclusive-or. -/
theorem gfAddXorsTheFieldOperands : Obligations.GfAddXorsTheFieldOperands :=
  fun s => exec_of_fieldResult (i := .gfAdd) (s := s) rfl

/-- Settles O25: the rules of GF_SUB and GF_ADD answer the same field result. -/
theorem gfSubEqualsGfAdd : Obligations.GfSubEqualsGfAdd := by
  intro s
  obtain ⟨t, ht, ht0, ht1, hregs⟩ := exec_of_fieldResult (i := .gfSub) (s := s) rfl
  obtain ⟨u, hu, hu0, hu1, -⟩ := exec_of_fieldResult (i := .gfAdd) (s := s) rfl
  exact ⟨t, u, ht, hu, ht0, ht1, ht0.trans hu0.symm, ht1.trans hu1.symm, hregs⟩

/-- Settles O26: the rule of GF_MUL answers the product, and 0 and 1 are the field's. -/
theorem gfMulMultipliesTheFieldOperands : Obligations.GfMulMultipliesTheFieldOperands :=
  ⟨fun s => exec_of_fieldResult (i := .gfMul) (s := s) rfl,
    fun a => ⟨gfMul_zero a, zero_gfMul a, gfMul_one a, one_gfMul a⟩, by decide, by decide, by decide⟩

/-- Settles O27: by whether the divisor byte is 0; the quotient and its uniqueness are the field's. -/
theorem gfDivIsTheUniqueQuotient : Obligations.GfDivIsTheUniqueQuotient := by
  refine fun s => ⟨fun h => ?zero, fun h => ?nonzero⟩
  case zero =>
    rw [exec_of_error (i := .gfDiv) (ruleGfDiv_of_zero h), raise_eq_erred]
    rfl
  case nonzero =>
    obtain ⟨t, ht, ht0, ht1, hregs⟩ := exec_of_fieldResult (i := .gfDiv) (ruleGfDiv_of_ne_zero h)
    exact ⟨t, _, ht, ht0, ht1, gfDiv_gfMul _ h, fun d hd => eq_gfDiv_of_gfMul_eq h hd, hregs⟩

end Sys2Proof.Machine
end

section
/-!
The bytes as a field of Mathlib: ⊕ is the sum and ⊗ the product (40_field.md R130 to R134), so that what the
library knows of polynomials over a field holds of the bytes (41_sharing.md R150 to R156).
-/

namespace Sys2Proof.Machine

/-- The bytes under a name of their own: `Byte` already carries the sum and the product of `BitVec 8`. -/
def GF256 : Type := Byte

/-- The inverse the library asks for: that of R132, and 0 at 0, where R132 defines none. -/
def gfInvOrZero (a : Byte) : Byte := if a = 0 then 0 else gfInv a

theorem gfMul_gfInvOrZero {a : Byte} (ha : a ≠ 0) : gfMul a (gfInvOrZero a) = 1 := by
  rw [gfInvOrZero, if_neg ha, gfMul_comm, gfInv_gfMul ha]

/-- The field that ⊕ and ⊗ make of the bytes; every byte is its own negative. -/
@[reducible] def gf256Field : Field GF256 :=
  @Field.ofMinimalAxioms GF256 ⟨fun a b : Byte => a ^^^ b⟩ ⟨gfMul⟩ ⟨id⟩ ⟨gfInvOrZero⟩ ⟨(0 : Byte)⟩ ⟨(1 : Byte)⟩
    BitVec.xor_assoc (fun _ => BitVec.zero_xor) (fun _ => BitVec.xor_self) gfMul_assoc gfMul_comm one_gfMul
    (fun _ => gfMul_gfInvOrZero) (if_pos rfl : gfInvOrZero 0 = 0) gfMul_xor
    ⟨(0 : Byte), (1 : Byte), (by decide : (0 : Byte) ≠ 1)⟩

/-- `φ` carries the bytes one to one to the field `F`, ⊕ to the sum and ⊗ to the product. -/
structure IsFieldOfBytes {F : Type} [Field F] (φ : Byte ≃ F) : Prop where
  map_xor : ∀ a b, φ (a ^^^ b) = φ a + φ b
  map_gfMul : ∀ a b, φ (gfMul a b) = φ a * φ b

theorem exists_isFieldOfBytes : ∃ (F : Type) (_ : Field F) (φ : Byte ≃ F), IsFieldOfBytes φ :=
  letI := gf256Field
  ⟨GF256, gf256Field, Equiv.refl Byte, fun _ _ => rfl, fun _ _ => rfl⟩

namespace IsFieldOfBytes

variable {F : Type} [Field F] {φ : Byte ≃ F} (hφ : IsFieldOfBytes φ)

include hφ

theorem map_zero : φ 0 = 0 := left_eq_add.mp (hφ.map_xor 0 0)

theorem map_ne_zero {a : Byte} (ha : a ≠ 0) : φ a ≠ 0 := hφ.map_zero ▸ φ.injective.ne ha

theorem map_one : φ 1 = 1 := by
  have hmul : φ 1 * φ 1 = φ 1 := by rw [← hφ.map_gfMul, gfMul_one]
  exact (mul_eq_left₀ (hφ.map_ne_zero (by decide))).mp hmul

/-- The field has characteristic 2. -/
theorem neg_eq (a : Byte) : -φ a = φ a :=
  neg_eq_of_add_eq_zero_left (by rw [← hφ.map_xor, BitVec.xor_self]; exact hφ.map_zero)

theorem map_gfDiv (a : Byte) {b : Byte} (hb : b ≠ 0) : φ (gfDiv a b) = φ a / φ b :=
  eq_div_of_mul_eq (hφ.map_ne_zero hb) (by rw [← hφ.map_gfMul, gfDiv_gfMul a hb])

theorem map_xorSum (f : Nat → Byte) (n : Nat) : φ (xorSum f n) = ∑ i ∈ Finset.range n, φ (f i) := by
  induction n with
  | zero => exact hφ.map_zero
  | succ n ih => rw [xorSum, hφ.map_xor, ih, Finset.sum_range_succ]

theorem map_gfProd (f : Nat → Byte) (n : Nat) : φ (gfProd f n) = ∏ i ∈ Finset.range n, φ (f i) := by
  induction n with
  | zero => exact hφ.map_one
  | succ n ih => rw [gfProd, hφ.map_gfMul, ih, Finset.prod_range_succ]

end IsFieldOfBytes

end Sys2Proof.Machine
end

section
/-!
Polynomials over the bytes (41_sharing.md R150, R152, R153): a coefficient list names a polynomial of degree
below its length, Horner's rule evaluates it, and as many points as it has coefficients determine it.
-/

namespace Sys2Proof.Machine

open Polynomial

/-! ## Sums and products of bytes -/

theorem xorSum_congr {f g : Nat → Byte} {n : Nat} (h : ∀ i, i < n → f i = g i) : xorSum f n = xorSum g n := by
  induction n with
  | zero => rfl
  | succ n ih => rw [xorSum, xorSum, ih fun i hi => h i (by omega), h n (by omega)]

theorem gfProd_congr {f g : Nat → Byte} {n : Nat} (h : ∀ i, i < n → f i = g i) : gfProd f n = gfProd g n := by
  induction n with
  | zero => rfl
  | succ n ih => rw [gfProd, gfProd, ih fun i hi => h i (by omega), h n (by omega)]

theorem lagrangeCoeff_congr {X Y : Nat → Byte} {k j : Nat} (h : ∀ i, i < k → X i = Y i) (hj : j < k) :
    lagrangeCoeff X k j = lagrangeCoeff Y k j :=
  gfProd_congr fun m hm => by rw [h m hm, h j hj]

theorem xorSum_succ_left (f : Nat → Byte) (n : Nat) :
    xorSum f (n + 1) = f 0 ^^^ xorSum (fun i => f (i + 1)) n := by
  induction n with
  | zero => exact BitVec.xor_comm _ _
  | succ n ih => rw [xorSum, ih, BitVec.xor_assoc, xorSum]

theorem xorSum_gfMul (f : Nat → Byte) (n : Nat) (x : Byte) :
    gfMul (xorSum f n) x = xorSum (fun i => gfMul (f i) x) n := by
  induction n with
  | zero => exact zero_gfMul x
  | succ n ih => rw [xorSum, xor_gfMul, ih, xorSum]

/-! ## Horner's rule -/

theorem polyEval_cons (a : Byte) (c : List Byte) (x : Byte) :
    polyEval (a :: c) x = gfMul (polyEval c x) x ^^^ a := rfl

/-- Settles O31: by induction on the coefficients, one step of Horner's rule raising each power by one. -/
theorem polyEvalIsThePowerSum : Obligations.PolyEvalIsThePowerSum := by
  intro c x
  induction c with
  | nil => rfl
  | cons a c ih =>
    calc polyEval (a :: c) x
        = gfMul (xorSum (fun k => gfMul (c.getD k 0) (gfPow x k)) c.length) x ^^^ a := by rw [polyEval_cons, ih]
      _ = a ^^^ xorSum (fun k => gfMul (c.getD k 0) (gfPow x (k + 1))) c.length := by
        simp only [xorSum_gfMul, gfMul_assoc, gfPow_succ, BitVec.xor_comm a]
      _ = xorSum (fun k => gfMul ((a :: c).getD k 0) (gfPow x k)) (a :: c).length := by
        rw [List.length_cons, xorSum_succ_left, gfPow_zero, gfMul_one]
        rfl

/-! ## Points at distinct x-coordinates -/

theorem card_toFinset_of_nodup_fst {pts : List (Byte × Byte)} (hx : (pts.map Prod.fst).Nodup) :
    pts.toFinset.card = pts.length := List.toFinset_card_of_nodup hx.of_map

theorem injOn_fst_toFinset {pts : List (Byte × Byte)} (hx : (pts.map Prod.fst).Nodup) :
    Set.InjOn Prod.fst (pts.toFinset : Set (Byte × Byte)) := fun _ hp _ hq =>
  List.inj_on_of_nodup_map hx (List.mem_toFinset.mp hp) (List.mem_toFinset.mp hq)

/-! ## Coefficient lists as polynomials -/

section

variable {F : Type} [Field F]

/-- The polynomial with the coefficient list `c`, the constant term first (41_sharing.md R150). -/
noncomputable def listPoly (φ : Byte ≃ F) : List Byte → F[X]
  | [] => 0
  | a :: c => listPoly φ c * X + C (φ a)

variable {φ : Byte ≃ F} (hφ : IsFieldOfBytes φ)

include hφ

/-- Horner's rule is evaluation. -/
theorem eval_listPoly (c : List Byte) (x : Byte) : (listPoly φ c).eval (φ x) = φ (polyEval c x) := by
  induction c with
  | nil => rw [listPoly, eval_zero, polyEval, List.foldr_nil, hφ.map_zero]
  | cons a c ih => rw [listPoly, eval_add, eval_mul_X, eval_C, ih, polyEval_cons, hφ.map_xor, hφ.map_gfMul]

theorem coeff_listPoly (c : List Byte) (i : Nat) : (listPoly φ c).coeff i = φ (c.getD i 0) := by
  induction c generalizing i with
  | nil => rw [listPoly, coeff_zero, List.getD_nil, hφ.map_zero]
  | cons a c ih =>
    cases i with
    | zero => simp [listPoly]
    | succ i => rw [listPoly, coeff_add, coeff_mul_X, coeff_C_succ, add_zero, ih, List.getD_cons_succ]

theorem degree_listPoly_lt (c : List Byte) : (listPoly φ c).degree < c.length := by
  rw [degree_lt_iff_coeff_zero]
  intro i hi
  rw [coeff_listPoly hφ, List.getD_eq_default _ _ hi, hφ.map_zero]

/-- Coefficient lists of one length are equal if their polynomials are. -/
theorem eq_of_listPoly_eq {c d : List Byte} (hlen : c.length = d.length)
    (h : listPoly φ c = listPoly φ d) : c = d := by
  refine List.ext_getElem hlen fun i hc hd => φ.injective ?_
  have hi := congrArg (fun p => coeff p i) h
  simpa only [coeff_listPoly hφ, List.getD_eq_getElem _ _ hc, List.getD_eq_getElem _ _ hd] using hi

/-- Every polynomial of degree below `n` has a coefficient list of length `n`. -/
theorem exists_listPoly_eq {p : F[X]} {n : Nat} (hp : p.degree < n) :
    ∃ c : List Byte, c.length = n ∧ listPoly φ c = p := by
  refine ⟨(List.range n).map fun i => φ.symm (p.coeff i), by simp, ext fun i => ?_⟩
  rw [coeff_listPoly hφ]
  by_cases hi : i < n
  · simp [hi]
  · have hn : n ≤ i := Nat.le_of_not_lt hi
    rw [(degree_lt_iff_coeff_zero p n).mp hp i hn, List.getD_eq_default _ _ (by simpa using hn), hφ.map_zero]

/-! ## Interpolation -/

/-- A coefficient list of as many coefficients as there are points goes through them iff its polynomial is the
one that interpolates them. -/
theorem forall_polyEval_eq_iff {pts : List (Byte × Byte)} (hx : (pts.map Prod.fst).Nodup) {c : List Byte}
    (hc : c.length = pts.length) : (∀ p ∈ pts, polyEval c p.1 = p.2) ↔
      listPoly φ c = Lagrange.interpolate pts.toFinset (φ ∘ Prod.fst) (φ ∘ Prod.snd) := by
  have hdeg : (listPoly φ c).degree < pts.toFinset.card := by
    rw [card_toFinset_of_nodup_fst hx, ← hc]
    exact degree_listPoly_lt hφ c
  rw [← Lagrange.eq_interpolate_iff _ (φ.injective.comp_injOn (injOn_fst_toFinset hx)), and_iff_right hdeg]
  simp only [List.mem_toFinset, Function.comp_apply, eval_listPoly hφ, φ.apply_eq_iff_eq]

/-- `λ[j]` is the value at 0 of the basis polynomial of node `j` (41_sharing.md R153): in characteristic 2 the
difference of two nodes is their ⊕. -/
theorem map_lagrangeCoeff {X : Nat → Byte} {k j : Nat} (hX : Set.InjOn X (Finset.range k))
    (hj : j ∈ Finset.range k) :
    φ (lagrangeCoeff X k j) = (Lagrange.basis (Finset.range k) (φ ∘ X) j).eval 0 := by
  rw [lagrangeCoeff, hφ.map_gfProd, ← Finset.prod_erase _ (a := j) (by rw [if_pos rfl, hφ.map_one]),
    Lagrange.basis, eval_prod]
  refine Finset.prod_congr rfl fun m hm => ?_
  obtain ⟨hmj, hm⟩ := Finset.mem_erase.mp hm
  have hne : X j ^^^ X m ≠ 0 := fun h => hmj (hX hm hj (BitVec.xor_eq_zero_iff.mp h).symm)
  rw [if_neg hmj, hφ.map_gfDiv _ hne, hφ.map_xor]
  simp [Lagrange.basisDivisor, sub_eq_add_neg, hφ.neg_eq, div_eq_inv_mul]

end

/-- Interpolation at zero gives back the constant term of a polynomial of at most as many coefficients as there
are distinct nodes (41_sharing.md R153, R156). -/
theorem xorSum_polyEval_lagrangeCoeff {X : Nat → Byte} {k : Nat} (hX : Set.InjOn X (Finset.range k))
    (a : Byte) {c : List Byte} (hc : (a :: c).length ≤ k) :
    xorSum (fun j => gfMul (polyEval (a :: c) (X j)) (lagrangeCoeff X k j)) k = a := by
  obtain ⟨F, _, φ, hφ⟩ := exists_isFieldOfBytes
  have hdeg : (listPoly φ (a :: c)).degree < (Finset.range k).card :=
    (degree_listPoly_lt hφ _).trans_le (by rw [Finset.card_range]; exact_mod_cast hc)
  apply φ.injective
  calc φ (xorSum (fun j => gfMul (polyEval (a :: c) (X j)) (lagrangeCoeff X k j)) k)
      = ∑ j ∈ Finset.range k, (listPoly φ (a :: c)).eval (φ (X j)) *
          (Lagrange.basis (Finset.range k) (φ ∘ X) j).eval 0 := by
        rw [hφ.map_xorSum]
        refine Finset.sum_congr rfl fun j hj => ?_
        rw [hφ.map_gfMul, eval_listPoly hφ, map_lagrangeCoeff hφ hX hj]
    _ = (listPoly φ (a :: c)).eval 0 := by
        conv_rhs => rw [Lagrange.eq_interpolate (φ.injective.comp_injOn hX) hdeg]
        simp [Lagrange.interpolate_apply, eval_finsetSum]
    _ = φ a := by simp [listPoly]

/-- Points at distinct x-coordinates have exactly one coefficient list of their number through them. -/
theorem existsUnique_polyEval_eq {pts : List (Byte × Byte)} (hx : (pts.map Prod.fst).Nodup) :
    ∃! c : List Byte, c.length = pts.length ∧ ∀ p ∈ pts, polyEval c p.1 = p.2 := by
  obtain ⟨F, _, φ, hφ⟩ := exists_isFieldOfBytes
  have hdeg : (Lagrange.interpolate pts.toFinset (φ ∘ Prod.fst) (φ ∘ Prod.snd)).degree < pts.length :=
    card_toFinset_of_nodup_fst hx ▸
      Lagrange.degree_interpolate_lt _ (φ.injective.comp_injOn (injOn_fst_toFinset hx))
  obtain ⟨c, hc, hpoly⟩ := exists_listPoly_eq hφ hdeg
  refine ⟨c, ⟨hc, (forall_polyEval_eq_iff hφ hx hc).mpr hpoly⟩, fun d ⟨hd, hthrough⟩ => ?_⟩
  exact eq_of_listPoly_eq hφ (hd.trans hc.symm)
    (((forall_polyEval_eq_iff hφ hx hd).mp hthrough).trans hpoly.symm)

/-- A polynomial with constant term `a` takes the value `y` at `x ≠ 0` iff the rest of its coefficients take
`(y ⊕ a) ⊘ x` there. -/
theorem polyEval_cons_eq_iff (a : Byte) (c : List Byte) {x : Byte} (hx : x ≠ 0) (y : Byte) :
    polyEval (a :: c) x = y ↔ polyEval c x = gfDiv (y ^^^ a) x := by
  rw [polyEval_cons]
  constructor
  · rintro rfl
    rw [BitVec.xor_assoc, BitVec.xor_self, BitVec.xor_zero, gfMul_gfDiv _ hx]
  · intro h
    rw [h, gfDiv_gfMul _ hx, BitVec.xor_assoc, BitVec.xor_self, BitVec.xor_zero]

/-- Settles O35: the first clause is interpolation, and the second the first for the points that the random
coefficients alone go through. -/
theorem pointsBelowTheThresholdFitEverySecret : Obligations.PointsBelowTheThresholdFitEverySecret := by
  refine ⟨fun pts => existsUnique_polyEval_eq, fun secret pts hx hne => ?_⟩
  have h := existsUnique_polyEval_eq (pts := pts.map fun p => (p.1, gfDiv (p.2 ^^^ secret) p.1))
    (by simpa [Function.comp_def] using hx)
  refine (existsUnique_congr fun c => ?_).mp h
  simp only [List.length_map, List.forall_mem_map]
  exact and_congr_right fun _ => forall₂_congr fun p hp => (polyEval_cons_eq_iff secret c (hne p hp) p.2).symm

end Sys2Proof.Machine
end

section
/-!
SSS_SPLIT (41_sharing.md R151): what its rule answers, check by check, and where the bytes of the shares lie.
-/

namespace Sys2Proof.Machine

/-! ## Checks -/

section

variable {s : State}

theorem ruleSssSplit_of_bad_threshold
    (h : ¬(1 ≤ argNat s 2 ∧ argNat s 2 ≤ argNat s 3 ∧ argNat s 3 ≤ 255)) :
    ruleSssSplit s = .error ⟨.invalidParameters, 1⟩ := if_pos h

variable (hT : 1 ≤ argNat s 2 ∧ argNat s 2 ≤ argNat s 3 ∧ argNat s 3 ≤ 255)

include hT

theorem ruleSssSplit_of_badLength (hL : badLength (argNat s 1) = true) :
    ruleSssSplit s = .error ⟨.invalidParameters, 2⟩ := by
  simp [ruleSssSplit, hT, hL]

variable (hL : badLength (argNat s 1) = false)

include hL

theorem ruleSssSplit_of_src_outside (hsrc : s.dmemBytes < argNat s 0 + argNat s 1) :
    ruleSssSplit s = .error ⟨.addressError, argNat s 0⟩ := by
  simp [ruleSssSplit, hT, hL, valid, hsrc]

variable (hsrc : argNat s 0 + argNat s 1 ≤ s.dmemBytes)

include hsrc

theorem ruleSssSplit_of_dst_outside (hdst : s.dmemBytes < argNat s 4 + argNat s 3 * argNat s 1) :
    ruleSssSplit s = .error ⟨.addressError, argNat s 4⟩ := by
  simp [ruleSssSplit, hT, hL, valid, hsrc.not_gt, hdst]

theorem ruleSssSplit_of_checked (hdst : argNat s 4 + argNat s 3 * argNat s 1 ≤ s.dmemBytes) :
    ruleSssSplit s = .ok
      { writes := splitWrites (splitCoeffs s (argNat s 0) (argNat s 1) (argNat s 2)) (argNat s 1) (argNat s 3)
          (argNat s 4)
        draws := argNat s 1 * (argNat s 2 - 1)
        result0 := argNat s 3 * argNat s 1
        result1 := argNat s 3 } := by
  simp [ruleSssSplit, hT, hL, valid, hsrc.not_gt, hdst.not_gt]

end

/-! ## Where the shares lie -/

/-- What a split stores at every address: share by share, `L` bytes each, and nothing outside. -/
theorem get?_finish_splitWrites {i : Instr} {s : State} {e : Effect} {coeffs : List (List Byte)}
    {L N dst : Nat} (he : e.writes = splitWrites coeffs L N dst) (hlen : coeffs.length = L) (b : Nat) :
    Memory.get? (finish i s e).mem b = if dst ≤ b ∧ b < dst + N * L
      then (shareBytes coeffs ((b - dst) / L + 1))[(b - dst) % L]? else Memory.get? s.mem b := by
  rw [finish_mem, he]
  exact Memory.get?_applyWrites_stride s.mem dst L (fun j => shareBytes coeffs (j + 1)) (by simp [hlen]) N b

theorem byteAt_finish_share {i : Instr} {s : State} {e : Effect} {coeffs : List (List Byte)}
    {L N dst : Nat} (he : e.writes = splitWrites coeffs L N dst) (hlen : coeffs.length = L) {j k : Nat}
    (hj : j < N) (hk : k < coeffs.length) :
    byteAt (finish i s e) (dst + j * L + k) = polyEval coeffs[k] (BitVec.ofNat 8 (j + 1)) := by
  have hinside : j * L + k < N * L := by
    calc j * L + k < (j + 1) * L := by rw [Nat.succ_mul]; omega
      _ ≤ N * L := Nat.mul_le_mul_right L hj
  have hoff : dst + j * L + k - dst = k + L * j := by rw [Nat.mul_comm]; omega
  apply byteAt_of_get?
  rw [get?_finish_splitWrites he hlen, if_pos (by omega), hoff, Nat.add_mul_div_left _ _ (by omega),
    Nat.add_mul_mod_self_left, Nat.div_eq_of_lt (by omega), Nat.mod_eq_of_lt (by omega), Nat.zero_add]
  simp [shareBytes, hk]

theorem memoryOutside_finish_splitWrites {i : Instr} {s : State} {e : Effect} {coeffs : List (List Byte)}
    {L N dst : Nat} (he : e.writes = splitWrites coeffs L N dst) (hlen : coeffs.length = L) :
    MemoryOutside s (finish i s e) dst (N * L) := fun b hb =>
  byteAt_congr (by rw [get?_finish_splitWrites he hlen, if_neg (by omega)]) rfl

theorem getElem_splitCoeffs (s : State) (src L T i : Nat) (hi : i < (splitCoeffs s src L T).length) :
    (splitCoeffs s src L T)[i] =
      byteAt s (src + i) :: (List.range (T - 1)).map fun k => rngAnswer s (i * (T - 1) + k) := by
  simp [splitCoeffs]

theorem badLength_eq_false {L : Nat} (h0 : L ≠ 0) (heven : L % 2 = 0) : badLength L = false := by
  rw [Bool.eq_false_iff, Ne, badLength_iff]
  omega

/-- Settles O32: each check by what the rule answers there, and the shares by where the split lays them. -/
theorem splitWritesEveryShare : Obligations.SplitWritesEveryShare := by
  rintro s _ _ _ _ _ rfl rfl rfl rfl rfl
  refine ⟨fun h => exec_of_error (i := .sssSplit) (ruleSssSplit_of_bad_threshold h), fun h1 hTN hN => ?_⟩
  have hT := And.intro h1 (And.intro hTN hN)
  refine ⟨fun hL => exec_of_error (i := .sssSplit) (ruleSssSplit_of_badLength hT ((badLength_iff _).mpr hL)),
    fun h0 heven => ?_⟩
  have hL := badLength_eq_false h0 heven
  refine ⟨fun hsrc => exec_of_error (i := .sssSplit) (ruleSssSplit_of_src_outside hT hL hsrc),
    fun hsrc hdst => exec_of_error (i := .sssSplit) (ruleSssSplit_of_dst_outside hT hL hsrc hdst),
    fun hsrc hdst => ⟨_, exec_of_ok (i := .sssSplit) (ruleSssSplit_of_checked hT hL hsrc hdst),
      completedOk_finish _ _ _, fun x i h1x hxN hi => ?share,
      memoryOutside_finish_splitWrites rfl (length_splitCoeffs _ _ _ _), rfl, rngAnswer_finish _ _ _, rfl,
      toResult_of_lt .sssSplit, toResult_of_lt .sssSplit (lt_of_le_of_lt hN (by decide))⟩⟩
  case share =>
    obtain ⟨x, rfl⟩ := Nat.exists_eq_add_of_le' h1x
    rw [← getElem_splitCoeffs s _ _ _ i (by simpa using hi)]
    exact byteAt_finish_share rfl (length_splitCoeffs _ _ _ _) hxN (by simpa using hi)

/-! ## A split that completed without error -/

/-- An SSS_SPLIT that completed without error passed every check of R151. -/
theorem split_checked {s t : State} (h : exec .sssSplit s = .next t) (herr : t.err = false) :
    (1 ≤ argNat s 2 ∧ argNat s 2 ≤ argNat s 3 ∧ argNat s 3 ≤ 255) ∧ (argNat s 1 ≠ 0 ∧ argNat s 1 % 2 = 0) ∧
      argNat s 0 + argNat s 1 ≤ s.dmemBytes ∧ argNat s 4 + argNat s 3 * argNat s 1 ≤ s.dmemBytes := by
  have hraise : ∀ r, ruleSssSplit s ≠ .error r := fun r hr => by
    rw [exec_of_error (i := .sssSplit) hr] at h
    cases h
    cases herr
  by_cases hT : 1 ≤ argNat s 2 ∧ argNat s 2 ≤ argNat s 3 ∧ argNat s 3 ≤ 255
  case neg => exact absurd (ruleSssSplit_of_bad_threshold hT) (hraise _)
  cases hL : badLength (argNat s 1)
  case true => exact absurd (ruleSssSplit_of_badLength hT hL) (hraise _)
  by_cases hsrc : argNat s 0 + argNat s 1 ≤ s.dmemBytes
  case neg => exact absurd (ruleSssSplit_of_src_outside hT hL (Nat.lt_of_not_le hsrc)) (hraise _)
  by_cases hdst : argNat s 4 + argNat s 3 * argNat s 1 ≤ s.dmemBytes
  case neg => exact absurd (ruleSssSplit_of_dst_outside hT hL hsrc (Nat.lt_of_not_le hdst)) (hraise _)
  have hbad : ¬(argNat s 1 = 0 ∨ argNat s 1 % 2 = 1) := by rw [← badLength_iff, hL]; decide
  exact ⟨hT, by omega, hsrc, hdst⟩

/-- The coefficients of byte position `i` of a split: the secret byte and its random bytes (41_sharing.md R151). -/
def splitPoly (s : State) (i : Nat) : List Byte :=
  byteAt s (argNat s 0 + i) :: (List.range (argNat s 2 - 1)).map fun k => rngAnswer s (i * (argNat s 2 - 1) + k)

theorem length_splitPoly (s : State) (i : Nat) : (splitPoly s i).length = argNat s 2 - 1 + 1 := by
  simp [splitPoly]

/-- What an SSS_SPLIT that completed without error left in DMEM. -/
theorem split_shares {s t : State} (h : exec .sssSplit s = .next t) (herr : t.err = false) {x i : Nat}
    (hx : 1 ≤ x) (hxN : x ≤ argNat s 3) (hi : i < argNat s 1) :
    byteAt t (argNat s 4 + (x - 1) * argNat s 1 + i) = polyEval (splitPoly s i) (BitVec.ofNat 8 x) := by
  obtain ⟨⟨h1, hTN, hN⟩, ⟨h0, heven⟩, hsrc, hdst⟩ := split_checked h herr
  obtain ⟨-, hsplit⟩ := splitWritesEveryShare s _ _ _ _ _ rfl rfl rfl rfl rfl
  obtain ⟨-, hsplit⟩ := hsplit h1 hTN hN
  obtain ⟨-, -, hsplit⟩ := hsplit h0 heven
  obtain ⟨t', ht', -, hshare, -⟩ := hsplit hsrc hdst
  obtain rfl : t = t' := by rw [h] at ht'; exact Host.Outcome.next.inj ht'
  exact hshare x i hx hxN hi

end Sys2Proof.Machine
end

section
/-!
SSS_RECON (41_sharing.md R154): what its rule answers, check by check, and the bytes it interpolates; then the
round trip with SSS_SPLIT (R156).
-/

namespace Sys2Proof.Machine

/-! ## The coordinates read from DMEM -/

theorem mem_memRead {s : State} {a n : Nat} {b : Byte} :
    b ∈ memRead s a n ↔ ∃ j, j < n ∧ byteAt s (a + j) = b := by
  simp [memRead]

theorem memRead_add (s : State) (a m n : Nat) :
    memRead s a (m + n) = memRead s a m ++ memRead s (a + m) n := by
  simp [memRead, List.range_add, Function.comp_def, Nat.add_assoc]

theorem memRead_succ (s : State) (a n : Nat) : memRead s a (n + 1) = byteAt s a :: memRead s (a + 1) n := by
  rw [Nat.add_comm, memRead_add]
  rfl

theorem getD_memRead {s : State} {a n j : Nat} (hj : j < n) : (memRead s a n).getD j 0 = byteAt s (a + j) := by
  simp [memRead, hj]

/-- Coordinates each unlike every earlier one are distinct. -/
theorem injOn_of_ne_of_lt {f : Nat → Byte} {n : Nat} (h : ∀ j m, j < n → m < j → f m ≠ f j) :
    Set.InjOn f (Finset.range n) := by
  intro i hi j hj hij
  rw [Finset.mem_coe, Finset.mem_range] at hi hj
  rcases Nat.lt_trichotomy i j with hlt | heq | hgt
  · exact absurd hij (h j i hj hlt)
  · exact heq
  · exact absurd hij.symm (h i j hi hgt)

theorem nodup_memRead {s : State} {a n : Nat}
    (h : ∀ j m, j < n → m < j → byteAt s (a + m) ≠ byteAt s (a + j)) : (memRead s a n).Nodup :=
  List.Nodup.map_on (fun i hi j hj => injOn_of_ne_of_lt (f := fun j => byteAt s (a + j)) h
    (by simpa using hi) (by simpa using hj)) List.nodup_range

/-- A list in which nothing repeats leaves the search to what follows it. -/
theorem firstRepeat_append {seen X : List Byte} (h : firstRepeat seen X = none) (Y : List Byte) :
    firstRepeat seen (X ++ Y) = firstRepeat (X.reverse ++ seen) Y := by
  induction X generalizing seen with
  | nil => rfl
  | cons x X ih =>
    have hx : x ∉ seen := fun hx => by simp [firstRepeat, hx] at h
    rw [firstRepeat, if_neg hx] at h
    rw [List.cons_append, firstRepeat, if_neg hx, ih h, List.reverse_cons, List.append_assoc]
    rfl

theorem firstRepeat_memRead_of_distinct {s : State} {a n : Nat}
    (h : ∀ j m, j < n → m < j → byteAt s (a + m) ≠ byteAt s (a + j)) :
    firstRepeat [] (memRead s a n) = none :=
  (firstRepeat_none _ _).mpr ⟨nodup_memRead h, by simp⟩

/-- The first coordinate that equals an earlier one. -/
theorem firstRepeat_memRead_of_repeat {s : State} {a n j : Nat} (hj : j < n)
    (hrep : ∃ m, m < j ∧ byteAt s (a + m) = byteAt s (a + j))
    (hfirst : ∀ i m, i < j → m < i → byteAt s (a + m) ≠ byteAt s (a + i)) :
    firstRepeat [] (memRead s a n) = some (byteAt s (a + j)) := by
  obtain ⟨n, rfl⟩ := Nat.exists_eq_add_of_lt hj
  rw [Nat.add_assoc, memRead_add, firstRepeat_append (firstRepeat_memRead_of_distinct hfirst), memRead_succ,
    firstRepeat, if_pos (by simpa [mem_memRead] using hrep)]

/-! ## Checks -/

/-- What SSS_RECON does once every check has passed (41_sharing.md R154). -/
def reconEffect (s : State) : Effect :=
  { writes := [(argNat s 4, reconBytes s (memRead s (argNat s 0) (argNat s 1)) (argNat s 2) (argNat s 3))]
    result0 := argNat s 3
    result1 := argNat s 1 }

section

variable {s : State}

theorem ruleSssRecon_of_few (hk : argNat s 1 < 2) :
    ruleSssRecon s = .error ⟨.insufficientShares, argNat s 1⟩ := if_pos hk

variable (hk : 2 ≤ argNat s 1)

include hk

theorem ruleSssRecon_of_badLength (hL : badLength (argNat s 3) = true) :
    ruleSssRecon s = .error ⟨.invalidParameters, 2⟩ := by
  simp [ruleSssRecon, hk.not_gt, hL]

variable (hL : badLength (argNat s 3) = false)

include hL

theorem ruleSssRecon_of_xa_outside (hxa : s.dmemBytes < argNat s 0 + argNat s 1) :
    ruleSssRecon s = .error ⟨.addressError, argNat s 0⟩ := by
  simp [ruleSssRecon, hk.not_gt, hL, valid, hxa]

variable (hxa : argNat s 0 + argNat s 1 ≤ s.dmemBytes)

include hxa

theorem ruleSssRecon_of_ya_outside (hya : s.dmemBytes < argNat s 2 + argNat s 1 * argNat s 3) :
    ruleSssRecon s = .error ⟨.addressError, argNat s 2⟩ := by
  simp [ruleSssRecon, hk.not_gt, hL, valid, hxa.not_gt, hya]

variable (hya : argNat s 2 + argNat s 1 * argNat s 3 ≤ s.dmemBytes)

include hya

theorem ruleSssRecon_of_dst_outside (hdst : s.dmemBytes < argNat s 4 + argNat s 3) :
    ruleSssRecon s = .error ⟨.addressError, argNat s 4⟩ := by
  simp [ruleSssRecon, hk.not_gt, hL, valid, hxa.not_gt, hya.not_gt, hdst]

variable (hdst : argNat s 4 + argNat s 3 ≤ s.dmemBytes)

include hdst

theorem ruleSssRecon_of_zero_coordinate (hX : 0#8 ∈ memRead s (argNat s 0) (argNat s 1)) :
    ruleSssRecon s = .error ⟨.invalidParameters, 3⟩ := by
  simp [ruleSssRecon, hk.not_gt, hL, valid, hxa.not_gt, hya.not_gt, hdst.not_gt, hX]

variable (hX : 0#8 ∉ memRead s (argNat s 0) (argNat s 1))

include hX

theorem ruleSssRecon_of_repeat {x : Byte}
    (hx : firstRepeat [] (memRead s (argNat s 0) (argNat s 1)) = some x) :
    ruleSssRecon s = .error ⟨.duplicateShareIndex, x.toNat⟩ := by
  simp [ruleSssRecon, hk.not_gt, hL, valid, hxa.not_gt, hya.not_gt, hdst.not_gt, hX, hx]

theorem ruleSssRecon_of_checked (hx : firstRepeat [] (memRead s (argNat s 0) (argNat s 1)) = none) :
    ruleSssRecon s = .ok (reconEffect s) := by
  simp [ruleSssRecon, hk.not_gt, hL, valid, hxa.not_gt, hya.not_gt, hdst.not_gt, hX, hx, reconEffect]

end

/-! ## The interpolated bytes -/

theorem getD_lagrangeCoeffs {X : List Byte} {j : Nat} (hj : j < X.length) :
    (lagrangeCoeffs X).getD j 0 = lagrangeCoeff (fun m => X.getD m 0) X.length j := by
  simp [lagrangeCoeffs, hj]

theorem getElem_reconBytes {s : State} {X : List Byte} {ya L i : Nat} (hi : i < (reconBytes s X ya L).length) :
    (reconBytes s X ya L)[i] = xorSum (fun j => gfMul (byteAt s (ya + j * L + i))
      (lagrangeCoeff (fun m => X.getD m 0) X.length j)) X.length := by
  have hlen : (lagrangeCoeffs X).length = X.length := by simp [lagrangeCoeffs]
  simp only [reconBytes, List.getElem_map, List.getElem_range, interpolate, hlen]
  exact xorSum_congr fun j hj => by rw [getD_lagrangeCoeffs hj]

/-- The same with the coordinates read from DMEM. -/
theorem getElem_reconBytes_memRead {s : State} {xa k ya L i : Nat}
    (hi : i < (reconBytes s (memRead s xa k) ya L).length) :
    (reconBytes s (memRead s xa k) ya L)[i] = xorSum (fun j => gfMul (byteAt s (ya + j * L + i))
      (lagrangeCoeff (fun m => byteAt s (xa + m)) k j)) k := by
  rw [getElem_reconBytes, length_memRead]
  exact xorSum_congr fun j hj => by rw [lagrangeCoeff_congr (fun m hm => getD_memRead hm) hj]

/-- A byte of the one region a command stored. -/
theorem byteAt_finish_stored {i : Instr} {s : State} {e : Effect} {a k : Nat} {B : List Byte}
    (he : e.writes = [(a, B)]) (hk : k < B.length) : byteAt (finish i s e) (a + k) = B[k] := by
  rw [byteAt_finish_one i s e a B he, dif_pos (by omega)]
  simp

/-- Settles O33: each check by what the rule answers there, and the bytes by the coefficients of the coordinates
read. -/
theorem reconInterpolatesAtZero : Obligations.ReconInterpolatesAtZero := by
  rintro s _ _ _ _ _ rfl rfl rfl rfl rfl
  refine ⟨fun hk => exec_of_error (i := .sssRecon) (ruleSssRecon_of_few hk), fun hk => ?_⟩
  refine ⟨fun hL => exec_of_error (i := .sssRecon) (ruleSssRecon_of_badLength hk ((badLength_iff _).mpr hL)),
    fun h0 heven => ?_⟩
  have hL := badLength_eq_false h0 heven
  refine ⟨fun hxa => exec_of_error (i := .sssRecon) (ruleSssRecon_of_xa_outside hk hL hxa),
    fun hxa hya => exec_of_error (i := .sssRecon) (ruleSssRecon_of_ya_outside hk hL hxa hya),
    fun hxa hya hdst => exec_of_error (i := .sssRecon) (ruleSssRecon_of_dst_outside hk hL hxa hya hdst),
    fun hxa hya hdst => ?_⟩
  refine ⟨fun hzero => exec_of_error (i := .sssRecon)
    (ruleSssRecon_of_zero_coordinate hk hL hxa hya hdst (mem_memRead.mpr hzero)), fun hne => ?_⟩
  have hX : (0 : Byte) ∉ memRead s (argNat s 0) (argNat s 1) := fun hzero => by
    obtain ⟨j, hj, hj0⟩ := mem_memRead.mp hzero
    exact hne j hj hj0
  refine ⟨fun j hj hrep hfirst => ?repeated, fun hdistinct => ?distinct⟩
  case repeated =>
    exact exec_of_error (i := .sssRecon) (ruleSssRecon_of_repeat hk hL hxa hya hdst hX
      (firstRepeat_memRead_of_repeat hj hrep hfirst))
  case distinct =>
    have hnone := firstRepeat_memRead_of_distinct hdistinct
    have hstores := storesOnly_finish (i := .sssRecon) (s := s) (e := reconEffect s) rfl rfl rfl
    rw [length_reconBytes] at hstores
    refine ⟨_, exec_of_ok (i := .sssRecon) (ruleSssRecon_of_checked hk hL hxa hya hdst hX hnone), hstores,
      fun i hi => ?_, toResult_of_lt .sssRecon (BitVec.isLt _), toResult_of_lt .sssRecon (BitVec.isLt _)⟩
    exact (byteAt_finish_stored rfl (by simpa using hi)).trans (getElem_reconBytes_memRead (by simpa using hi))

/-! ## The round trip -/

/-- Settles O34: the shares are values of one polynomial at distinct nodes, which interpolation at zero turns back
into its constant term, the secret byte. -/
theorem splitThenReconRestoresTheSecret : Obligations.SplitThenReconRestoresTheSecret := by
  intro s t u ht herr L k hLs hLu hku hk hxa hya hdst hrange hdistinct hshares
  obtain ⟨⟨hT, -⟩, ⟨h0, heven⟩, -⟩ := split_checked ht herr
  have hL : L = argNat s 1 := hLs
  rw [← hL] at h0 heven
  obtain ⟨-, hrecon⟩ := reconInterpolatesAtZero u _ k _ L _ rfl hku rfl hLu rfl
  obtain ⟨-, hrecon⟩ := hrecon hk
  obtain ⟨-, -, -, hrecon⟩ := hrecon h0 heven
  obtain ⟨-, hrecon⟩ := hrecon hxa hya hdst
  have hne : ∀ j, j < k → byteAt u (u.args[0].toNat + j) ≠ 0 := fun j hj hzero => by
    have := (hrange j hj).1
    simp [hzero] at this
  obtain ⟨-, hrecon⟩ := hrecon hne
  obtain ⟨v, hv, hstores, hbytes, -⟩ := hrecon hdistinct
  refine ⟨v, hv, hstores.ok.err, fun hTk i hi => ?_⟩
  have hlen : (splitPoly s i).length ≤ k := by
    rw [length_splitPoly, Nat.sub_add_cancel hT]
    exact hTk
  rw [hbytes i hi]
  refine (xorSum_congr fun j hj => ?_).trans
    (xorSum_polyEval_lagrangeCoeff (injOn_of_ne_of_lt hdistinct) _ hlen)
  obtain ⟨hx, hxN⟩ := hrange j hj
  have hshare := split_shares ht herr hx hxN (hL ▸ hi)
  rw [← hL, BitVec.ofNat_toNat, BitVec.setWidth_eq] at hshare
  exact congrArg (gfMul · _) ((hshares j i hj hi).trans hshare)

end Sys2Proof.Machine
end

section
/-!
Bits read by their position, zero where there is none: of a byte string, of `bits_to_bytes` and of a cut
symbol (00_scope.md R13, R14). Zero bits at the end change none of them.
-/

namespace Sys2Proof.Machine

/-! ## Zero bits -/

theorem zeroBits_append_zeroBits (m n : Nat) : zeroBits m ++ zeroBits n = zeroBits (m + n) :=
  List.replicate_append_replicate

/-- Zero bits at the end are what reading beyond the end answers. -/
@[simp] theorem getD_append_zeroBits (s : List Bool) (k p : Nat) :
    (s ++ zeroBits k).getD p false = s.getD p false := by
  by_cases hp : p < s.length
  · exact List.getD_append _ _ _ _ hp
  · rw [List.getD_append_right _ _ _ _ (Nat.le_of_not_lt hp), List.getD_eq_default _ _ (Nat.le_of_not_lt hp)]
    by_cases hk : p - s.length < k <;> simp [zeroBits, hk]

theorem valOf_zeroBits (k : Nat) : valOf (zeroBits k) = 0 := by
  induction k with
  | zero => rfl
  | succ k ih =>
    rw [zeroBits, List.replicate_succ, valOf_cons]
    simpa [zeroBits] using ih

/-- Zero bits are cut into symbols of value 0, also where they run out. -/
theorem symbolsOf_zeroBits (w n k : Nat) : symbolsOf w n (zeroBits k) = List.replicate n 0 := by
  induction n generalizing k with
  | zero => rfl
  | succ n ih =>
    rw [symbolsOf, pieces, List.map_cons, List.replicate_succ]
    congr 1
    · rw [zeroBits, List.take_replicate]
      exact valOf_zeroBits _
    · rw [zeroBits, List.drop_replicate]
      exact ih _

/-! ## Bytes -/

theorem bytesToBits_append (A B : List Byte) : bytesToBits (A ++ B) = bytesToBits A ++ bytesToBits B :=
  List.flatMap_append

theorem bytesToBits_replicate_zero (n : Nat) : bytesToBits (List.replicate n 0) = zeroBits (8 * n) := by
  induction n with
  | zero => rfl
  | succ n ih =>
    rw [List.replicate_succ, bytesToBits_cons, ih, Nat.mul_succ, Nat.add_comm, ← zeroBits_append_zeroBits]
    rfl

theorem bytesToBits_injective : Function.Injective bytesToBits :=
  Function.LeftInverse.injective bitsToBytes_bytesToBits

theorem getD_bytesToBits (B : List Byte) (p : Nat) :
    (bytesToBits B).getD p false = (B.getD (p / 8) 0).getLsbD (7 - p % 8) := by
  by_cases hp : p < 8 * B.length
  · rw [List.getD_eq_getElem?_getD, getElem?_bytesToBits B p hp, Option.getD_some]
  · rw [List.getD_eq_default _ _ (by simpa using hp), List.getD_eq_default _ _ (by omega)]
    simp

/-- The bytes of a bit string hold its bits in order; the pad is zero. -/
theorem getLsbD_bitsToBytes (s : List Bool) (p : Nat) :
    ((bitsToBytes s).getD (p / 8) 0).getLsbD (7 - p % 8) = s.getD p false := by
  rw [← getD_bytesToBits, bytesToBits_bitsToBytes, getD_append_zeroBits]

/-- Zero bits after whole bytes become zero bytes. -/
theorem bitsToBytes_bytesToBits_append_zeroBits (B : List Byte) (k : Nat) :
    bitsToBytes (bytesToBits B ++ zeroBits k) = B ++ List.replicate (cdiv k 8) 0 := by
  apply bytesToBits_injective
  rw [bytesToBits_bitsToBytes, bytesToBits_append, bytesToBits_replicate_zero, List.append_assoc,
    zeroBits_append_zeroBits, List.length_append, length_bytesToBits, length_zeroBits, Nat.mul_add_mod,
    (pad_whole k).2]

/-! ## Symbols -/

theorem getD_symbolsToBits {w : Nat} {X : List Nat} {p : Nat} (hp : p < w * X.length) :
    (symbolsToBits w X).getD p false = (X.getD (p / w) 0).testBit (w - 1 - p % w) := by
  rw [List.getD_eq_getElem?_getD, getElem?_symbolsToBits w X p hp, Option.getD_some]

/-- Bit `q`, most significant first, of symbol `j` is bit `w·j + q` of the string it was cut from. -/
theorem testBit_getD_symbolsOf {w n : Nat} {s : List Bool} {j q : Nat} (hs : w * n ≤ s.length) (hj : j < n)
    (hq : q < w) : ((symbolsOf w n s).getD j 0).testBit (w - 1 - q) = s.getD (w * j + q) false := by
  have hpiece : ((s.drop (w * j)).take w).length = w := by
    have := Nat.mul_le_mul_left w (Nat.succ_le_of_lt hj)
    rw [Nat.mul_succ] at this
    rw [List.length_take, List.length_drop]
    omega
  have hbit := testBit_valOf ((s.drop (w * j)).take w) q (by omega)
  rw [hpiece] at hbit
  rw [List.getD_eq_getElem?_getD, getElem?_symbolsOf w n s j hj, Option.getD_some, hbit]
  simp [List.getD_eq_getElem?_getD, hq]

/-! ## Bits and symbols of DMEM -/

theorem getD_symReads {s : State} {a n j : Nat} (hj : j < n) : (symReads s a n).getD j 0 = symRead s a j := by
  simp [symReads, hj]

/-- Bit `p` of a region of DMEM, zero beyond it. -/
theorem getLsbD_getD_memRead (s : State) (a n p : Nat) :
    ((memRead s a n).getD (p / 8) 0).getLsbD (7 - p % 8) =
      if p < 8 * n then (byteAt s (a + p / 8)).getLsbD (7 - p % 8) else false := by
  split
  · rw [getD_memRead (by omega)]
  · rw [List.getD_eq_default _ _ (by simp; omega)]
    simp

theorem forall_mem_symReads {s : State} {a n : Nat} {P : Nat → Prop} :
    (∀ x ∈ symReads s a n, P x) ↔ ∀ j, j < n → P (symRead s a j) := by
  simp [symReads]

end Sys2Proof.Machine
end

section
/-!
`pack` and `unpack` (42_bitpack.md R171, R172) as functions of symbols and bytes: their bits, and what each
gives after the other (R173, R174).
-/

namespace Sys2Proof.Machine

theorem le_cdiv_mul (a : Nat) {b : Nat} (hb : 0 < b) : a ≤ cdiv a b * b := by
  have := Nat.lt_div_mul_add (a := a + (b - 1)) hb
  rw [cdiv]
  omega

theorem cdiv_mul_lt (a : Nat) {b : Nat} (hb : 0 < b) : cdiv a b * b < a + b := by
  have := Nat.div_mul_le_self (a + (b - 1)) b
  rw [cdiv]
  omega

theorem cdiv_eq {a b k : Nat} (hle : a ≤ k * b) (hlt : k * b < a + b) : cdiv a b = k :=
  Nat.div_eq_of_lt_le (by omega) (by rw [Nat.succ_mul]; omega)

/-! ## Bits of packed symbols -/

theorem getLsbD_packSymbols {w : Nat} {X : List Nat} {p : Nat} (hp : p < X.length * w) :
    ((packSymbols w X).getD (p / 8) 0).getLsbD (7 - p % 8) = (X.getD (p / w) 0).testBit (w - 1 - p % w) := by
  rw [packSymbols, getLsbD_bitsToBytes, getD_symbolsToBits (by rwa [Nat.mul_comm])]

theorem getLsbD_packSymbols_pad {w : Nat} {X : List Nat} {p : Nat} (hp : X.length * w ≤ p) :
    ((packSymbols w X).getD (p / 8) 0).getLsbD (7 - p % 8) = false := by
  rw [packSymbols, getLsbD_bitsToBytes, List.getD_eq_default _ _ (by rwa [length_symbolsToBits, Nat.mul_comm])]

/-! ## Bits of unpacked bytes -/

/-- The bits `unpack` cuts into symbols: those of the bytes, and zeros up to whole symbols. -/
theorem length_unpack_bits {w : Nat} (hw : 0 < w) (B : List Byte) :
    (bytesToBits B ++ zeroBits (cdiv (8 * B.length) w * w - 8 * B.length)).length =
      w * cdiv (8 * B.length) w := by
  have := le_cdiv_mul (8 * B.length) hw
  rw [List.length_append, length_bytesToBits, length_zeroBits, Nat.add_sub_cancel' this, Nat.mul_comm]

theorem unpackBytes_lt (w : Nat) (B : List Byte) : ∀ x ∈ unpackBytes w B, x < 2 ^ w :=
  symbolsOf_lt _ _ _

theorem testBit_unpackBytes {w : Nat} {B : List Byte} {j q : Nat} (hj : j < cdiv (8 * B.length) w)
    (hq : q < w) : ((unpackBytes w B).getD j 0).testBit (w - 1 - q) =
      (B.getD ((j * w + q) / 8) 0).getLsbD (7 - (j * w + q) % 8) := by
  have hlen := length_unpack_bits (Nat.zero_lt_of_lt hq) B
  rw [unpackBytes, testBit_getD_symbolsOf hlen.ge hj hq, getD_append_zeroBits, getD_bytesToBits,
    Nat.mul_comm w j]

/-! ## The round trips -/

/-- Unpacking packed symbols gives them back; the symbols that the pad makes up are 0. -/
theorem unpackBytes_packSymbols {w : Nat} {X : List Nat} (hX : ∀ x ∈ X, x < 2 ^ w) {k : Nat}
    (hk : cdiv (8 * cdiv (X.length * w) 8) w = X.length + k) :
    unpackBytes w (packSymbols w X) = X ++ List.replicate k 0 := by
  have hcut := symbolsOf_symbolsToBits_append w X [] hX
  rw [List.append_nil] at hcut
  simp only [unpackBytes, length_packSymbols, hk]
  rw [packSymbols, bytesToBits_bitsToBytes, List.append_assoc, zeroBits_append_zeroBits,
    symbolsOf_append w X.length k _ _ (length_symbolsToBits w X), hcut, symbolsOf_zeroBits]

/-- Packing unpacked bytes gives them back with the bytes that the symbol pad begins, all 0. -/
theorem packSymbols_unpackBytes {w : Nat} (hw : 0 < w) (B : List Byte) :
    packSymbols w (unpackBytes w B) =
      B ++ List.replicate (cdiv (cdiv (8 * B.length) w * w - 8 * B.length) 8) 0 := by
  rw [packSymbols, unpackBytes, symbolsToBits_symbolsOf _ _ _ (length_unpack_bits hw B),
    bitsToBytes_bytesToBits_append_zeroBits]

/-- Packed symbols that end on a byte hold no further symbol. -/
theorem cdiv_packed_of_whole {w n : Nat} (hw : 8 ≤ w) (h : n * w % 8 = 0) :
    cdiv (8 * cdiv (n * w) 8) w = n := by
  have hbytes : cdiv (n * w) 8 = n * w / 8 := cdiv_eq (by omega) (by omega)
  exact cdiv_eq (by omega) (by omega)

/-- The pad of packed symbols is shorter than a symbol and begins one more. -/
theorem cdiv_packed_of_pad {w n : Nat} (hw : 8 ≤ w) (h : n * w % 8 ≠ 0) :
    cdiv (8 * cdiv (n * w) 8) w = n + 1 := by
  have hbytes : cdiv (n * w) 8 = n * w / 8 + 1 := cdiv_eq (by omega) (by omega)
  have hmore : (n + 1) * w = n * w + w := Nat.succ_mul n w
  exact cdiv_eq (by omega) (by omega)

/-- Settles O38: the number of symbols that fit the packed bytes decides whether the pad makes up one more. -/
theorem unpackAfterPackRestoresTheSymbols : Obligations.UnpackAfterPackRestoresTheSymbols := by
  refine fun w X hw hX => ⟨fun h => ?whole, fun h => ?pad⟩
  case whole => simpa using unpackBytes_packSymbols hX (k := 0) (cdiv_packed_of_whole (by omega) h)
  case pad => exact unpackBytes_packSymbols hX (cdiv_packed_of_pad (by omega) h)

/-- The pad of a symbol of at most 11 bits begins at most two bytes. -/
theorem packSymbols_unpackBytes_zeros {w : Nat} (hw : w = 10 ∨ w = 11) (B : List Byte) :
    ∃ z, z ≤ 2 ∧ B.length + z = cdiv (w * cdiv (8 * B.length) w) 8 ∧
      packSymbols w (unpackBytes w B) = B ++ List.replicate z 0 := by
  have hpos : 0 < w := by omega
  have heq := packSymbols_unpackBytes hpos B
  have hpad := cdiv_mul_lt (8 * B.length) hpos
  refine ⟨_, ?_, ?_, heq⟩
  · simp only [cdiv] at hpad ⊢
    omega
  · simpa [Nat.mul_comm w] using (congrArg List.length heq).symm

/-- Settles O39: in the packed case with a pad, the symbol that the pad begins does not fit it, so that a byte is
added. -/
theorem packAfterUnpackAppendsZeroBytes : Obligations.PackAfterUnpackAppendsZeroBytes := by
  refine ⟨fun w B hw => packSymbols_unpackBytes_zeros hw B, fun w X hw hX => ⟨fun h => ?whole, fun h => ?pad⟩⟩
  case whole => rw [(unpackAfterPackRestoresTheSymbols w X hw hX).1 h]
  case pad =>
    obtain ⟨z, hz, hlen, heq⟩ := packSymbols_unpackBytes_zeros hw (packSymbols w X)
    rw [length_packSymbols, cdiv_packed_of_pad (by omega) h] at hlen
    refine ⟨z, ?_, hz, heq⟩
    rcases hw with rfl | rfl <;> simp only [cdiv] at hlen <;> omega

end Sys2Proof.Machine
end

section
/-!
BP_PACK and BP_UNPACK (42_bitpack.md R170 to R172): what their rules answer, check by check, and the bits they
store.
-/

namespace Sys2Proof.Machine

theorem not_mem_symbolWidths {w : Nat} (h10 : w ≠ 10) (h11 : w ≠ 11) : w ∉ Params.symbolWidths := by
  simp [h10, h11]

/-- A byte that a command stored, by its position in the region. -/
theorem byteAt_finish_getD {i : Instr} {s : State} {e : Effect} {a k : Nat} {B : List Byte}
    (he : e.writes = [(a, B)]) (hk : k < B.length) : byteAt (finish i s e) (a + k) = B.getD k 0 := by
  rw [byteAt_finish_stored he hk, List.getD_eq_getElem]

/-- A symbol that a command stored as one symbol array. -/
theorem symRead_finish {i : Instr} {s : State} {e : Effect} {a j : Nat} {X : List Nat}
    (he : e.writes = [(a, symbolArrayBytes X)]) (hX : ∀ x ∈ X, x < 65536) (hj : j < X.length) :
    symRead (finish i s e) a j = X.getD j 0 := by
  rw [symRead_of_memRead (memRead_finish he) hX j hj, List.getD_eq_getElem]

/-! ## The checks of BP_PACK -/

/-- What BP_PACK does once every check has passed (42_bitpack.md R171). -/
def packEffect (s : State) : Effect :=
  { writes := [(argNat s 3, packSymbols (argNat s 2) (symReads s (argNat s 0) (argNat s 1)))]
    result0 := cdiv (argNat s 1 * argNat s 2) 8
    result1 := 8 * cdiv (argNat s 1 * argNat s 2) 8 - argNat s 1 * argNat s 2 }

section

variable {s : State}

theorem ruleBpPack_of_bad_width (hw : argNat s 2 ∉ Params.symbolWidths) :
    ruleBpPack s = .error ⟨.invalidParameters, 4⟩ := if_pos hw

variable (hw : argNat s 2 = 10 ∨ argNat s 2 = 11)

include hw

theorem ruleBpPack_of_src_outside (hsrc : s.dmemBytes < argNat s 0 + 2 * argNat s 1) :
    ruleBpPack s = .error ⟨.addressError, argNat s 0⟩ := by
  simp [ruleBpPack, hw, valid, hsrc]

variable (hsrc : argNat s 0 + 2 * argNat s 1 ≤ s.dmemBytes)

include hsrc

theorem ruleBpPack_of_dst_outside (hdst : s.dmemBytes < argNat s 3 + cdiv (argNat s 1 * argNat s 2) 8) :
    ruleBpPack s = .error ⟨.addressError, argNat s 3⟩ := by
  simp [ruleBpPack, hw, valid, hsrc.not_gt, hdst]

variable (hdst : argNat s 3 + cdiv (argNat s 1 * argNat s 2) 8 ≤ s.dmemBytes)

include hdst

theorem ruleBpPack_of_out_of_range {j : Nat} (hj : j < argNat s 1)
    (hlarge : 2 ^ argNat s 2 ≤ symRead s (argNat s 0) j)
    (hfirst : ∀ m, m < j → symRead s (argNat s 0) m < 2 ^ argNat s 2) :
    ruleBpPack s = .error ⟨.symbolOutOfRange, j⟩ := by
  have hfound : firstOutOfRange (2 ^ argNat s 2) 0 (symReads s (argNat s 0) (argNat s 1)) = some (0 + j) :=
    firstOutOfRange_some _ 0 j (by simpa using hj) (by rwa [symReads_getElem _ _ _ _ hj]) fun m hm => by
      rw [symReads_getElem _ _ _ _ (hm.trans hj)]
      exact hfirst m hm
  simp [ruleBpPack, hw, valid, hfound, hsrc.not_gt, hdst.not_gt]

theorem ruleBpPack_of_checked (hrange : ∀ j, j < argNat s 1 → symRead s (argNat s 0) j < 2 ^ argNat s 2) :
    ruleBpPack s = .ok (packEffect s) := by
  have hnone := (firstOutOfRange_none _ 0).mpr (forall_mem_symReads.mpr hrange)
  simp [ruleBpPack, hw, valid, hnone, hsrc.not_gt, hdst.not_gt, packEffect]

end

/-! ## What BP_PACK stored -/

theorem packEffect_result1_lt (s : State) : (packEffect s).result1 < 2 ^ 32 := by
  have := cdiv_mul_lt (argNat s 1 * argNat s 2) (b := 8) (by norm_num)
  simp only [packEffect]
  omega

theorem storesOnly_packEffect (s : State) :
    StoresOnly s (finish .bpPack s (packEffect s)) (argNat s 3) (cdiv (argNat s 1 * argNat s 2) 8) := by
  simpa using storesOnly_finish (i := .bpPack) (s := s) (e := packEffect s) rfl rfl rfl

theorem byteAt_finish_packEffect {s : State} {p : Nat} (hp : p < 8 * cdiv (argNat s 1 * argNat s 2) 8) :
    byteAt (finish .bpPack s (packEffect s)) (argNat s 3 + p / 8) =
      (packSymbols (argNat s 2) (symReads s (argNat s 0) (argNat s 1))).getD (p / 8) 0 :=
  byteAt_finish_getD rfl (by simpa using Nat.div_lt_of_lt_mul hp)

theorem getLsbD_finish_packEffect {s : State} {p : Nat} (hp : p < argNat s 1 * argNat s 2) :
    (byteAt (finish .bpPack s (packEffect s)) (argNat s 3 + p / 8)).getLsbD (7 - p % 8) =
      (symRead s (argNat s 0) (p / argNat s 2)).testBit (argNat s 2 - 1 - p % argNat s 2) := by
  have hle := le_cdiv_mul (argNat s 1 * argNat s 2) (b := 8) (by norm_num)
  have hj : p / argNat s 2 < argNat s 1 := Nat.div_lt_of_lt_mul (by rwa [Nat.mul_comm])
  rw [byteAt_finish_packEffect (by omega), getLsbD_packSymbols (by simpa using hp), getD_symReads hj]

theorem getLsbD_finish_packEffect_pad {s : State} {p : Nat} (hp : argNat s 1 * argNat s 2 ≤ p)
    (hp8 : p < 8 * cdiv (argNat s 1 * argNat s 2) 8) :
    (byteAt (finish .bpPack s (packEffect s)) (argNat s 3 + p / 8)).getLsbD (7 - p % 8) = false := by
  rw [byteAt_finish_packEffect hp8, getLsbD_packSymbols_pad (by simpa using hp)]

/-- Settles O36: each check by what the rule answers there, and the stored bits by those of the packed symbols. -/
theorem packLaysSymbolsMsbFirst : Obligations.PackLaysSymbolsMsbFirst := by
  rintro s _ _ _ _ _ rfl rfl rfl rfl rfl
  refine ⟨fun h10 h11 => exec_of_error (i := .bpPack) (ruleBpPack_of_bad_width (not_mem_symbolWidths h10 h11)),
    fun hw => ?_⟩
  refine ⟨fun hsrc => exec_of_error (i := .bpPack) (ruleBpPack_of_src_outside hw hsrc),
    fun hsrc hdst => exec_of_error (i := .bpPack) (ruleBpPack_of_dst_outside hw hsrc hdst),
    fun hsrc hdst => ⟨fun j hj hlarge hfirst => ?outOfRange, fun hrange => ?checked⟩⟩
  case outOfRange =>
    exact exec_of_error (i := .bpPack) (ruleBpPack_of_out_of_range hw hsrc hdst hj hlarge hfirst)
  case checked =>
    exact ⟨_, exec_of_ok (i := .bpPack) (ruleBpPack_of_checked hw hsrc hdst hrange), storesOnly_packEffect s,
      fun p => getLsbD_finish_packEffect, fun p => getLsbD_finish_packEffect_pad, toResult_of_lt .bpPack,
      toResult_of_lt .bpPack (packEffect_result1_lt s)⟩

/-! ## The checks of BP_UNPACK -/

/-- What BP_UNPACK does once every check has passed (42_bitpack.md R172). -/
def unpackEffect (s : State) : Effect :=
  { writes := [(argNat s 3, symbolArrayBytes (unpackBytes (argNat s 2) (memRead s (argNat s 0) (argNat s 1))))]
    result0 := cdiv (8 * argNat s 1) (argNat s 2)
    result1 := cdiv (8 * argNat s 1) (argNat s 2) * argNat s 2 - 8 * argNat s 1 }

section

variable {s : State}

theorem ruleBpUnpack_of_bad_width (hw : argNat s 2 ∉ Params.symbolWidths) :
    ruleBpUnpack s = .error ⟨.invalidParameters, 4⟩ := if_pos hw

variable (hw : argNat s 2 = 10 ∨ argNat s 2 = 11)

include hw

theorem ruleBpUnpack_of_src_outside (hsrc : s.dmemBytes < argNat s 0 + argNat s 1) :
    ruleBpUnpack s = .error ⟨.addressError, argNat s 0⟩ := by
  simp [ruleBpUnpack, hw, valid, hsrc]

variable (hsrc : argNat s 0 + argNat s 1 ≤ s.dmemBytes)

include hsrc

theorem ruleBpUnpack_of_dst_outside
    (hdst : s.dmemBytes < argNat s 3 + 2 * cdiv (8 * argNat s 1) (argNat s 2)) :
    ruleBpUnpack s = .error ⟨.addressError, argNat s 3⟩ := by
  simp [ruleBpUnpack, hw, valid, hsrc.not_gt, hdst]

theorem ruleBpUnpack_of_checked
    (hdst : argNat s 3 + 2 * cdiv (8 * argNat s 1) (argNat s 2) ≤ s.dmemBytes) :
    ruleBpUnpack s = .ok (unpackEffect s) := by
  simp [ruleBpUnpack, hw, valid, hsrc.not_gt, hdst.not_gt, unpackEffect]

end

/-! ## What BP_UNPACK stored -/

theorem storesOnly_unpackEffect (s : State) : StoresOnly s (finish .bpUnpack s (unpackEffect s)) (argNat s 3)
    (2 * cdiv (8 * argNat s 1) (argNat s 2)) := by
  simpa using storesOnly_finish (i := .bpUnpack) (s := s) (e := unpackEffect s) rfl rfl rfl

section

variable {s : State} (hw : argNat s 2 = 10 ∨ argNat s 2 = 11)

include hw

theorem unpackEffect_result1_lt : (unpackEffect s).result1 < 2 ^ 32 := by
  have := cdiv_mul_lt (8 * argNat s 1) (b := argNat s 2) (by omega)
  simp only [unpackEffect]
  omega

theorem symRead_finish_unpackEffect {j : Nat} (hj : j < cdiv (8 * argNat s 1) (argNat s 2)) :
    symRead (finish .bpUnpack s (unpackEffect s)) (argNat s 3) j =
      (unpackBytes (argNat s 2) (memRead s (argNat s 0) (argNat s 1))).getD j 0 := by
  have hpow : 2 ^ argNat s 2 ≤ 65536 := by rcases hw with h | h <;> simp [h]
  exact symRead_finish rfl (fun x hx => (unpackBytes_lt _ _ x hx).trans_le hpow) (by simpa using hj)

theorem symRead_finish_unpackEffect_lt {j : Nat} (hj : j < cdiv (8 * argNat s 1) (argNat s 2)) :
    symRead (finish .bpUnpack s (unpackEffect s)) (argNat s 3) j < 2 ^ argNat s 2 := by
  rw [symRead_finish_unpackEffect hw hj, List.getD_eq_getElem _ _ (by simpa using hj)]
  exact unpackBytes_lt _ _ _ (List.getElem_mem _)

theorem testBit_symRead_finish_unpackEffect {j q : Nat} (hj : j < cdiv (8 * argNat s 1) (argNat s 2))
    (hq : q < argNat s 2) :
    (symRead (finish .bpUnpack s (unpackEffect s)) (argNat s 3) j).testBit (argNat s 2 - 1 - q) =
      if j * argNat s 2 + q < 8 * argNat s 1 then
        (byteAt s (argNat s 0 + (j * argNat s 2 + q) / 8)).getLsbD (7 - (j * argNat s 2 + q) % 8)
      else false := by
  rw [symRead_finish_unpackEffect hw hj, testBit_unpackBytes (by simpa using hj) hq, getLsbD_getD_memRead]

end

/-- Settles O37: each check by what the rule answers there, and the stored symbols by the bits they were cut from. -/
theorem unpackCutsSymbolsMsbFirst : Obligations.UnpackCutsSymbolsMsbFirst := by
  rintro s _ _ _ _ _ rfl rfl rfl rfl rfl
  refine ⟨fun h10 h11 => exec_of_error (i := .bpUnpack) (ruleBpUnpack_of_bad_width
    (not_mem_symbolWidths h10 h11)), fun hw => ?_⟩
  exact ⟨fun hsrc => exec_of_error (i := .bpUnpack) (ruleBpUnpack_of_src_outside hw hsrc),
    fun hsrc hdst => exec_of_error (i := .bpUnpack) (ruleBpUnpack_of_dst_outside hw hsrc hdst),
    fun hsrc hdst => ⟨_, exec_of_ok (i := .bpUnpack) (ruleBpUnpack_of_checked hw hsrc hdst),
      storesOnly_unpackEffect s, fun j => symRead_finish_unpackEffect_lt hw,
      fun j q => testBit_symRead_finish_unpackEffect hw, toResult_of_lt .bpUnpack,
      toResult_of_lt .bpUnpack (unpackEffect_result1_lt hw)⟩⟩

end Sys2Proof.Machine
end

section
/-!
One bit of a string, or one element of a list, changed: what the change becomes in the symbols and bytes of
the string (00_scope.md R13, R14).
-/

namespace Sys2Proof.Machine

/-! ## Lists with one element changed -/

theorem modify_append_of_lt {α : Type} (f : α → α) {A : List α} (B : List α) {i : Nat} (h : i < A.length) :
    (A ++ B).modify i f = A.modify i f ++ B := by
  induction A generalizing i with
  | nil => simp at h
  | cons a A ih =>
    cases i with
    | zero => rfl
    | succ i => simpa using ih (by simpa using h)

theorem modify_append_length_add {α : Type} (f : α → α) (A B : List α) (i : Nat) :
    (A ++ B).modify (A.length + i) f = A ++ B.modify i f :=
  List.modifyTailIdx_add _ i A B

/-- A change that moves every element changes the list. -/
theorem modify_ne {α : Type} {f : α → α} (hf : ∀ a, f a ≠ a) {A : List α} {i : Nat} (h : i < A.length) :
    A.modify i f ≠ A := by
  intro heq
  have hi := congrArg (·[i]?) heq
  simp [h, hf] at hi

theorem forall_mem_modify {α : Type} {P : α → Prop} {f : α → α} (hf : ∀ a, P a → P (f a)) {A : List α}
    (hA : ∀ a ∈ A, P a) (i : Nat) : ∀ a ∈ A.modify i f, P a := by
  intro a ha
  obtain ⟨k, hk, rfl⟩ := List.getElem_of_mem ha
  rw [List.getElem_modify]
  have hmem := hA _ (List.getElem_mem (List.length_modify f A i ▸ hk))
  split
  · exact hf _ hmem
  · exact hmem

theorem map_modify {α β : Type} {φ : α → β} {f : α → α} {g : β → β} (hφ : ∀ a, φ (f a) = g (φ a)) (A : List α)
    (i : Nat) : (A.modify i f).map φ = (A.map φ).modify i g := by
  induction A generalizing i with
  | nil => simp
  | cons a A ih =>
    cases i with
    | zero => simp [hφ]
    | succ i => simpa using ih i

/-! ## A flipped bit -/

/-- `val` tells bit strings of one length apart. -/
theorem eq_of_valOf_eq {s u : List Bool} (hlen : s.length = u.length) (h : valOf s = valOf u) : s = u := by
  rw [← bitsOf_valOf s, ← bitsOf_valOf u, hlen, h]

/-- Bit `b` of a number is bit `w - 1 - b` of its string, most significant first. -/
theorem bitsOf_xor_twoPow {w b : Nat} (hb : b < w) (x : Nat) :
    bitsOf w (x ^^^ 2 ^ b) = (bitsOf w x).modify (w - 1 - b) not := by
  apply List.ext_getElem
  · simp
  · intro q hq _
    have hq : q < w := by simpa using hq
    have hiff : b = w - 1 - q ↔ w - 1 - b = q := by omega
    rw [List.getElem_modify]
    by_cases h : w - 1 - b = q <;> simp [bitsOf, Nat.testBit_xor, Nat.testBit_two_pow, hiff, h]

/-- A flipped bit of a symbol is a flipped bit of the joined string. -/
theorem symbolsToBits_modify_xor {w b : Nat} (hb : b < w) (X : List Nat) (j : Nat) :
    symbolsToBits w (X.modify j (· ^^^ 2 ^ b)) = (symbolsToBits w X).modify (w * j + (w - 1 - b)) not := by
  induction X generalizing j with
  | nil => simp
  | cons x X ih =>
    cases j with
    | zero =>
      rw [List.modify_zero_cons, symbolsToBits_cons, symbolsToBits_cons, bitsOf_xor_twoPow hb, Nat.mul_zero,
        Nat.zero_add, modify_append_of_lt _ _ (by rw [length_bitsOf]; omega)]
    | succ j =>
      have hpos : w * (j + 1) + (w - 1 - b) = (bitsOf w x).length + (w * j + (w - 1 - b)) := by
        rw [length_bitsOf, Nat.mul_succ]
        omega
      rw [List.modify_succ_cons, symbolsToBits_cons, symbolsToBits_cons, ih, hpos, modify_append_length_add]

theorem bytesToBits_modify_xor {b : Nat} (hb : b < 8) (B : List Byte) (k : Nat) :
    bytesToBits (B.modify k (· ^^^ BitVec.twoPow 8 b)) = (bytesToBits B).modify (8 * k + (7 - b)) not := by
  have hpow : 2 ^ b % 2 ^ 8 = 2 ^ b := Nat.mod_eq_of_lt (Nat.pow_lt_pow_right (by norm_num) hb)
  rw [bytesToBits_eq, bytesToBits_eq,
    map_modify (g := (· ^^^ 2 ^ b)) fun a => by rw [BitVec.toNat_xor, BitVec.toNat_twoPow, hpow]]
  exact symbolsToBits_modify_xor hb _ k

/-- A flipped bit of a string is a flipped bit of one of its bytes. -/
theorem bitsToBytes_modify_not {s : List Bool} {p : Nat} (hp : p < s.length) :
    bitsToBytes (s.modify p not) = (bitsToBytes s).modify (p / 8) (· ^^^ BitVec.twoPow 8 (7 - p % 8)) := by
  have hpos : 8 * (p / 8) + (7 - (7 - p % 8)) = p := by omega
  apply bytesToBits_injective
  rw [bytesToBits_modify_xor (by omega), hpos, bytesToBits_bitsToBytes, bytesToBits_bitsToBytes,
    List.length_modify, modify_append_of_lt _ _ hp]

end Sys2Proof.Machine
end

section
/-!
The CRC-32 (43_framing.md R195): each of its steps can be undone, so two messages that differ in one byte
have different checksums.
-/

namespace Sys2Proof.Machine

/-- Settles O45: the CRC of the nine bytes, run. -/
theorem crcCheckValue : Obligations.CrcCheckValue := by
  unfold Obligations.CrcCheckValue
  decide +kernel

/-- The polynomial's top bit is 1, so the top bit of a shift is the bit shifted out. -/
theorem getLsbD_crcShift_31 (c : Word) : (crcShift c).getLsbD 31 = c.getLsbD 0 := by
  unfold crcShift
  split
  · next h => simp [h]
  · next h => simpa using h

theorem crcShift_injective : Function.Injective crcShift := by
  intro c d h
  have h0 : c.getLsbD 0 = d.getLsbD 0 := by rw [← getLsbD_crcShift_31, h, getLsbD_crcShift_31]
  have hshift : c >>> 1 = d >>> 1 := by
    unfold crcShift at h
    rw [h0] at h
    split at h
    · exact (BitVec.xor_left_inj _).mp h
    · exact h
  refine BitVec.eq_of_getLsbD_eq fun i _ => ?_
  cases i with
  | zero => exact h0
  | succ i => simpa [Nat.add_comm] using congrArg (·.getLsbD i) hshift

/-- A byte's step is eight shifts, so it tells apart what goes into them. -/
theorem crcByte_eq_iff {c d : Word} {a b : Byte} :
    crcByte c a = crcByte d b ↔ c ^^^ a.setWidth 32 = d ^^^ b.setWidth 32 :=
  (crcShift_injective.iterate 8).eq_iff

theorem crcByte_left_injective (b : Byte) : Function.Injective (crcByte · b) := fun _ _ h =>
  (BitVec.xor_left_inj _).mp (crcByte_eq_iff.mp h)

theorem crcByte_right_injective (c : Word) : Function.Injective (crcByte c) := fun a b h => by
  have hw : a.setWidth 32 = b.setWidth 32 := (BitVec.xor_right_inj _).mp (crcByte_eq_iff.mp h)
  simpa using congrArg (BitVec.setWidth 8) hw

theorem foldl_crcByte_injective (B : List Byte) : Function.Injective (B.foldl crcByte) := by
  induction B with
  | nil => exact Function.injective_id
  | cons b B ih => exact ih.comp (crcByte_left_injective b)

theorem foldl_crcByte_modify_ne {f : Byte → Byte} (hf : ∀ b, f b ≠ b) {B : List Byte} {k : Nat}
    (hk : k < B.length) (c : Word) : (B.modify k f).foldl crcByte c ≠ B.foldl crcByte c := by
  induction B generalizing k c with
  | nil => simp at hk
  | cons b B ih =>
    cases k with
    | zero => exact fun h => hf b (crcByte_right_injective c (foldl_crcByte_injective B h))
    | succ k => exact ih (by simpa using hk) (crcByte c b)

/-- One changed byte changes the checksum. -/
theorem crc32_modify_ne {f : Byte → Byte} (hf : ∀ b, f b ≠ b) {B : List Byte} {k : Nat} (hk : k < B.length) :
    crc32 (B.modify k f) ≠ crc32 B := fun h =>
  foldl_crcByte_modify_ne hf hk _ ((BitVec.xor_left_inj _).mp h)

/-- One flipped bit changes the share checksum (43_framing.md R201). -/
theorem shareCk_modify_not_ne {H : List Bool} {p : Nat} (hp : p < H.length) :
    shareCk (H.modify p not) ≠ shareCk H := by
  rw [shareCk, bitsToBytes_modify_not hp, shareCk, Ne, BitVec.toNat_inj]
  refine crc32_modify_ne (fun b h => ?_) (by rw [length_bitsToBytes, cdiv]; omega)
  have hbit : BitVec.twoPow 8 (7 - p % 8) = 0 := by simpa using h
  have hlsb := congrArg (·.getLsbD (7 - p % 8)) hbit
  simp at hlsb
  omega

end Sys2Proof.Machine
end

section
/-!
SF_FRAME (43_framing.md R190 to R192, R196, R197): the lengths of a framed share and its payload, what the rule
answers, check by check, and the symbols it stores.
-/

namespace Sys2Proof.Machine

/-! ## Lengths -/

/-- The pad of a framed share is shorter than a symbol (43_framing.md R192). -/
theorem frameSymbols_bounds (L : Nat) : 8 * L + 42 ≤ 10 * frameSymbols L ∧ 10 * frameSymbols L < 8 * L + 52 := by
  have hle := le_cdiv_mul (8 * L + 42) (b := 10) (by norm_num)
  have hlt := cdiv_mul_lt (8 * L + 42) (b := 10) (by norm_num)
  simp only [frameSymbols, Params.shareOverheadBits]
  omega

/-- `Linf(W)` is the even length of at least 2 whose frame has `W` symbols (43_framing.md R197). -/
theorem payloadLen?_eq_some_iff {W L : Nat} :
    payloadLen? W = some L ↔ 2 ≤ L ∧ L % 2 = 0 ∧ frameSymbols L = W := by
  constructor
  · intro h
    obtain ⟨hW, h2, heven, -⟩ := payloadLen?_some h
    exact ⟨h2, heven, hW⟩
  · rintro ⟨h2, heven, rfl⟩
    obtain ⟨hle, hlt⟩ := frameSymbols_bounds L
    have hclosed : 2 * ((10 * frameSymbols L - 42) / 16) = L := by omega
    simp only [payloadLen?, Params.shareOverheadBits, hclosed]
    rw [if_neg (by omega), if_pos (by omega)]

theorem payloadLen?_eq_none_iff {W : Nat} :
    payloadLen? W = none ↔ ∀ L, 2 ≤ L → L % 2 = 0 → frameSymbols L ≠ W := by
  simp [Option.eq_none_iff_forall_ne_some, payloadLen?_eq_some_iff]

/-- Settles O41: the closed form against the length function, and the consistent counts by running it. -/
theorem payloadLengthIsInferredUniquely : Obligations.PayloadLengthIsInferredUniquely :=
  ⟨fun _ _ => payloadLen?_eq_some_iff, fun _ => payloadLen?_eq_none_iff, by decide +kernel⟩

/-! ## The bits of a framed share -/

/-- `F'`: the framed bit string with its pad (43_framing.md R192). -/
def paddedFrame (idx thr : Nat) (P : List Byte) : List Bool :=
  frameBits idx thr P ++ zeroBits (10 * frameSymbols P.length - 8 * P.length - 42)

theorem frameSyms_eq (idx thr : Nat) (P : List Byte) :
    frameSyms idx thr P = symbolsOf 10 (frameSymbols P.length) (paddedFrame idx thr P) := rfl

@[simp] theorem length_frameHead (idx thr : Nat) (P : List Byte) :
    (frameHead idx thr P).length = 10 + 8 * P.length := by
  simp only [frameHead, List.length_append, length_bitsOf, length_bytesToBits, Params.hdrFieldBits]

@[simp] theorem length_frameBits (idx thr : Nat) (P : List Byte) :
    (frameBits idx thr P).length = 8 * P.length + 42 := by
  simp only [frameBits, List.length_append, length_frameHead, length_bitsOf, Params.shareCkBits]
  omega

@[simp] theorem length_paddedFrame (idx thr : Nat) (P : List Byte) :
    (paddedFrame idx thr P).length = 10 * frameSymbols P.length := by
  have := (frameSymbols_bounds P.length).1
  simp only [paddedFrame, List.length_append, length_frameBits, length_zeroBits]
  omega

theorem frameSyms_lt (idx thr : Nat) (P : List Byte) : ∀ x ∈ frameSyms idx thr P, x < 1024 :=
  symbolsOf_lt 10 _ _

theorem getD_frameSyms (idx thr : Nat) {P : List Byte} {j : Nat} (hj : j < frameSymbols P.length) :
    (frameSyms idx thr P).getD j 0 = valOf (((paddedFrame idx thr P).drop (10 * j)).take 10) := by
  rw [frameSyms_eq, List.getD_eq_getElem?_getD, getElem?_symbolsOf _ _ _ _ hj, Option.getD_some]

/-! ## The checks of SF_FRAME -/

/-- What SF_FRAME does once every check has passed (43_framing.md R196). -/
def frameEffect (s : State) : Effect :=
  { writes := [(argNat s 4,
      symbolArrayBytes (frameSyms (argNat s 0) (argNat s 1) (memRead s (argNat s 2) (argNat s 3))))]
    result0 := frameSymbols (argNat s 3)
    result1 := 8 * argNat s 3 + 42 }

section

variable {s : State}

theorem ruleSfFrame_of_bad_index (hidx : ¬(1 ≤ argNat s 0 ∧ argNat s 0 ≤ 32)) :
    ruleSfFrame s = .error ⟨.invalidParameters, 5⟩ := if_pos hidx

variable (hidx : 1 ≤ argNat s 0 ∧ argNat s 0 ≤ 32)

include hidx

theorem ruleSfFrame_of_bad_threshold (hthr : ¬(1 ≤ argNat s 1 ∧ argNat s 1 ≤ 32)) :
    ruleSfFrame s = .error ⟨.invalidParameters, 6⟩ := by
  simp only [ruleSfFrame, if_neg (not_not.mpr hidx), if_pos hthr]

variable (hthr : 1 ≤ argNat s 1 ∧ argNat s 1 ≤ 32)

include hthr

theorem ruleSfFrame_of_badLength (hL : badLength (argNat s 3) = true) :
    ruleSfFrame s = .error ⟨.invalidParameters, 2⟩ := by
  simp [ruleSfFrame, hidx, hthr, hL]

variable (hL : badLength (argNat s 3) = false)

include hL

theorem ruleSfFrame_of_payload_outside (hpa : s.dmemBytes < argNat s 2 + argNat s 3) :
    ruleSfFrame s = .error ⟨.addressError, argNat s 2⟩ := by
  simp [ruleSfFrame, hidx, hthr, hL, valid, hpa]

variable (hpa : argNat s 2 + argNat s 3 ≤ s.dmemBytes)

include hpa

theorem ruleSfFrame_of_dst_outside (hdst : s.dmemBytes < argNat s 4 + 2 * frameSymbols (argNat s 3)) :
    ruleSfFrame s = .error ⟨.addressError, argNat s 4⟩ := by
  simp [ruleSfFrame, hidx, hthr, hL, valid, hpa.not_gt, hdst]

theorem ruleSfFrame_of_checked (hdst : argNat s 4 + 2 * frameSymbols (argNat s 3) ≤ s.dmemBytes) :
    ruleSfFrame s = .ok (frameEffect s) := by
  simp [ruleSfFrame, hidx, hthr, hL, valid, hpa.not_gt, hdst.not_gt, frameEffect]

end

/-! ## What SF_FRAME stored -/

theorem storesOnly_frameEffect (s : State) :
    StoresOnly s (finish .sfFrame s (frameEffect s)) (argNat s 4) (2 * frameSymbols (argNat s 3)) := by
  simpa using storesOnly_finish (i := .sfFrame) (s := s) (e := frameEffect s) rfl rfl rfl

theorem symRead_finish_frameEffect {s : State} {j : Nat} (hj : j < frameSymbols (argNat s 3)) :
    symRead (finish .sfFrame s (frameEffect s)) (argNat s 4) j =
      (frameSyms (argNat s 0) (argNat s 1) (memRead s (argNat s 2) (argNat s 3))).getD j 0 :=
  symRead_finish rfl (fun x hx => (frameSyms_lt _ _ _ x hx).trans (by norm_num)) (by simpa using hj)

/-- Settles O40: each check by what the rule answers there, and each symbol by the bits it was cut from. -/
theorem frameWritesTheFramedShare : Obligations.FrameWritesTheFramedShare := by
  rintro s _ _ _ _ _ _ rfl rfl rfl rfl rfl rfl
  refine ⟨fun hidx => exec_of_error (i := .sfFrame) (ruleSfFrame_of_bad_index hidx), fun hidx1 hidx2 => ?_⟩
  have hidx := And.intro hidx1 hidx2
  refine ⟨fun hthr => exec_of_error (i := .sfFrame) (ruleSfFrame_of_bad_threshold hidx hthr),
    fun hthr1 hthr2 => ?_⟩
  have hthr := And.intro hthr1 hthr2
  refine ⟨fun hL => exec_of_error (i := .sfFrame)
    (ruleSfFrame_of_badLength hidx hthr ((badLength_iff _).mpr hL)), fun h0 heven => ?_⟩
  have hL := badLength_eq_false h0 heven
  refine ⟨fun hpa => exec_of_error (i := .sfFrame) (ruleSfFrame_of_payload_outside hidx hthr hL hpa),
    fun hpa hdst => exec_of_error (i := .sfFrame) (ruleSfFrame_of_dst_outside hidx hthr hL hpa hdst),
    fun hpa hdst H F hH hF => ⟨_, exec_of_ok (i := .sfFrame) (ruleSfFrame_of_checked hidx hthr hL hpa hdst),
      storesOnly_frameEffect s, fun j hj => ?symbol, toResult_of_lt .sfFrame, toResult_of_lt .sfFrame⟩⟩
  case symbol =>
    have hpadded : F = paddedFrame (argNat s 0) (argNat s 1) (memRead s (argNat s 2) (argNat s 3)) := by
      rw [hF, hH, paddedFrame, length_memRead]
      rfl
    exact (symRead_finish_frameEffect hj).trans (hpadded ▸ getD_frameSyms _ _ (by rwa [length_memRead]))

/-! ## A frame that completed without error -/

/-- A command that completed without error is its rule's effect. -/
theorem ruleOf_ok_of_exec {i : Instr} {s t : State} (h : exec i s = .next t) (herr : t.err = false) :
    ∃ e, ruleOf i s = .ok e ∧ t = finish i s e := by
  rcases exec_cases i s with ⟨e, he, hx⟩ | ⟨r, -, hx⟩
  · exact ⟨e, he, Host.Outcome.next.inj (h.symm.trans hx)⟩
  · obtain rfl := Host.Outcome.next.inj (h.symm.trans hx)
    cases herr

/-- An SF_FRAME that completed without error passed the checks of index, threshold and length, and left the
framed share. -/
theorem frame_checked {s t : State} (h : exec .sfFrame s = .next t) (herr : t.err = false) :
    (1 ≤ argNat s 0 ∧ argNat s 0 ≤ 32) ∧ (1 ≤ argNat s 1 ∧ argNat s 1 ≤ 32) ∧
      (2 ≤ argNat s 3 ∧ argNat s 3 % 2 = 0) ∧ t = finish .sfFrame s (frameEffect s) := by
  obtain ⟨e, he, rfl⟩ := ruleOf_ok_of_exec h herr
  have hraise : ∀ r, ruleSfFrame s ≠ .error r := fun r hr => by cases hr.symm.trans he
  by_cases hidx : 1 ≤ argNat s 0 ∧ argNat s 0 ≤ 32
  case neg => exact absurd (ruleSfFrame_of_bad_index hidx) (hraise _)
  by_cases hthr : 1 ≤ argNat s 1 ∧ argNat s 1 ≤ 32
  case neg => exact absurd (ruleSfFrame_of_bad_threshold hidx hthr) (hraise _)
  cases hL : badLength (argNat s 3)
  case true => exact absurd (ruleSfFrame_of_badLength hidx hthr hL) (hraise _)
  by_cases hpa : argNat s 2 + argNat s 3 ≤ s.dmemBytes
  case neg => exact absurd (ruleSfFrame_of_payload_outside hidx hthr hL (Nat.lt_of_not_le hpa)) (hraise _)
  by_cases hdst : argNat s 4 + 2 * frameSymbols (argNat s 3) ≤ s.dmemBytes
  case neg => exact absurd (ruleSfFrame_of_dst_outside hidx hthr hL hpa (Nat.lt_of_not_le hdst)) (hraise _)
  obtain rfl : e = frameEffect s :=
    Except.ok.inj (he.symm.trans (ruleSfFrame_of_checked hidx hthr hL hpa hdst))
  have hbad : ¬(argNat s 3 = 0 ∨ argNat s 3 % 2 = 1) := by rw [← badLength_iff, hL]; decide
  exact ⟨hidx, hthr, by omega, rfl⟩

end Sys2Proof.Machine
end

section
/-!
SF_UNFRAME (43_framing.md R198 to R200): what the parse and the rule answer, check by check, and the round trip
with SF_FRAME.
-/

namespace Sys2Proof.Machine

/-! ## The parse of a frame -/

/-- What the bits of a frame carry for payload length `L` (43_framing.md R198). -/
def frameFields (L : Nat) (F : List Bool) : Parsed :=
  { idx := valOf (F.take 5) + 1
    thr := valOf ((F.drop 5).take 5) + 1
    payload := bitsToBytes ((F.drop 10).take (8 * L)) }

theorem parseFrame_of_out_of_range {L : Nat} {X : List Nat} {j : Nat} (hj : j < X.length) (hlarge : 1024 ≤ X[j])
    (hfirst : ∀ m (h : m < j), X[m] < 1024) : parseFrame L X = .error ⟨.symbolOutOfRange, j⟩ := by
  have hfound : firstOutOfRange 1024 0 X = some (0 + j) := firstOutOfRange_some X 0 j hj hlarge hfirst
  simp [parseFrame, hfound]

section

variable {L W : Nat} {X : List Nat} (hlen : X.length = W) (hX : ∀ x ∈ X, x < 1024)

include hlen hX

theorem parseFrame_of_pad
    (hpad : (symbolsToBits 10 X).drop (8 * L + 42) ≠ zeroBits (10 * W - 8 * L - 42)) :
    parseFrame L X = .error ⟨.malformedShare, 2⟩ := by
  subst hlen
  simp [parseFrame, (firstOutOfRange_none X 0).mpr hX, hpad]

variable (hpad : (symbolsToBits 10 X).drop (8 * L + 42) = zeroBits (10 * W - 8 * L - 42))

include hpad

theorem parseFrame_of_checksum (hck : valOf (((symbolsToBits 10 X).drop (10 + 8 * L)).take 32) ≠
    shareCk ((symbolsToBits 10 X).take (10 + 8 * L))) : parseFrame L X = .error ⟨.malformedShare, 3⟩ := by
  subst hlen
  simp [parseFrame, (firstOutOfRange_none X 0).mpr hX, hpad, hck]

theorem parseFrame_of_checked (hck : valOf (((symbolsToBits 10 X).drop (10 + 8 * L)).take 32) =
    shareCk ((symbolsToBits 10 X).take (10 + 8 * L))) :
    parseFrame L X = .ok (frameFields L (symbolsToBits 10 X)) := by
  subst hlen
  simp [parseFrame, (firstOutOfRange_none X 0).mpr hX, hpad, hck, frameFields]

end

/-- A frame that parses passed every check of R198. -/
theorem parseFrame_checked {L : Nat} {X : List Nat} {p : Parsed} (h : parseFrame L X = .ok p) :
    (∀ x ∈ X, x < 1024) ∧
      (symbolsToBits 10 X).drop (8 * L + 42) = zeroBits (10 * X.length - 8 * L - 42) ∧
      valOf (((symbolsToBits 10 X).drop (10 + 8 * L)).take 32) =
        shareCk ((symbolsToBits 10 X).take (10 + 8 * L)) := by
  cases hr : firstOutOfRange 1024 0 X with
  | some j => simp [parseFrame, hr] at h
  | none =>
    have hX := (firstOutOfRange_none X 0).mp hr
    refine ⟨hX, ?_⟩
    by_contra hnot
    rw [not_and_or] at hnot
    by_cases hpad : (symbolsToBits 10 X).drop (8 * L + 42) = zeroBits (10 * X.length - 8 * L - 42)
    · have hck := hnot.resolve_left (not_not.mpr hpad)
      cases h.symm.trans (parseFrame_of_checksum rfl hX hpad hck)
    · cases h.symm.trans (parseFrame_of_pad rfl hX hpad)

/-! ## The checks of SF_UNFRAME -/

/-- What SF_UNFRAME does once its frame has parsed (43_framing.md R199). -/
def unframeEffect (s : State) (L : Nat) (p : Parsed) : Effect :=
  { writes := [(argNat s 2, p.payload)], result0 := L, result1 := p.idx + 256 * p.thr }

section

variable {s : State}

theorem ruleSfUnframe_of_no_length (hW : payloadLen? (argNat s 1) = none) :
    ruleSfUnframe s = .error ⟨.malformedShare, 1⟩ := by
  simp [ruleSfUnframe, hW]

variable {L : Nat} (hW : payloadLen? (argNat s 1) = some L)

include hW

theorem ruleSfUnframe_of_sa_outside (hsa : s.dmemBytes < argNat s 0 + 2 * argNat s 1) :
    ruleSfUnframe s = .error ⟨.addressError, argNat s 0⟩ := by
  simp [ruleSfUnframe, hW, valid, hsa]

variable (hsa : argNat s 0 + 2 * argNat s 1 ≤ s.dmemBytes)

include hsa

theorem ruleSfUnframe_of_dst_outside (hdst : s.dmemBytes < argNat s 2 + L) :
    ruleSfUnframe s = .error ⟨.addressError, argNat s 2⟩ := by
  simp [ruleSfUnframe, hW, valid, hsa.not_gt, hdst]

variable (hdst : argNat s 2 + L ≤ s.dmemBytes)

include hdst

theorem ruleSfUnframe_of_parse_error {r : Raise}
    (hp : parseFrame L (symReads s (argNat s 0) (argNat s 1)) = .error r) : ruleSfUnframe s = .error r := by
  simp [ruleSfUnframe, hW, valid, hsa.not_gt, hdst.not_gt, hp]

theorem ruleSfUnframe_of_parsed {p : Parsed}
    (hp : parseFrame L (symReads s (argNat s 0) (argNat s 1)) = .ok p) :
    ruleSfUnframe s = .ok (unframeEffect s L p) := by
  simp [ruleSfUnframe, hW, valid, hsa.not_gt, hdst.not_gt, hp, unframeEffect]

end

/-- An SF_UNFRAME that completed without error passed every check of R199. -/
theorem unframe_checked {s t : State} (h : exec .sfUnframe s = .next t) (herr : t.err = false) :
    ∃ L p, payloadLen? (argNat s 1) = some L ∧ argNat s 0 + 2 * argNat s 1 ≤ s.dmemBytes ∧
      argNat s 2 + L ≤ s.dmemBytes ∧ parseFrame L (symReads s (argNat s 0) (argNat s 1)) = .ok p := by
  obtain ⟨e, he, -⟩ := ruleOf_ok_of_exec h herr
  have hraise : ∀ r, ruleSfUnframe s ≠ .error r := fun r hr => by cases hr.symm.trans he
  cases hW : payloadLen? (argNat s 1) with
  | none => exact absurd (ruleSfUnframe_of_no_length hW) (hraise _)
  | some L =>
    by_cases hsa : argNat s 0 + 2 * argNat s 1 ≤ s.dmemBytes
    case neg => exact absurd (ruleSfUnframe_of_sa_outside hW (Nat.lt_of_not_le hsa)) (hraise _)
    by_cases hdst : argNat s 2 + L ≤ s.dmemBytes
    case neg => exact absurd (ruleSfUnframe_of_dst_outside hW hsa (Nat.lt_of_not_le hdst)) (hraise _)
    cases hp : parseFrame L (symReads s (argNat s 0) (argNat s 1)) with
    | error r => exact absurd (ruleSfUnframe_of_parse_error hW hsa hdst hp) (hraise _)
    | ok p => exact ⟨L, p, rfl, hsa, hdst, hp⟩

/-! ## What SF_UNFRAME stored -/

section

variable {s : State} {L : Nat} {p : Parsed} (hW : payloadLen? (argNat s 1) = some L)
  (hp : parseFrame L (symReads s (argNat s 0) (argNat s 1)) = .ok p)

include hW hp

/-- The fields of a frame that SF_UNFRAME parsed are in range. -/
theorem unframe_fields : 1 ≤ p.idx ∧ p.idx ≤ 32 ∧ 1 ≤ p.thr ∧ p.thr ≤ 32 ∧ p.payload.length = L := by
  obtain ⟨-, -, -, hfit, -⟩ := payloadLen?_some hW
  exact parseFrame_ok hp (by rwa [length_symReads])

theorem storesOnly_unframeEffect :
    StoresOnly s (finish .sfUnframe s (unframeEffect s L p)) (argNat s 2) L := by
  obtain ⟨-, -, -, -, hlen⟩ := unframe_fields hW hp
  simpa [hlen] using storesOnly_finish (i := .sfUnframe) (s := s) (e := unframeEffect s L p) rfl rfl rfl

theorem memRead_finish_unframeEffect :
    memRead (finish .sfUnframe s (unframeEffect s L p)) (argNat s 2) L = p.payload := by
  obtain ⟨-, -, -, -, rfl⟩ := unframe_fields hW hp
  exact memRead_finish rfl

theorem result1_finish_unframeEffect :
    (finish .sfUnframe s (unframeEffect s L p)).result1 = BitVec.ofNat 32 (p.idx + 256 * p.thr) := by
  obtain ⟨-, hidx, -, hthr, -⟩ := unframe_fields hW hp
  exact toResult_of_lt .sfUnframe (by simp only [unframeEffect]; omega)

end

/-- Settles O42: each check by what the rule or the parse answers there, and the fields by those of the parse. -/
theorem unframeParsesTheFramedShare : Obligations.UnframeParsesTheFramedShare := by
  rintro s sa W dst (rfl : sa = argNat s 0) (rfl : W = argNat s 1) (rfl : dst = argNat s 2)
  refine ⟨fun hnone => exec_of_error (i := .sfUnframe)
    (ruleSfUnframe_of_no_length (payloadLen?_eq_none_iff.mpr hnone)), fun L h2 heven hcount => ?_⟩
  have hW : payloadLen? (argNat s 1) = some L := payloadLen?_eq_some_iff.mpr ⟨h2, heven, hcount⟩
  refine ⟨fun hsa => exec_of_error (i := .sfUnframe) (ruleSfUnframe_of_sa_outside hW hsa),
    fun hsa hdst => exec_of_error (i := .sfUnframe) (ruleSfUnframe_of_dst_outside hW hsa hdst),
    fun hsa hdst => ?_⟩
  have raises {r : Raise} (hr : parseFrame L (symReads s (argNat s 0) (argNat s 1)) = .error r) :
      exec .sfUnframe s = .next (raise s r) :=
    exec_of_error (i := .sfUnframe) (ruleSfUnframe_of_parse_error hW hsa hdst hr)
  refine ⟨fun j hj hlarge hfirst => raises (parseFrame_of_out_of_range
    (hj.trans_eq (length_symReads ..).symm) ?large ?first),
    fun hrange => ?_⟩
  case large => rwa [symReads_getElem _ _ _ _ hj]
  case first =>
    intro m hm
    rw [symReads_getElem _ _ _ _ (hm.trans hj)]
    exact hfirst m hm
  have hX : ∀ x ∈ symReads s (argNat s 0) (argNat s 1), x < 1024 := forall_mem_symReads.mpr hrange
  rintro _ _ rfl rfl
  have hlen := length_symReads s (argNat s 0) (argNat s 1)
  refine ⟨fun hpad => raises (parseFrame_of_pad hlen hX hpad),
    fun hpad => ⟨fun hck => raises (parseFrame_of_checksum hlen hX hpad hck), fun hck => ?_⟩⟩
  have hp := parseFrame_of_checked hlen hX hpad hck
  exact ⟨_, exec_of_ok (i := .sfUnframe) (ruleSfUnframe_of_parsed hW hsa hdst hp),
    storesOnly_unframeEffect hW hp, memRead_finish_unframeEffect hW hp, toResult_of_lt .sfUnframe,
    result1_finish_unframeEffect hW hp⟩

/-! ## The round trip -/

/-- A padded frame: header and payload, then checksum and pad. -/
theorem paddedFrame_eq_head_append (idx thr : Nat) (P : List Byte) : paddedFrame idx thr P =
    frameHead idx thr P ++ (bitsOf 32 (shareCk (frameHead idx thr P)) ++
      zeroBits (10 * frameSymbols P.length - 8 * P.length - 42)) :=
  List.append_assoc ..

theorem take_paddedFrame (idx thr : Nat) (P : List Byte) :
    (paddedFrame idx thr P).take (10 + 8 * P.length) = frameHead idx thr P := by
  rw [paddedFrame_eq_head_append, List.take_left' (length_frameHead ..)]

theorem drop_paddedFrame (idx thr : Nat) (P : List Byte) : (paddedFrame idx thr P).drop (8 * P.length + 42) =
    zeroBits (10 * frameSymbols P.length - 8 * P.length - 42) :=
  List.drop_left' (length_frameBits ..)

theorem valOf_checksum_paddedFrame (idx thr : Nat) (P : List Byte) :
    valOf (((paddedFrame idx thr P).drop (10 + 8 * P.length)).take 32) = shareCk (frameHead idx thr P) := by
  rw [paddedFrame_eq_head_append, List.drop_left' (length_frameHead ..), List.take_left' (length_bitsOf ..)]
  exact valOf_bitsOf (BitVec.isLt _)

/-- The header fields hold index and threshold less 1 (43_framing.md R191), and the payload follows. -/
theorem frameFields_paddedFrame {idx thr : Nat} (hidx : 1 ≤ idx ∧ idx ≤ 32) (hthr : 1 ≤ thr ∧ thr ≤ 32)
    (P : List Byte) : frameFields P.length (paddedFrame idx thr P) = ⟨idx, thr, P⟩ := by
  have hi : valOf (bitsOf 5 (idx - 1)) + 1 = idx := by rw [valOf_bitsOf (by omega)]; omega
  have ht : valOf (bitsOf 5 (thr - 1)) + 1 = thr := by rw [valOf_bitsOf (by omega)]; omega
  have hhdr : (bitsOf 5 (idx - 1) ++ bitsOf 5 (thr - 1)).length = 10 := by simp
  rw [paddedFrame_eq_head_append, frameHead, frameFields]
  simp only [Parsed.mk.injEq]
  refine ⟨?_, ?_, ?_⟩
  · rw [List.append_assoc, List.append_assoc, List.take_left' (length_bitsOf ..), hi]
  · rw [List.append_assoc, List.append_assoc, List.drop_left' (length_bitsOf ..), List.append_assoc,
      List.take_left' (length_bitsOf ..), ht]
  · rw [List.append_assoc, List.drop_left' hhdr, List.take_left' (length_bytesToBits P), bitsToBytes_bytesToBits]

/-- The symbols of a framed share parse to what it was framed from (43_framing.md R200). -/
theorem parseFrame_frameSyms {idx thr : Nat} (hidx : 1 ≤ idx ∧ idx ≤ 32) (hthr : 1 ≤ thr ∧ thr ≤ 32)
    (P : List Byte) : parseFrame P.length (frameSyms idx thr P) = .ok ⟨idx, thr, P⟩ := by
  have hbits : symbolsToBits 10 (frameSyms idx thr P) = paddedFrame idx thr P :=
    symbolsToBits_symbolsOf _ _ _ (length_paddedFrame idx thr P)
  rw [← frameFields_paddedFrame hidx hthr P, ← hbits]
  refine parseFrame_of_checked (length_frameSyms idx thr P) (frameSyms_lt idx thr P) ?pad ?checksum <;> rw [hbits]
  case pad => exact drop_paddedFrame idx thr P
  case checksum => rw [valOf_checksum_paddedFrame, take_paddedFrame]

theorem symReads_eq_of_getD {u : State} {a n : Nat} {X : List Nat} (hlen : X.length = n)
    (h : ∀ j, j < n → symRead u a j = X.getD j 0) : symReads u a n = X := by
  refine List.ext_getElem (by simpa using hlen.symm) fun j hj hjX => ?_
  rw [symReads_getElem _ _ _ _ (hlen ▸ hjX), h j (hlen ▸ hjX), List.getD_eq_getElem]

/-- Settles O43: the symbols of a completed SF_FRAME parse to its operands. -/
theorem frameThenUnframeRestoresTheShare : Obligations.FrameThenUnframeRestoresTheShare := by
  rintro s t u ht herr L W (rfl : L = argNat s 3) (rfl : W = frameSymbols (argNat s 3))
    (hWu : _ = argNat u 1) (hsa : argNat u 0 + _ ≤ _) (hdst : argNat u 2 + _ ≤ _) hcopied
  obtain ⟨hidx, hthr, ⟨h2, heven⟩, rfl⟩ := frame_checked ht herr
  have hW : payloadLen? (argNat u 1) = some (argNat s 3) := payloadLen?_eq_some_iff.mpr ⟨h2, heven, hWu⟩
  have hX : symReads u (argNat u 0) (argNat u 1) =
      frameSyms (argNat s 0) (argNat s 1) (memRead s (argNat s 2) (argNat s 3)) := by
    refine symReads_eq_of_getD (by rw [length_frameSyms, length_memRead, hWu]) fun j hj => ?_
    rw [← hWu] at hj
    exact (hcopied j hj).trans (symRead_finish_frameEffect hj)
  have hp : parseFrame (argNat s 3) (symReads u (argNat u 0) (argNat u 1)) =
      .ok ⟨argNat s 0, argNat s 1, memRead s (argNat s 2) (argNat s 3)⟩ := by
    have hparse := parseFrame_frameSyms hidx hthr (memRead s (argNat s 2) (argNat s 3))
    rwa [length_memRead, ← hX] at hparse
  refine ⟨_, exec_of_ok (i := .sfUnframe) (ruleSfUnframe_of_parsed hW (hWu ▸ hsa) hdst hp), rfl, ?length, ?header,
    fun i hi => ?payload⟩
  case length =>
    refine (toResult_of_lt .sfUnframe (BitVec.isLt s.args[3])).trans ?_
    rw [BitVec.ofNat_toNat, BitVec.setWidth_eq]
  case header =>
    rw [result1_finish_unframeEffect hW hp, BitVec.toNat_ofNat]
    exact Nat.mod_eq_of_lt (by simp only; omega)
  case payload =>
    have hread := memRead_finish_unframeEffect hW hp
    exact (getD_memRead hi).symm.trans (hread ▸ getD_memRead hi)

end Sys2Proof.Machine
end

section
/-!
Error detection (43_framing.md R201): one flipped bit of a frame that parses, by where it lies.
-/

namespace Sys2Proof.Machine

/-- A flipped bit among the low ten keeps every symbol in range. -/
theorem modify_xor_lt {X : List Nat} {b : Nat} (hX : ∀ x ∈ X, x < 1024) (hb : b < 10) (j : Nat) :
    ∀ x ∈ X.modify j (· ^^^ 2 ^ b), x < 1024 := by
  have hpow : 2 ^ b < 2 ^ 10 := Nat.pow_lt_pow_right (by norm_num) hb
  exact forall_mem_modify (fun x (hx : x < 2 ^ 10) => Nat.xor_lt_two_pow hx hpow) hX j

section

variable {L W j b : Nat} {X : List Nat} {p : Parsed} (hp : parseFrame L X = .ok p)

include hp

/-- A bit above the low ten takes the symbol out of range, and no symbol before it is. -/
theorem parseFrame_flip_high (hj : j < X.length) (hb : 10 ≤ b) :
    parseFrame L (X.modify j (· ^^^ 2 ^ b)) = .error ⟨.symbolOutOfRange, j⟩ := by
  obtain ⟨hX, -⟩ := parseFrame_checked hp
  have hpow : (1024 : Nat) ≤ 2 ^ b := Nat.pow_le_pow_right (n := 2) (by norm_num) hb
  refine parseFrame_of_out_of_range (by simpa using hj) ?large fun m hm => ?first
  case large =>
    have hclear : X[j].testBit b = false := Nat.testBit_lt_two_pow ((hX _ (List.getElem_mem hj)).trans_le hpow)
    rw [List.getElem_modify, if_pos rfl]
    exact hpow.trans (Nat.ge_two_pow_of_testBit (by simp [Nat.testBit_xor, hclear]))
  case first =>
    rw [List.getElem_modify, if_neg hm.ne']
    exact hX _ (List.getElem_mem _)

variable (hb : b < 10) (hlen : X.length = W)

include hb hlen

/-- A bit of the pad is checked first. -/
theorem parseFrame_flip_pad (hj : j < W) (hpos : 8 * L + 42 ≤ 10 * j + (9 - b)) :
    parseFrame L (X.modify j (· ^^^ 2 ^ b)) = .error ⟨.malformedShare, 2⟩ := by
  obtain ⟨hX, hpad, -⟩ := parseFrame_checked hp
  refine parseFrame_of_pad (by rw [List.length_modify, hlen]) (modify_xor_lt hX hb j) ?_
  rw [symbolsToBits_modify_xor hb, List.drop_modify_of_ge _ _ _ _ hpos, ← hlen, ← hpad]
  refine modify_ne Bool.not_ne_self ?_
  rw [List.length_drop, length_symbolsToBits]
  omega

/-- A bit of the frame leaves the pad alone, and changes either the checksum computed or the one read. -/
theorem parseFrame_flip_frame (hfit : 8 * L + 42 ≤ 10 * W) (hpos : 10 * j + (9 - b) < 8 * L + 42) :
    parseFrame L (X.modify j (· ^^^ 2 ^ b)) = .error ⟨.malformedShare, 3⟩ := by
  obtain ⟨hX, hpad, hck⟩ := parseFrame_checked hp
  have hbits := length_symbolsToBits 10 X
  refine parseFrame_of_checksum (by rw [List.length_modify, hlen]) (modify_xor_lt hX hb j) ?pad ?checksum <;>
    rw [symbolsToBits_modify_xor hb]
  case pad => rw [List.drop_modify_of_lt _ _ _ _ hpos, hpad, hlen]
  case checksum =>
    rw [List.take_modify]
    by_cases hhead : 10 * j + (9 - b) < 10 + 8 * L
    · rw [List.drop_modify_of_lt _ _ _ _ hhead, hck]
      exact (shareCk_modify_not_ne (by rw [List.length_take]; omega)).symm
    · have hsame : ((symbolsToBits 10 X).take (10 + 8 * L)).modify (10 * j + (9 - b)) not =
          (symbolsToBits 10 X).take (10 + 8 * L) :=
        List.modify_eq_self (by rw [List.length_take]; omega)
      rw [List.drop_modify_of_ge _ _ _ _ (Nat.le_of_not_lt hhead), List.take_modify, hsame, ← hck]
      refine fun h => modify_ne Bool.not_ne_self ?_ (eq_of_valOf_eq (List.length_modify ..) h)
      rw [List.length_take, List.length_drop]
      omega

end

/-- Symbols read after one of them was changed. -/
theorem symReads_eq_modify {s s' : State} {a n j : Nat} {f : Nat → Nat}
    (hother : ∀ i, i < n → i ≠ j → symRead s' a i = symRead s a i) (hj : symRead s' a j = f (symRead s a j)) :
    symReads s' a n = (symReads s a n).modify j f := by
  refine List.ext_getElem (by simp) fun i hi _ => ?_
  have hin : i < n := by simpa using hi
  rw [symReads_getElem _ _ _ _ hin, List.getElem_modify, symReads_getElem _ _ _ _ hin]
  split
  · next h => rw [← h, hj]
  · next h => exact hother i hin (Ne.symm h)

/-- Settles O44: the changed symbols are the old ones with one bit flipped, and the parse answers by where it
lies. -/
theorem singleBitFlipIsDetected : Obligations.SingleBitFlipIsDetected := by
  intro s s' t sa W L j b ht herr hargs hsize (hsa : sa = argNat s 0) (hW : W = argNat s 1) h2 heven hcount hj _
    hother hflip
  subst hsa hW
  obtain ⟨L', p, hlen', hsa, hdst, hp⟩ := unframe_checked ht herr
  have hlen : payloadLen? (argNat s 1) = some L := payloadLen?_eq_some_iff.mpr ⟨h2, heven, hcount⟩
  obtain rfl : L = L' := Option.some.inj (hlen.symm.trans hlen')
  have harg : ∀ i, argNat s' i = argNat s i := fun i => by rw [argNat, hargs, argNat]
  have hX := symReads_eq_modify (f := (· ^^^ 2 ^ b)) hother hflip
  have raises {r : Raise}
      (hr : parseFrame L ((symReads s (argNat s 0) (argNat s 1)).modify j (· ^^^ 2 ^ b)) = .error r) :
      exec .sfUnframe s' = .next (raise s' r) := by
    refine exec_of_error (i := .sfUnframe) (ruleSfUnframe_of_parse_error (L := L) ?_ ?_ ?_ ?_) <;>
      simp only [harg, hsize]
    · exact hlen
    · exact hsa
    · exact hdst
    · rw [hX, hr]
  have hn := length_symReads s (argNat s 0) (argNat s 1)
  obtain ⟨-, -, -, hfit, -⟩ := payloadLen?_some hlen
  exact ⟨fun hb => raises (parseFrame_flip_high hp (hn.symm ▸ hj) hb),
    fun hb hpos => raises (parseFrame_flip_frame hp hb hn hfit hpos),
    fun hb hpos => raises (parseFrame_flip_pad hp hb hn hj hpos)⟩

end Sys2Proof.Machine
end

section
/-!
CK_B39_ENC (44_checksum.md R220, R221): the bits of an entropy and its checksum, what the rule answers, check by
check, and the symbols it stores.
-/

namespace Sys2Proof.Machine

/-! ## Lengths -/

/-- The lengths of R10 are multiples of 4 up to 32, so that a hash of 32 bytes has the bits of the checksum. -/
theorem b39Lengths_bounds {L : Nat} (hL : L ∈ Params.b39Lengths) : L ≤ 32 ∧ L % 4 = 0 := by
  simp only [List.mem_cons, List.not_mem_nil, or_false] at hL
  omega

/-- Entropy and checksum fill whole symbols (44_checksum.md R220). -/
theorem b39_symbols_whole {L : Nat} (hL : L ∈ Params.b39Lengths) : 8 * L + L / 4 = 11 * (3 * L / 4) := by
  have := b39Lengths_bounds hL
  omega

@[simp] theorem length_sha256Bytes (B : List Byte) : (sha256Bytes B).length = 32 := by simp [sha256Bytes]

/-- The leading bits of the port's hash, counted by the length of the entropy. -/
theorem b39Check_sha256Bytes {E : List Byte} {L : Nat} (hE : E.length = L) :
    b39Check sha256Bytes E = (bytesToBits (Config.sha256 E).toList).take (L / 4) := by
  rw [b39Check, hE, sha256Bytes]

/-! ## The bits of an entropy and its checksum -/

/-- `M(E)`: the entropy and the leading bits of its hash (44_checksum.md R220). -/
def b39Bits (hash : List Byte → List Byte) (E : List Byte) : List Bool := bytesToBits E ++ b39Check hash E

theorem b39Symbols_eq (hash : List Byte → List Byte) (E : List Byte) :
    b39Symbols hash E = symbolsOf 11 (3 * E.length / 4) (b39Bits hash E) := rfl

theorem b39Symbols_lt (hash : List Byte → List Byte) (E : List Byte) : ∀ x ∈ b39Symbols hash E, x < 2048 :=
  symbolsOf_lt 11 _ _

theorem getD_b39Symbols (hash : List Byte → List Byte) {E : List Byte} {j : Nat} (hj : j < 3 * E.length / 4) :
    (b39Symbols hash E).getD j 0 = valOf (((b39Bits hash E).drop (11 * j)).take 11) := by
  rw [b39Symbols_eq, List.getD_eq_getElem?_getD, getElem?_symbolsOf _ _ _ _ hj, Option.getD_some]

theorem length_b39Bits {hash : List Byte → List Byte} {E : List Byte} (hE : E.length ∈ Params.b39Lengths)
    (hhash : (hash E).length = 32) : (b39Bits hash E).length = 11 * (3 * E.length / 4) := by
  obtain ⟨hle, -⟩ := b39Lengths_bounds hE
  rw [← b39_symbols_whole hE, b39Bits, b39Check, List.length_append, List.length_take, length_bytesToBits,
    length_bytesToBits, hhash]
  omega

/-! ## The checks of CK_B39_ENC -/

/-- What CK_B39_ENC does once every check has passed (44_checksum.md R221). -/
def b39EncEffect (s : State) : Effect :=
  { writes := [(argNat s 2, symbolArrayBytes (b39Symbols sha256Bytes (memRead s (argNat s 0) (argNat s 1))))]
    result0 := 3 * argNat s 1 / 4
    result1 := argNat s 1 / 4 }

section

variable {s : State}

theorem ruleCkB39Enc_of_bad_length (hL : argNat s 1 ∉ Params.b39Lengths) :
    ruleCkB39Enc s = .error ⟨.invalidParameters, 7⟩ := if_pos hL

variable (hL : argNat s 1 ∈ Params.b39Lengths)

include hL

theorem ruleCkB39Enc_of_src_outside (hsrc : s.dmemBytes < argNat s 0 + argNat s 1) :
    ruleCkB39Enc s = .error ⟨.addressError, argNat s 0⟩ := by
  simp [ruleCkB39Enc, -List.mem_cons, hL, valid, hsrc]

variable (hsrc : argNat s 0 + argNat s 1 ≤ s.dmemBytes)

include hsrc

theorem ruleCkB39Enc_of_dst_outside (hdst : s.dmemBytes < argNat s 2 + 2 * (3 * argNat s 1 / 4)) :
    ruleCkB39Enc s = .error ⟨.addressError, argNat s 2⟩ := by
  simp [ruleCkB39Enc, -List.mem_cons, hL, valid, hsrc.not_gt, hdst]

theorem ruleCkB39Enc_of_checked (hdst : argNat s 2 + 2 * (3 * argNat s 1 / 4) ≤ s.dmemBytes) :
    ruleCkB39Enc s = .ok (b39EncEffect s) := by
  simp [ruleCkB39Enc, -List.mem_cons, hL, valid, hsrc.not_gt, hdst.not_gt, b39EncEffect]

end

/-! ## What CK_B39_ENC stored -/

theorem storesOnly_b39EncEffect (s : State) :
    StoresOnly s (finish .ckB39Enc s (b39EncEffect s)) (argNat s 2) (2 * (3 * argNat s 1 / 4)) := by
  simpa using storesOnly_finish (i := .ckB39Enc) (s := s) (e := b39EncEffect s) rfl rfl rfl

theorem symRead_finish_b39EncEffect {s : State} {j : Nat} (hj : j < 3 * argNat s 1 / 4) :
    symRead (finish .ckB39Enc s (b39EncEffect s)) (argNat s 2) j =
      (b39Symbols sha256Bytes (memRead s (argNat s 0) (argNat s 1))).getD j 0 :=
  symRead_finish rfl (fun x hx => (b39Symbols_lt _ _ x hx).trans (by norm_num)) (by simpa using hj)

/-- Settles O46: each check by what the rule answers there, and each symbol by the bits it was cut from. -/
theorem b39EncodeAppendsTheHashPrefix : Obligations.B39EncodeAppendsTheHashPrefix := by
  rintro s src L dst _ (rfl : src = argNat s 0) (rfl : L = argNat s 1) (rfl : dst = argNat s 2) rfl
  refine ⟨fun hL => exec_of_error (i := .ckB39Enc) (ruleCkB39Enc_of_bad_length hL), fun hL => ?_⟩
  obtain ⟨hmax, -⟩ := b39Lengths_bounds hL
  refine ⟨fun hsrc => exec_of_error (i := .ckB39Enc) (ruleCkB39Enc_of_src_outside hL hsrc),
    fun hsrc hdst => exec_of_error (i := .ckB39Enc) (ruleCkB39Enc_of_dst_outside hL hsrc hdst),
    fun hsrc hdst M hM => ⟨_, exec_of_ok (i := .ckB39Enc) (ruleCkB39Enc_of_checked hL hsrc hdst),
      storesOnly_b39EncEffect s, fun j hj => ?symbol,
      toResult_of_lt .ckB39Enc (v := 3 * argNat s 1 / 4) (by omega),
      toResult_of_lt .ckB39Enc (v := argNat s 1 / 4) (by omega)⟩⟩
  case symbol =>
    have hbits : M = b39Bits sha256Bytes (memRead s (argNat s 0) (argNat s 1)) := by
      rw [hM, b39Bits, b39Check_sha256Bytes (length_memRead ..)]
    exact (symRead_finish_b39EncEffect hj).trans (hbits ▸ getD_b39Symbols _ (by rwa [length_memRead]))

/-! ## An encoding that completed without error -/

/-- A CK_B39_ENC that completed without error passed the check of the length and left the symbols. -/
theorem b39Enc_checked {s t : State} (h : exec .ckB39Enc s = .next t) (herr : t.err = false) :
    argNat s 1 ∈ Params.b39Lengths ∧ t = finish .ckB39Enc s (b39EncEffect s) := by
  obtain ⟨e, he, rfl⟩ := ruleOf_ok_of_exec h herr
  have hraise : ∀ r, ruleCkB39Enc s ≠ .error r := fun r hr => by cases hr.symm.trans he
  by_cases hL : argNat s 1 ∈ Params.b39Lengths
  case neg => exact absurd (ruleCkB39Enc_of_bad_length hL) (hraise _)
  by_cases hsrc : argNat s 0 + argNat s 1 ≤ s.dmemBytes
  case neg => exact absurd (ruleCkB39Enc_of_src_outside hL (Nat.lt_of_not_le hsrc)) (hraise _)
  by_cases hdst : argNat s 2 + 2 * (3 * argNat s 1 / 4) ≤ s.dmemBytes
  case neg => exact absurd (ruleCkB39Enc_of_dst_outside hL hsrc (Nat.lt_of_not_le hdst)) (hraise _)
  obtain rfl : e = b39EncEffect s := Except.ok.inj (he.symm.trans (ruleCkB39Enc_of_checked hL hsrc hdst))
  exact ⟨hL, rfl⟩

end Sys2Proof.Machine
end

section
/-!
CK_B39_DEC (44_checksum.md R222, R223): what the check of the received symbols and the rule answer, check by check,
and the round trip with CK_B39_ENC.
-/

namespace Sys2Proof.Machine

/-! ## Counts -/

/-- Each count of R222 belongs to the length it is computed from, and its symbols hold entropy and checksum. -/
theorem b39Counts_bounds {W : Nat} (hW : W ∈ Params.b39Counts) :
    4 * W / 3 ≤ 32 ∧ 11 * W = 8 * (4 * W / 3) + 4 * W / 3 / 4 := by
  simp only [List.mem_cons, List.not_mem_nil, or_false] at hW
  omega

/-- The counts of R222 are `3L/4` for the lengths of R10, and `4W/3` turns each back. -/
theorem b39_count_of_length {L : Nat} (hL : L ∈ Params.b39Lengths) :
    3 * L / 4 ∈ Params.b39Counts ∧ 4 * (3 * L / 4) / 3 = L := by
  simp only [List.mem_cons, List.not_mem_nil, or_false] at hL ⊢
  omega

/-! ## The check of received symbols -/

/-- The first element of DMEM that is too large for a symbol. -/
theorem firstOutOfRange_symReads {s : State} {a n j b : Nat} (hj : j < n) (hlarge : b ≤ symRead s a j)
    (hfirst : ∀ m, m < j → symRead s a m < b) : firstOutOfRange b 0 (symReads s a n) = some j := by
  have hfound := firstOutOfRange_some (b := b) (symReads s a n) 0 j (by rwa [length_symReads])
    (by rwa [symReads_getElem _ _ _ _ hj]) fun m hm => by
      rw [symReads_getElem _ _ _ _ (hm.trans hj)]
      exact hfirst m hm
  rwa [Nat.zero_add] at hfound

/-- The entropy bytes of received symbols (44_checksum.md R222). -/
def receivedEntropy (L : Nat) (X : List Nat) : List Byte := bitsToBytes ((symbolsToBits 11 X).take (8 * L))

theorem length_receivedEntropy {L : Nat} {X : List Nat} (hfit : 8 * L ≤ 11 * X.length) :
    (receivedEntropy L X).length = L := by
  rw [receivedEntropy, length_bitsToBytes, List.length_take, length_symbolsToBits, Nat.min_eq_left hfit, cdiv]
  omega

section

variable {hash : List Byte → List Byte} {L : Nat} {X : List Nat}

theorem b39Entropy_of_out_of_range {j : Nat} (hj : firstOutOfRange 2048 0 X = some j) :
    b39Entropy hash L X = .error ⟨.symbolOutOfRange, j⟩ := by
  simp only [b39Entropy, hj]

variable (hX : ∀ x ∈ X, x < 2048) (hlen : 11 * X.length = 8 * L + L / 4)

include hlen in
/-- The received checksum is all that follows the received entropy. -/
theorem take_receivedChecksum :
    ((symbolsToBits 11 X).drop (8 * L)).take (L / 4) = (symbolsToBits 11 X).drop (8 * L) :=
  List.take_of_length_le (by rw [List.length_drop, length_symbolsToBits]; omega)

include hX hlen

theorem b39Entropy_of_mismatch
    (hck : (symbolsToBits 11 X).drop (8 * L) ≠ b39Check hash (receivedEntropy L X)) :
    b39Entropy hash L X = .error ⟨.checksumMismatch, valOf ((symbolsToBits 11 X).drop (8 * L))⟩ := by
  rw [receivedEntropy] at hck
  simp only [b39Entropy, (firstOutOfRange_none X 0).mpr hX, take_receivedChecksum hlen, if_pos hck]

theorem b39Entropy_of_match
    (hck : (symbolsToBits 11 X).drop (8 * L) = b39Check hash (receivedEntropy L X)) :
    b39Entropy hash L X = .ok (receivedEntropy L X) := by
  rw [receivedEntropy] at hck
  simp only [b39Entropy, (firstOutOfRange_none X 0).mpr hX, take_receivedChecksum hlen, if_neg (not_not.mpr hck),
    receivedEntropy]

end

/-- The symbols of an entropy and its checksum are accepted as that entropy (44_checksum.md R223). -/
theorem b39Entropy_b39Symbols {hash : List Byte → List Byte} {E : List Byte}
    (hE : E.length ∈ Params.b39Lengths) (hhash : (hash E).length = 32) :
    b39Entropy hash E.length (b39Symbols hash E) = .ok E := by
  have hbits : symbolsToBits 11 (b39Symbols hash E) = b39Bits hash E :=
    symbolsToBits_symbolsOf _ _ _ (length_b39Bits hE hhash)
  have hreceived : receivedEntropy E.length (b39Symbols hash E) = E := by
    rw [receivedEntropy, hbits, b39Bits, List.take_left' (length_bytesToBits E), bitsToBytes_bytesToBits]
  have hlen : 11 * (b39Symbols hash E).length = 8 * E.length + E.length / 4 := by
    rw [length_b39Symbols, b39_symbols_whole hE]
  have hck : (symbolsToBits 11 (b39Symbols hash E)).drop (8 * E.length) =
      b39Check hash (receivedEntropy E.length (b39Symbols hash E)) := by
    rw [hreceived, hbits, b39Bits, List.drop_left' (length_bytesToBits E)]
  rw [b39Entropy_of_match (b39Symbols_lt hash E) hlen hck, hreceived]

/-! ## The checks of CK_B39_DEC -/

/-- What CK_B39_DEC does once its symbols are accepted as the entropy `E` (44_checksum.md R222). -/
def b39DecEffect (s : State) (E : List Byte) : Effect :=
  { writes := [(argNat s 2, E)], result0 := 4 * argNat s 1 / 3, result1 := 4 * argNat s 1 / 3 / 4 }

section

variable {s : State}

theorem ruleCkB39Dec_of_bad_count (hW : argNat s 1 ∉ Params.b39Counts) :
    ruleCkB39Dec s = .error ⟨.invalidParameters, 8⟩ := if_pos hW

variable (hW : argNat s 1 ∈ Params.b39Counts)

include hW

theorem ruleCkB39Dec_of_src_outside (hsrc : s.dmemBytes < argNat s 0 + 2 * argNat s 1) :
    ruleCkB39Dec s = .error ⟨.addressError, argNat s 0⟩ := by
  simp [ruleCkB39Dec, -List.mem_cons, hW, valid, hsrc]

variable (hsrc : argNat s 0 + 2 * argNat s 1 ≤ s.dmemBytes)

include hsrc

theorem ruleCkB39Dec_of_dst_outside (hdst : s.dmemBytes < argNat s 2 + 4 * argNat s 1 / 3) :
    ruleCkB39Dec s = .error ⟨.addressError, argNat s 2⟩ := by
  simp [ruleCkB39Dec, -List.mem_cons, hW, valid, hsrc.not_gt, hdst]

variable (hdst : argNat s 2 + 4 * argNat s 1 / 3 ≤ s.dmemBytes)

include hdst

theorem ruleCkB39Dec_of_entropy_error {r : Raise}
    (hr : b39Entropy sha256Bytes (4 * argNat s 1 / 3) (symReads s (argNat s 0) (argNat s 1)) = .error r) :
    ruleCkB39Dec s = .error r := by
  simp [ruleCkB39Dec, -List.mem_cons, hW, valid, hsrc.not_gt, hdst.not_gt, hr]

theorem ruleCkB39Dec_of_entropy {E : List Byte}
    (hE : b39Entropy sha256Bytes (4 * argNat s 1 / 3) (symReads s (argNat s 0) (argNat s 1)) = .ok E) :
    ruleCkB39Dec s = .ok (b39DecEffect s E) := by
  simp [ruleCkB39Dec, -List.mem_cons, hW, valid, hsrc.not_gt, hdst.not_gt, hE, b39DecEffect]

end

/-! ## What CK_B39_DEC stored -/

theorem storesOnly_b39DecEffect (s : State) {E : List Byte} {n : Nat} (hE : E.length = n) :
    StoresOnly s (finish .ckB39Dec s (b39DecEffect s E)) (argNat s 2) n :=
  hE ▸ storesOnly_finish rfl rfl rfl

theorem memRead_finish_b39DecEffect (s : State) {E : List Byte} {n : Nat} (hE : E.length = n) :
    memRead (finish .ckB39Dec s (b39DecEffect s E)) (argNat s 2) n = E :=
  hE ▸ memRead_finish rfl

/-- Settles O47: each check by what the rule or the check of the symbols answers there; the received entropy has
the length whose quarter is the number of checksum bits. -/
theorem b39DecodeVerifiesTheHashPrefix : Obligations.B39DecodeVerifiesTheHashPrefix := by
  rintro s src W dst _ (rfl : src = argNat s 0) (rfl : W = argNat s 1) (rfl : dst = argNat s 2) rfl
  refine ⟨fun hW => exec_of_error (i := .ckB39Dec) (ruleCkB39Dec_of_bad_count hW), fun hW => ?_⟩
  refine ⟨fun hsrc => exec_of_error (i := .ckB39Dec) (ruleCkB39Dec_of_src_outside hW hsrc),
    fun hsrc hdst => exec_of_error (i := .ckB39Dec) (ruleCkB39Dec_of_dst_outside hW hsrc hdst),
    fun hsrc hdst => ?_⟩
  have raises {r : Raise}
      (hr : b39Entropy sha256Bytes (4 * argNat s 1 / 3) (symReads s (argNat s 0) (argNat s 1)) = .error r) :
      exec .ckB39Dec s = .next (raise s r) :=
    exec_of_error (i := .ckB39Dec) (ruleCkB39Dec_of_entropy_error hW hsrc hdst hr)
  refine ⟨fun j hj hlarge hfirst => raises (b39Entropy_of_out_of_range
    (firstOutOfRange_symReads hj hlarge hfirst)), fun hrange => ?_⟩
  have hX : ∀ x ∈ symReads s (argNat s 0) (argNat s 1), x < 2048 := forall_mem_symReads.mpr hrange
  obtain ⟨hmax, hbits⟩ := b39Counts_bounds hW
  rintro _ E rfl (rfl : E = receivedEntropy _ _)
  have hlen : 11 * (symReads s (argNat s 0) (argNat s 1)).length =
      8 * (4 * argNat s 1 / 3) + 4 * argNat s 1 / 3 / 4 := by rw [length_symReads, hbits]
  have hE := length_receivedEntropy (Nat.le.intro hlen.symm)
  have hcheck := b39Check_sha256Bytes hE
  refine ⟨fun hck => raises (b39Entropy_of_mismatch hX hlen (hcheck ▸ hck)), fun hck => ?_⟩
  have hok := b39Entropy_of_match hX hlen (hck.trans hcheck.symm)
  exact ⟨_, exec_of_ok (i := .ckB39Dec) (ruleCkB39Dec_of_entropy hW hsrc hdst hok),
    storesOnly_b39DecEffect s hE, memRead_finish_b39DecEffect s hE,
    toResult_of_lt .ckB39Dec (v := 4 * argNat s 1 / 3) (by omega),
    toResult_of_lt .ckB39Dec (v := 4 * argNat s 1 / 3 / 4) (by omega)⟩

/-! ## The round trip -/

/-- Settles O48: the symbols of a completed CK_B39_ENC are accepted as the entropy they were made from. -/
theorem b39EncodeThenDecodeRestoresTheEntropy : Obligations.B39EncodeThenDecodeRestoresTheEntropy := by
  rintro s t u ht herr L W (rfl : L = argNat s 1) (rfl : W = 3 * argNat s 1 / 4) (hWu : _ = argNat u 1)
    (hsrc : argNat u 0 + _ ≤ _) (hdst : argNat u 2 + _ ≤ _) hcopied
  obtain ⟨hL, rfl⟩ := b39Enc_checked ht herr
  obtain ⟨hW, hlen⟩ := b39_count_of_length hL
  rw [hWu] at hW hlen hsrc hcopied
  have hX : symReads u (argNat u 0) (argNat u 1) = b39Symbols sha256Bytes (memRead s (argNat s 0) (argNat s 1)) := by
    refine symReads_eq_of_getD (by rw [length_b39Symbols, length_memRead, hWu]) fun j hj => ?_
    exact (hcopied j hj).trans (symRead_finish_b39EncEffect (hWu ▸ hj))
  have hE : b39Entropy sha256Bytes (4 * argNat u 1 / 3) (symReads u (argNat u 0) (argNat u 1)) =
      .ok (memRead s (argNat s 0) (argNat s 1)) := by
    have haccepted := b39Entropy_b39Symbols (E := memRead s (argNat s 0) (argNat s 1)) (by rwa [length_memRead])
      (length_sha256Bytes _)
    rw [length_memRead] at haccepted
    rw [hX, hlen, haccepted]
  refine ⟨_, exec_of_ok (i := .ckB39Dec) (ruleCkB39Dec_of_entropy hW hsrc (hlen ▸ hdst) hE), rfl, fun i hi => ?_⟩
  exact (byteAt_finish_getD rfl (by rwa [length_memRead])).trans (getD_memRead hi)

end Sys2Proof.Machine
end

section
/-!
PBKDF2 and HMAC as functions on byte sequences (45_kdf.md R240, R245): the loop as an exclusive-or of iterates, and
the passwords that HMAC does not tell apart.
-/

namespace Sys2Proof.Machine

/-! ## The loop of PBKDF2 -/

theorem getD_xorBytes {A B : List Byte} {k : Nat} (hA : k < A.length) (hB : k < B.length) :
    (xorBytes A B).getD k 0 = A.getD k 0 ^^^ B.getD k 0 := by
  simp [xorBytes, hA, hB]

/-- The loop adds to `T` the iterates that follow `U`. -/
theorem getD_pbkdf2Loop {prf : List Byte → List Byte → List Byte} {n k : Nat} (hprf : ∀ K M, (prf K M).length = n)
    (hk : k < n) (P : List Byte) (c : Nat) (U T : List Byte) (hT : T.length = n) :
    (pbkdf2Loop prf P c U T).getD k 0 =
      T.getD k 0 ^^^ xorSum (fun j => ((prf P)^[j] (prf P U)).getD k 0) c := by
  induction c generalizing U T with
  | zero => simp [pbkdf2Loop, xorSum]
  | succ c ih =>
    have hstep : (xorBytes T (prf P U)).getD k 0 = T.getD k 0 ^^^ (prf P U).getD k 0 :=
      getD_xorBytes (by rwa [hT]) (by rwa [hprf])
    rw [pbkdf2Loop, ih _ _ (by simp [hT, hprf]), hstep, xorSum_succ_left, BitVec.xor_assoc]
    rfl

/-- Settles O49: `U` and `T` start at the first iterate, and the loop adds the `c - 1` that follow. -/
theorem pbkdfIsTheXorOfItsIterates : Obligations.PbkdfIsTheXorOfItsIterates := by
  intro prf n hprf P S c hc
  obtain ⟨c, rfl⟩ := Nat.exists_eq_add_of_le' hc
  refine ⟨length_pbkdf2 hprf P S _, fun k hk => ?_⟩
  rw [xorSum_succ_left]
  exact getD_pbkdf2Loop hprf hk P c _ _ (hprf _ _)

/-! ## Passwords that HMAC does not tell apart -/

/-- The loop meets the password only through the pseudorandom function it selects. -/
theorem pbkdf2Loop_congr {prf : List Byte → List Byte → List Byte} {P Q : List Byte} (h : prf P = prf Q) (c : Nat)
    (U T : List Byte) : pbkdf2Loop prf P c U T = pbkdf2Loop prf Q c U T := by
  induction c generalizing U T with
  | zero => rfl
  | succ c ih => rw [pbkdf2Loop, pbkdf2Loop, h, ih]

theorem pbkdf2_congr {prf : List Byte → List Byte → List Byte} {P Q : List Byte} (h : prf P = prf Q)
    (S : List Byte) (c : Nat) : pbkdf2 prf P S c = pbkdf2 prf Q S c := by
  simp only [pbkdf2, pbkdf2Loop_congr h, h]

/-- A key of at most a block is zero-extended, whatever zeros it already ends in (45_kdf.md R245). -/
theorem hmacKey_append_zeros (H : List Byte → List Byte) {Bk z : Nat} {K : List Byte} (h : K.length + z ≤ Bk) :
    hmacKey H Bk (K ++ List.replicate z 0) = hmacKey H Bk K := by
  have hpad : z + (Bk - (K.length + z)) = Bk - K.length := by omega
  simp [hmacKey, h, (Nat.le_add_right _ z).trans h, hpad]

theorem hmacReference_append_zeros (H : List Byte → List Byte) {Bk z : Nat} {K : List Byte}
    (h : K.length + z ≤ Bk) : hmacReference H Bk (K ++ List.replicate z 0) = hmacReference H Bk K := by
  funext M
  rw [hmacReference, hmacReference, hmacKey_append_zeros H h]

/-- Settles O52: both passwords extend to the same block, so HMAC under them is one function. -/
theorem trailingZeroBytesOfAShortPasswordDoNotMatter :
    Obligations.TrailingZeroBytesOfAShortPasswordDoNotMatter :=
  fun H _ c _ _ S hP => pbkdf2_congr (hmacReference_append_zeros H hP) S c

end Sys2Proof.Machine
end

section
/-!
KDF_SLIP and KDF_BIP (45_kdf.md R241, R242): what the rule they share answers, check by check, and the key it stores.
-/

namespace Sys2Proof.Machine

@[simp] theorem length_hmacSha256Bytes (K M : List Byte) : (hmacSha256Bytes K M).length = 32 := by
  simp [hmacSha256Bytes]

@[simp] theorem length_hmacSha512Bytes (K M : List Byte) : (hmacSha512Bytes K M).length = 64 := by
  simp [hmacSha512Bytes]

/-- What a key derivation does once every check has passed (45_kdf.md R241, R242). -/
def deriveKeyEffect (s : State) (prf : List Byte → List Byte → List Byte) (saltPrefix : List Byte)
    (c dkLen : Nat) : Effect :=
  { writes := [(argNat s 4,
      pbkdf2 prf (memRead s (argNat s 0) (argNat s 1)) (saltPrefix ++ memRead s (argNat s 2) (argNat s 3)) c)]
    result0 := dkLen
    result1 := c }

section

variable {s : State} {prf : List Byte → List Byte → List Byte} {saltPrefix : List Byte} {c dkLen : Nat}

/-! ## The checks -/

theorem deriveKey_of_password_outside (hpa : s.dmemBytes < argNat s 0 + argNat s 1) :
    deriveKey s prf saltPrefix c dkLen = .error ⟨.addressError, argNat s 0⟩ := by
  simp [deriveKey, valid, hpa]

theorem deriveKey_of_passphrase_outside (hpa : argNat s 0 + argNat s 1 ≤ s.dmemBytes)
    (hsa : s.dmemBytes < argNat s 2 + argNat s 3) :
    deriveKey s prf saltPrefix c dkLen = .error ⟨.addressError, argNat s 2⟩ := by
  simp [deriveKey, valid, hpa.not_gt, hsa]

theorem deriveKey_of_dst_outside (hpa : argNat s 0 + argNat s 1 ≤ s.dmemBytes)
    (hsa : argNat s 2 + argNat s 3 ≤ s.dmemBytes) (hdst : s.dmemBytes < argNat s 4 + dkLen) :
    deriveKey s prf saltPrefix c dkLen = .error ⟨.addressError, argNat s 4⟩ := by
  simp [deriveKey, valid, hpa.not_gt, hsa.not_gt, hdst]

theorem deriveKey_of_checked (hpa : argNat s 0 + argNat s 1 ≤ s.dmemBytes)
    (hsa : argNat s 2 + argNat s 3 ≤ s.dmemBytes) (hdst : argNat s 4 + dkLen ≤ s.dmemBytes) :
    deriveKey s prf saltPrefix c dkLen = .ok (deriveKeyEffect s prf saltPrefix c dkLen) := by
  simp [deriveKey, valid, hpa.not_gt, hsa.not_gt, hdst.not_gt, deriveKeyEffect]

/-! ## What a key derivation stored -/

variable (hprf : ∀ K M, (prf K M).length = dkLen)

include hprf

theorem storesOnly_deriveKeyEffect (i : Instr) :
    StoresOnly s (finish i s (deriveKeyEffect s prf saltPrefix c dkLen)) (argNat s 4) dkLen := by
  simpa only [length_pbkdf2 hprf] using
    storesOnly_finish (i := i) (s := s) (e := deriveKeyEffect s prf saltPrefix c dkLen) rfl rfl rfl

theorem memRead_finish_deriveKeyEffect (i : Instr) :
    memRead (finish i s (deriveKeyEffect s prf saltPrefix c dkLen)) (argNat s 4) dkLen =
      pbkdf2 prf (memRead s (argNat s 0) (argNat s 1)) (saltPrefix ++ memRead s (argNat s 2) (argNat s 3)) c := by
  simpa only [length_pbkdf2 hprf] using
    memRead_finish (i := i) (s := s) (e := deriveKeyEffect s prf saltPrefix c dkLen) rfl

/-- A command whose rule is a key derivation: its checks in order, and then the key and the results. -/
theorem exec_of_deriveKey {i : Instr} (hi : ruleOf i s = deriveKey s prf saltPrefix c dkLen)
    (hdkLen : dkLen < 2 ^ 32) (hc : c < 2 ^ 32) :
    (s.dmemBytes < argNat s 0 + argNat s 1 → exec i s = .next (erred s 10 (argNat s 0))) ∧
    (argNat s 0 + argNat s 1 ≤ s.dmemBytes → s.dmemBytes < argNat s 2 + argNat s 3 →
      exec i s = .next (erred s 10 (argNat s 2))) ∧
    (argNat s 0 + argNat s 1 ≤ s.dmemBytes → argNat s 2 + argNat s 3 ≤ s.dmemBytes →
      s.dmemBytes < argNat s 4 + dkLen → exec i s = .next (erred s 10 (argNat s 4))) ∧
    (argNat s 0 + argNat s 1 ≤ s.dmemBytes → argNat s 2 + argNat s 3 ≤ s.dmemBytes →
      argNat s 4 + dkLen ≤ s.dmemBytes →
      ∃ t, exec i s = .next t ∧ StoresOnly s t (argNat s 4) dkLen ∧
        memRead t (argNat s 4) dkLen = pbkdf2 prf (memRead s (argNat s 0) (argNat s 1))
          (saltPrefix ++ memRead s (argNat s 2) (argNat s 3)) c ∧
        t.result0 = BitVec.ofNat 32 dkLen ∧ t.result1 = BitVec.ofNat 32 c) :=
  ⟨fun hpa => exec_of_error (hi.trans (deriveKey_of_password_outside hpa)),
    fun hpa hsa => exec_of_error (hi.trans (deriveKey_of_passphrase_outside hpa hsa)),
    fun hpa hsa hdst => exec_of_error (hi.trans (deriveKey_of_dst_outside hpa hsa hdst)),
    fun hpa hsa hdst => ⟨_, exec_of_ok (hi.trans (deriveKey_of_checked hpa hsa hdst)),
      storesOnly_deriveKeyEffect hprf i, memRead_finish_deriveKeyEffect hprf i, toResult_of_lt i hdkLen,
      toResult_of_lt i hc⟩⟩

end

/-- Settles O50: the rule is a key derivation over the port's HMAC_SHA256. -/
theorem kdfSlipWritesTheDerivedKey : Obligations.KdfSlipWritesTheDerivedKey := by
  rintro s _ _ _ _ _ rfl rfl rfl rfl rfl
  exact exec_of_deriveKey (i := .kdfSlip) length_hmacSha256Bytes rfl (by decide) (by decide)

/-- Settles O51: the rule is a key derivation over the port's HMAC_SHA512. -/
theorem kdfBipWritesTheDerivedKey : Obligations.KdfBipWritesTheDerivedKey := by
  rintro s _ _ _ _ _ rfl rfl rfl rfl rfl
  exact exec_of_deriveKey (i := .kdfBip) length_hmacSha512Bytes rfl (by decide) (by decide)

end Sys2Proof.Machine
end

section
/-!
The accepted indices of a session (46_accumulator.md R261, R263), and the two commands that accept no share:
ACC_RESET (R260) and ACC_MERGE (R264), what its rule answers, check by check, and the bytes it interpolates.
-/

namespace Sys2Proof.Machine

/-! ## What a completion leaves -/

theorem toNat_toResult_of_lt (i : Instr) {v : Nat} (h : v < 2 ^ 32) : (toResult i v).toNat = v := by
  rw [toResult_of_lt i h, BitVec.toNat_ofNat, Nat.mod_eq_of_lt h]

/-- A command that stores one region changes no byte outside it. -/
theorem memoryOutside_finish {i : Instr} {s : State} {e : Effect} {a n : Nat} {B : List Byte}
    (he : e.writes = [(a, B)]) (hlen : B.length = n) : MemoryOutside s (finish i s e) a n := by
  subst hlen
  intro b hb
  rw [byteAt_finish_one i s e a B he, dif_neg (by omega)]

/-! ## The accepted indices -/

theorem getElem?_accIndices {a : Acc} {j : Fin 32} (hj : j.val < a.count.toNat) :
    (accIndices a)[j.val]? = some a.xs[j] := by
  simp [accIndices, hj]

theorem mem_accIndices {a : Acc} {x : Byte} :
    x ∈ accIndices a ↔ ∃ j : Fin 32, j.val < a.count.toNat ∧ a.xs[j] = x := by
  constructor
  · intro hx
    obtain ⟨n, hn, rfl⟩ := List.getElem_of_mem hx
    have hlt : n < a.count.toNat ∧ n < 32 := by simpa [accIndices] using hn
    exact ⟨⟨n, hlt.2⟩, hlt.1, by simp [accIndices]⟩
  · rintro ⟨j, hj, rfl⟩
    exact List.mem_of_getElem? (getElem?_accIndices hj)

/-- A session never holds more shares than the index file has entries (46_accumulator.md R263). -/
theorem AccInv.count_le {s : State} (h : AccInv s) : s.acc.count.toNat ≤ 32 := by
  by_cases hp : s.acc.phase = .empty
  · simp [h.emptyIff.mp hp]
  · have hthr := (h.thresholdRange hp).2
    have hbound := h.countBound
    omega

theorem AccInv.length_accIndices {s : State} (h : AccInv s) : (accIndices s.acc).length = s.acc.count.toNat := by
  simp [accIndices, h.count_le]

/-! ## ACC_RESET -/

/-- Settles O53: the rule clears the accumulator but for its base, and writes 0 to both results. -/
theorem accResetStartsASession : Obligations.AccResetStartsASession := by
  intro s
  refine ⟨_, exec_of_ok (i := .accReset) rfl, completedOk_finish _ _ _, rfl, rfl, rfl, rfl, fun j => ?_, rfl,
    toResult_toNat .accReset 0, toResult_toNat .accReset 0, byteAt_finish_nil _ _ _ rfl, rfl, rfl⟩
  exact Vector.getElem_replicate j.isLt

/-! ## The checks of ACC_MERGE -/

/-- What ACC_MERGE does once every check has passed (46_accumulator.md R264). -/
def mergeEffect (s : State) : Effect :=
  { writes := [(argNat s 0, reconBytes s (accIndices s.acc) s.acc.base.toNat s.acc.len.toNat)]
    result0 := s.acc.len.toNat
    result1 := s.acc.count.toNat }

section

variable {s : State}

theorem ruleAccMerge_of_not_ready (hphase : s.acc.phase ≠ .ready) :
    ruleAccMerge s = .error ⟨.insufficientShares, s.acc.count.toNat⟩ := if_pos hphase

variable (hphase : s.acc.phase = .ready)

include hphase

theorem ruleAccMerge_of_dst_outside (hdst : s.dmemBytes < argNat s 0 + s.acc.len.toNat) :
    ruleAccMerge s = .error ⟨.addressError, argNat s 0⟩ := by
  simp [ruleAccMerge, hphase, valid, hdst]

theorem ruleAccMerge_of_checked (hdst : argNat s 0 + s.acc.len.toNat ≤ s.dmemBytes) :
    ruleAccMerge s = .ok (mergeEffect s) := by
  simp [ruleAccMerge, hphase, valid, hdst.not_gt, mergeEffect]

end

/-! ## What ACC_MERGE stored -/

theorem storesOnly_mergeEffect (s : State) :
    StoresOnly s (finish .accMerge s (mergeEffect s)) (argNat s 0) s.acc.len.toNat := by
  simpa only [length_reconBytes] using
    storesOnly_finish (i := .accMerge) (s := s) (e := mergeEffect s) rfl rfl rfl

/-- A byte that ACC_MERGE stored, with the coordinates read from the index file. -/
theorem byteAt_finish_mergeEffect {s : State} (h : AccInv s) {X : Nat → Byte}
    (hX : ∀ j : Fin 32, X j.val = s.acc.xs[j]) {i : Nat} (hi : i < s.acc.len.toNat) :
    byteAt (finish .accMerge s (mergeEffect s)) (argNat s 0 + i) =
      xorSum (fun j => gfMul (byteAt s (s.acc.base.toNat + j * s.acc.len.toNat + i))
        (lagrangeCoeff X s.acc.count.toNat j)) s.acc.count.toNat := by
  have hget : ∀ m, m < s.acc.count.toNat → (accIndices s.acc).getD m 0 = X m := fun m hm => by
    have hm32 : m < 32 := hm.trans_le h.count_le
    rw [List.getD_eq_getElem?_getD, getElem?_accIndices (j := ⟨m, hm32⟩) hm, Option.getD_some, ← hX]
  rw [byteAt_finish_stored rfl (by simpa using hi), getElem_reconBytes, h.length_accIndices]
  exact xorSum_congr fun j hj => by rw [lagrangeCoeff_congr hget hj]

/-- Settles O55: each check by what the rule answers there, and the bytes by the coefficients of the accepted
indices. -/
theorem accMergeReconstructsTheSession : Obligations.AccMergeReconstructsTheSession := by
  rintro s _ _ _ _ h rfl rfl rfl rfl
  refine ⟨fun hphase => exec_of_error (i := .accMerge) (ruleAccMerge_of_not_ready hphase), fun hphase => ?_⟩
  refine ⟨fun hdst => exec_of_error (i := .accMerge) (ruleAccMerge_of_dst_outside hphase hdst), fun hdst =>
    ⟨_, exec_of_ok (i := .accMerge) (ruleAccMerge_of_checked hphase hdst), storesOnly_mergeEffect s,
      fun X hX i => byteAt_finish_mergeEffect h hX, toResult_of_lt .accMerge (BitVec.isLt _),
      toResult_of_lt .accMerge (s.acc.count.isLt.trans (by decide))⟩⟩

end Sys2Proof.Machine
end

section
/-!
ACC_ADD (46_accumulator.md R261): what the session checks and the rule answer, check by check, and the session
after the accepted share.
-/

namespace Sys2Proof.Machine

/-! ## The session checks -/

theorem sessionCheck_of_empty {a : Acc} {L : Nat} {p : Parsed} (hphase : a.phase = .empty) :
    sessionCheck a L p = none := by
  simp [sessionCheck, hphase]

section

variable {a : Acc} {L : Nat} {p : Parsed} (hphase : a.phase = .collecting)

include hphase

theorem sessionCheck_of_threshold (hthr : p.thr ≠ a.threshold.toNat) :
    sessionCheck a L p = some ⟨.thresholdMismatch, p.thr⟩ := by
  simp [sessionCheck, hphase, hthr]

variable (hthr : p.thr = a.threshold.toNat)

include hthr

theorem sessionCheck_of_length (hL : L ≠ a.len.toNat) : sessionCheck a L p = some ⟨.malformedShare, 4⟩ := by
  simp [sessionCheck, hphase, hthr, hL]

variable (hL : L = a.len.toNat)

include hL

theorem sessionCheck_of_duplicate (hidx : BitVec.ofNat 8 p.idx ∈ accIndices a) :
    sessionCheck a L p = some ⟨.duplicateShareIndex, p.idx⟩ := by
  simp [sessionCheck, hphase, hthr, hL, hidx]

theorem sessionCheck_of_new (hidx : BitVec.ofNat 8 p.idx ∉ accIndices a) : sessionCheck a L p = none := by
  simp [sessionCheck, hphase, hthr, hL, hidx]

end

/-- A parsed index is accepted already where some entry in use holds it. -/
theorem ofNat_mem_accIndices {a : Acc} {idx : Nat} (hidx : idx ≤ 32) :
    BitVec.ofNat 8 idx ∈ accIndices a ↔ ∃ j : Fin 32, j.val < a.count.toNat ∧ a.xs[j].toNat = idx := by
  have heq (x : Byte) : x = BitVec.ofNat 8 idx ↔ x.toNat = idx := by
    rw [← BitVec.toNat_inj, BitVec.toNat_ofNat, Nat.mod_eq_of_lt (by omega)]
  simp only [mem_accIndices, heq]

/-- A share of an opening or agreeing session with a new index passes (46_accumulator.md R261). -/
theorem sessionCheck_of_agrees {a : Acc} {L : Nat} {p : Parsed} (hidx : p.idx ≤ 32)
    (h : a.phase = .empty ∨ (a.phase = .collecting ∧ p.thr = a.threshold.toNat ∧ L = a.len.toNat ∧
      ∀ j : Fin 32, j.val < a.count.toNat → a.xs[j].toNat ≠ p.idx)) : sessionCheck a L p = none := by
  rcases h with hempty | ⟨hphase, hthr, hL, hnew⟩
  · exact sessionCheck_of_empty hempty
  · refine sessionCheck_of_new hphase hthr hL fun hmem => ?_
    obtain ⟨j, hj, hdup⟩ := (ofNat_mem_accIndices hidx).mp hmem
    exact hnew j hj hdup

/-! ## The checks of ACC_ADD -/

theorem parseFrame_symReads_of_out_of_range {s : State} {a n L j : Nat} (hj : j < n)
    (hlarge : 1024 ≤ symRead s a j) (hfirst : ∀ m, m < j → symRead s a m < 1024) :
    parseFrame L (symReads s a n) = .error ⟨.symbolOutOfRange, j⟩ := by
  simp [parseFrame, firstOutOfRange_symReads hj hlarge hfirst]

/-- The address of the next payload in the store (46_accumulator.md R262). -/
def payloadSlot (s : State) (L : Nat) : Nat := s.acc.base.toNat + s.acc.count.toNat * L

/-- What ACC_ADD does with a share that passed every check (46_accumulator.md R261). -/
def accAddEffect (s : State) (L : Nat) (p : Parsed) : Effect :=
  { writes := [(payloadSlot s L, p.payload)]
    acc := some (accAccept s.acc L p)
    result0 := (accAccept s.acc L p).count.toNat
    result1 := p.idx + 256 * p.thr }

section

variable {s : State}

theorem ruleAccAdd_of_ready (hphase : s.acc.phase = .ready) :
    ruleAccAdd s = .error ⟨.accumulatorFull, s.acc.count.toNat⟩ := if_pos hphase

variable (hphase : s.acc.phase ≠ .ready)

include hphase

theorem ruleAccAdd_of_no_length (hW : payloadLen? (argNat s 1) = none) :
    ruleAccAdd s = .error ⟨.malformedShare, 1⟩ := by
  simp [ruleAccAdd, hphase, hW]

variable {L : Nat} (hW : payloadLen? (argNat s 1) = some L)

include hW

theorem ruleAccAdd_of_sa_outside (hsa : s.dmemBytes < argNat s 0 + 2 * argNat s 1) :
    ruleAccAdd s = .error ⟨.addressError, argNat s 0⟩ := by
  simp [ruleAccAdd, hphase, hW, valid, hsa]

variable (hsa : argNat s 0 + 2 * argNat s 1 ≤ s.dmemBytes)

include hsa

theorem ruleAccAdd_of_parse_error {r : Raise}
    (hp : parseFrame L (symReads s (argNat s 0) (argNat s 1)) = .error r) : ruleAccAdd s = .error r := by
  simp [ruleAccAdd, hphase, hW, valid, hsa.not_gt, hp]

variable {p : Parsed} (hp : parseFrame L (symReads s (argNat s 0) (argNat s 1)) = .ok p)

include hp

theorem ruleAccAdd_of_session_error {r : Raise} (hs : sessionCheck s.acc L p = some r) :
    ruleAccAdd s = .error r := by
  simp [ruleAccAdd, hphase, hW, valid, hsa.not_gt, hp, hs]

variable (hs : sessionCheck s.acc L p = none)

include hs

/-- A parsed share that passed the session checks is accepted where its slot is inside DMEM. -/
theorem accepted_of_parsed (hsize : s.dmemBytes ≤ 2 ^ 32) (hslot : payloadSlot s L + L ≤ s.dmemBytes) :
    Accepted s L p := by
  obtain ⟨-, h2, heven, hfit, -⟩ := payloadLen?_some hW
  obtain ⟨hidx1, hidx, hthr1, hthr, -⟩ := unframe_fields hW hp
  exact ⟨hphase, hs, ⟨hidx1, hidx⟩, ⟨hthr1, hthr⟩, ⟨h2, heven, by omega⟩, hslot⟩

theorem ruleAccAdd_of_slot_outside (hslot : s.dmemBytes < payloadSlot s L + L) :
    ruleAccAdd s = .error ⟨.addressError, payloadSlot s L⟩ := by
  simp only [payloadSlot] at hslot
  simp [ruleAccAdd, hphase, hW, valid, hsa.not_gt, hp, hs, hslot, payloadSlot]

theorem ruleAccAdd_of_accepted (hslot : payloadSlot s L + L ≤ s.dmemBytes) :
    ruleAccAdd s = .ok (accAddEffect s L p) := by
  simp only [payloadSlot] at hslot
  simp [ruleAccAdd, hphase, hW, valid, hsa.not_gt, hp, hs, hslot.not_gt, accAddEffect, payloadSlot]

end

/-! ## The accepted share -/

/-- The index file after accepting a share: its index at position count, every other entry as before. -/
theorem accAccept_xs (a : Acc) (L : Nat) (p : Parsed) (j : Fin 32) :
    (accAccept a L p).xs[j] = if j.val = a.count.toNat then BitVec.ofNat 8 p.idx else a.xs[j] := by
  split
  · next hj => simp [accAccept, ← hj]
  · next hj => exact accAccept_xs_of_ne a L p j hj

theorem memRead_finish_accAddEffect {s : State} {L : Nat} {p : Parsed} (hlen : p.payload.length = L) :
    memRead (finish .accAdd s (accAddEffect s L p)) (payloadSlot s L) L = p.payload := by
  subst hlen
  exact memRead_finish rfl

theorem result1_finish_accAddEffect {s : State} {L : Nat} {p : Parsed} (hs : Accepted s L p) :
    (finish .accAdd s (accAddEffect s L p)).result1.toNat = p.idx + 256 * p.thr := by
  have hidx := hs.idxRange.2
  have hthr := hs.thrRange.2
  have hfit : p.idx + 256 * p.thr < 2 ^ 32 := by omega
  exact toNat_toResult_of_lt .accAdd hfit

section

variable {s : State} {L : Nat} {p : Parsed} (h : AccInv s) (hs : Accepted s L p)

include h hs

theorem toNat_count_of_accepted : (accAccept s.acc L p).count.toNat = s.acc.count.toNat + 1 := by
  obtain ⟨-, -, hroom, -⟩ := accAccept_session h hs
  have hthr := hs.thrRange.2
  exact toNat_accAccept_count L p (by omega)

theorem phase_of_accepted : (accAccept s.acc L p).phase =
    if max p.thr 2 ≤ s.acc.count.toNat + 1 then .ready else .collecting := by
  obtain ⟨hthr, -⟩ := accAccept_session h hs
  rw [accAccept_phase, hthr, toNat_count_of_accepted h hs]

theorem result0_finish_accAddEffect :
    (finish .accAdd s (accAddEffect s L p)).result0.toNat = s.acc.count.toNat + 1 := by
  have hcount : (accAccept s.acc L p).count.toNat < 2 ^ 32 := (BitVec.isLt _).trans (by decide)
  exact (toNat_toResult_of_lt .accAdd hcount).trans (toNat_count_of_accepted h hs)

end

/-- Settles O54: each check by what the rule, the parse or the session answers there, and the accepted share by the
session it belongs to. -/
theorem accAddChecksThenAccepts : Obligations.AccAddChecksThenAccepts := by
  rintro s sa W h hsize (rfl : sa = argNat s 0) (rfl : W = argNat s 1)
  refine ⟨fun hphase => exec_of_error (i := .accAdd) (ruleAccAdd_of_ready hphase), fun hphase =>
    ⟨fun hnone => exec_of_error (i := .accAdd)
      (ruleAccAdd_of_no_length hphase (payloadLen?_eq_none_iff.mpr hnone)), fun L h2 heven hcount => ?_⟩⟩
  have hW : payloadLen? (argNat s 1) = some L := payloadLen?_eq_some_iff.mpr ⟨h2, heven, hcount⟩
  refine ⟨fun hsa => exec_of_error (i := .accAdd) (ruleAccAdd_of_sa_outside hphase hW hsa), fun hsa => ?_⟩
  have unparsed {r : Raise} (hr : parseFrame L (symReads s (argNat s 0) (argNat s 1)) = .error r) :
      exec .accAdd s = .next (raise s r) :=
    exec_of_error (i := .accAdd) (ruleAccAdd_of_parse_error hphase hW hsa hr)
  refine ⟨fun j hj hlarge hfirst => unparsed (parseFrame_symReads_of_out_of_range hj hlarge hfirst),
    fun hrange => ?_⟩
  have hX : ∀ x ∈ symReads s (argNat s 0) (argNat s 1), x < 1024 := forall_mem_symReads.mpr hrange
  have hlen := length_symReads s (argNat s 0) (argNat s 1)
  rintro F _ _ _ rfl rfl rfl rfl
  refine ⟨fun hpad => unparsed (parseFrame_of_pad hlen hX hpad),
    fun hpad => ⟨fun hck => unparsed (parseFrame_of_checksum hlen hX hpad hck), fun hck => ?_⟩⟩
  have hp := parseFrame_of_checked hlen hX hpad hck
  obtain ⟨-, hidx, -, -, hpayload⟩ := unframe_fields hW hp
  have unaccepted {r : Raise} (hr : sessionCheck s.acc L _ = some r) : exec .accAdd s = .next (raise s r) :=
    exec_of_error (i := .accAdd) (ruleAccAdd_of_session_error hphase hW hsa hp hr)
  refine ⟨fun hc hthr => unaccepted (sessionCheck_of_threshold hc hthr),
    fun hc hthr hL => unaccepted (sessionCheck_of_length hc hthr hL),
    fun hc hthr hL hdup => unaccepted
      (sessionCheck_of_duplicate hc hthr hL ((ofNat_mem_accIndices hidx).mpr hdup)), fun hagrees => ?_⟩
  have hs : sessionCheck s.acc L (frameFields L (symbolsToBits 10 (symReads s (argNat s 0) (argNat s 1)))) = none :=
    sessionCheck_of_agrees hidx hagrees
  refine ⟨fun hslot => exec_of_error (i := .accAdd) (ruleAccAdd_of_slot_outside hphase hW hsa hp hs hslot),
    fun hslot => ?_⟩
  have hacc := accepted_of_parsed hphase hW hsa hp hs hsize hslot
  obtain ⟨hthr, hL, -⟩ := accAccept_session h hacc
  exact ⟨_, exec_of_ok (i := .accAdd) (ruleAccAdd_of_accepted hphase hW hsa hp hs hslot), completedOk_finish _ _ _,
    memoryOutside_finish rfl hpayload, ⟨rfl, rfl⟩, memRead_finish_accAddEffect hpayload, hthr, hL,
    toNat_count_of_accepted h hacc, rfl, accAccept_xs s.acc L _, phase_of_accepted h hacc,
    result0_finish_accAddEffect h hacc, result1_finish_accAddEffect hacc⟩

end Sys2Proof.Machine
end

section
/-!
What a completion leaves (60_exceptions.md R301 to R307): a command settles in what its rule answered, so each
statement about completions is one about `raise` and `finish` and about what a rule can raise.
-/

namespace Sys2Proof.Machine

theorem eq_settle_of_exec {i : Instr} {s t : State} (h : exec i s = .next t) : t = settle i s (ruleOf i s) :=
  Host.Outcome.next.inj (h.symm.trans (exec_eq_settle i s))

/-- The two completions of a command, by what its rule answered. -/
theorem completion_cases {i : Instr} {s t : State} (h : exec i s = .next t) :
    (∃ e, ruleOf i s = .ok e ∧ t = finish i s e) ∨ ∃ r, ruleOf i s = .error r ∧ t = raise s r := by
  obtain rfl := eq_settle_of_exec h
  cases ruleOf i s with
  | ok e => exact .inl ⟨e, rfl, rfl⟩
  | error r => exact .inr ⟨r, rfl, rfl⟩

/-! ## With error and without -/

/-- ERRINFO is 32 bits wide, so cutting the information first changes nothing (60_exceptions.md R306). -/
theorem raise_eq_raise_mod (s : State) (r : Raise) : raise s r = raise s ⟨r.name, r.info % 2 ^ 32⟩ := by
  have hinfo : BitVec.ofNat 32 r.info = BitVec.ofNat 32 (r.info % 2 ^ 32) :=
    BitVec.eq_of_toNat_eq (by simp)
  simp only [raise, ← hinfo]

/-- Settles O9: the state is `raise` of what the rule raised. -/
theorem errorCompletionIsAllOrNothing : Obligations.ErrorCompletionIsAllOrNothing := by
  intro i s t h herr
  rcases completion_cases h with ⟨e, -, rfl⟩ | ⟨r, -, rfl⟩
  · cases herr
  · exact ⟨r.name, r.info, raise_eq_raise_mod s r⟩

theorem CompletedOk.statusWord_eq {s t : State} (h : CompletedOk s t) : statusWord t = 2 := by
  apply BitVec.eq_of_toNat_eq
  rw [toNat_statusWord, h.seq, h.done, h.err, h.errCode]
  rfl

/-- Settles O10: the state is `finish` of the rule's effect. -/
theorem completionWithoutErrorClearsTheRecord : Obligations.CompletionWithoutErrorClearsTheRecord := by
  intro i s t h herr
  obtain ⟨e, -, rfl⟩ := ruleOf_ok_of_exec h herr
  have hok := completedOk_finish i s e
  exact ⟨hok, (csrRead_of_wordNumber _ .status rfl).trans hok.statusWord_eq⟩

/-! ## Error codes -/

/-- The codes of the names that a command's rule raises (60_exceptions.md R301). -/
theorem toNat_errCodeOf_mem {n : ErrName} (hword : n ≠ .unknownWord) (hillegal : n ≠ .illegalCommand) :
    (errCodeOf n).toNat ∈ [1, 2, 3, 4, 5, 7, 8, 10, 11, 12] := by
  cases n
  case unknownWord => exact absurd rfl hword
  case illegalCommand => exact absurd rfl hillegal
  all_goals decide

theorem errCodeOf_eq_eight_iff {n : ErrName} : errCodeOf n = 8 ↔ n = .divisionByZero := by
  cases n <;> decide

theorem toNat_errCode_mem_of_exec {i : Instr} {s t : State} (h : exec i s = .next t) :
    t.errCode.toNat ∈ [0, 1, 2, 3, 4, 5, 7, 8, 10, 11, 12] := by
  rcases completion_cases h with ⟨e, -, rfl⟩ | ⟨r, hr, rfl⟩
  · exact List.mem_cons_self
  · obtain ⟨hword, hillegal, -⟩ := rule_raises hr
    exact List.mem_cons_of_mem _ (toNat_errCodeOf_mem hword hillegal)

/-- ERR is 1 exactly where ERRCODE names an error (10_state.md R40). -/
theorem err_eq_false_iff_of_exec {i : Instr} {s t : State} (h : exec i s = .next t) :
    t.err = false ↔ t.errCode = 0 := by
  rcases completion_cases h with ⟨e, -, rfl⟩ | ⟨r, hr, rfl⟩
  · exact iff_of_true rfl rfl
  · obtain ⟨hword, -⟩ := rule_raises hr
    exact (statusInv_raise s hword).errIff

/-- Settles O11: a rule raises neither UnknownWord nor IllegalCommand, and the completion of a word that is no
command raises the latter. -/
theorem errorCodesStayInTheTable : Obligations.ErrorCodesStayInTheTable := by
  refine ⟨⟨rfl, rfl, rfl, rfl, rfl, rfl, rfl, rfl, rfl, rfl, rfl, rfl⟩,
    fun i s t h => ⟨toNat_errCode_mem_of_exec h, err_eq_false_iff_of_exec h⟩, fun s t h => ?_⟩
  have hsub : [0, 1, 2, 3, 4, 5, 7, 8, 10, 11, 12] ⊆ [0, 1, 2, 3, 4, 5, 7, 8, 9, 10, 11, 12] := by decide
  rcases sequencerStep_cases h with ⟨i, e, -, he, rfl⟩ | ⟨i, r, -, hr, rfl⟩ | ⟨r, -, rfl⟩
  · exact hsub (toNat_errCode_mem_of_exec (exec_of_ok he))
  · exact hsub (toNat_errCode_mem_of_exec (exec_of_error hr))
  · change (9 : Byte).toNat ∈ _
    decide

/-! ## Divisors -/

theorem xor_ne_zero_of_ne {x y : Byte} (h : x ≠ y) : x ^^^ y ≠ 0 :=
  mt BitVec.xor_eq_zero_iff.mp h

theorem getElem?_memRead {s : State} {a n j : Nat} (hj : j < n) :
    (memRead s a n)[j]? = some (byteAt s (a + j)) := by
  simp [memRead, hj]

/-- An SSS_RECON that completed without error read distinct coordinates (41_sharing.md R154). -/
theorem recon_nodup {s t : State} (h : exec .sssRecon s = .next t) (herr : t.err = false) :
    (memRead s (argNat s 0) (argNat s 1)).Nodup := by
  obtain ⟨e, he, -⟩ := ruleOf_ok_of_exec h herr
  have hraise : ∀ r, ruleSssRecon s ≠ .error r := fun r hr => by cases hr.symm.trans he
  by_cases hk : 2 ≤ argNat s 1
  case neg => exact absurd (ruleSssRecon_of_few (Nat.lt_of_not_le hk)) (hraise _)
  cases hL : badLength (argNat s 3)
  case true => exact absurd (ruleSssRecon_of_badLength hk hL) (hraise _)
  by_cases hxa : argNat s 0 + argNat s 1 ≤ s.dmemBytes
  case neg => exact absurd (ruleSssRecon_of_xa_outside hk hL (Nat.lt_of_not_le hxa)) (hraise _)
  by_cases hya : argNat s 2 + argNat s 1 * argNat s 3 ≤ s.dmemBytes
  case neg => exact absurd (ruleSssRecon_of_ya_outside hk hL hxa (Nat.lt_of_not_le hya)) (hraise _)
  by_cases hdst : argNat s 4 + argNat s 3 ≤ s.dmemBytes
  case neg => exact absurd (ruleSssRecon_of_dst_outside hk hL hxa hya (Nat.lt_of_not_le hdst)) (hraise _)
  by_cases hX : 0#8 ∈ memRead s (argNat s 0) (argNat s 1)
  case pos => exact absurd (ruleSssRecon_of_zero_coordinate hk hL hxa hya hdst hX) (hraise _)
  cases hx : firstRepeat [] (memRead s (argNat s 0) (argNat s 1)) with
  | some x => exact absurd (ruleSssRecon_of_repeat hk hL hxa hya hdst hX hx) (hraise _)
  | none => exact ((firstRepeat_none _ _).mp hx).1

/-- Settles O12: what a rule may raise names GF_DIV, and the coordinates of the other two are distinct, those
of SSS_RECON by its check and those of ACC_MERGE by the invariant of the session. -/
theorem divisionByZeroOnlyFromGfDiv : Obligations.DivisionByZeroOnlyFromGfDiv := by
  refine ⟨fun i s t h hcode => ?raised, fun s t h herr j m hj hm hne => ?recon,
    fun s t hinv _ _ j m hj hm hne => ?merge⟩
  case raised =>
    rcases completion_cases h with ⟨e, -, rfl⟩ | ⟨r, hr, rfl⟩
    · cases hcode
    · obtain ⟨-, -, hdivisor⟩ := rule_raises hr
      exact hdivisor (errCodeOf_eq_eight_iff.mp hcode)
  case recon =>
    refine xor_ne_zero_of_ne fun heq => hne ?_
    refine List.getElem?_inj (by rwa [length_memRead]) (recon_nodup h herr) |>.mp ?_
    exact (getElem?_memRead hj).trans ((congrArg some heq).trans (getElem?_memRead hm).symm)
  case merge =>
    refine xor_ne_zero_of_ne fun heq => hne (Fin.ext ?_)
    refine List.getElem?_inj (by rwa [hinv.length_accIndices]) hinv.distinct |>.mp ?_
    rw [getElem?_accIndices hj, getElem?_accIndices hm, heq]

/-! ## Determinism -/

/-- A write list gives a byte one value whatever the memory was, or leaves it as it was. -/
theorem Memory.get?_applyWrites_const_or_keep (ws : List (Nat × List Byte)) (b : Nat) :
    (∃ v, ∀ m, Memory.get? (Memory.applyWrites m ws) b = some v) ∨
      ∀ m, Memory.get? (Memory.applyWrites m ws) b = Memory.get? m b := by
  induction ws with
  | nil => exact .inr fun m => rfl
  | cons w ws ih =>
    rcases ih with ⟨v, hv⟩ | hkeep
    · exact .inl ⟨v, fun m => hv _⟩
    · by_cases hb : w.1 ≤ b ∧ b < w.1 + w.2.length
      · refine .inl ⟨w.2[b - w.1], fun m => ?_⟩
        rw [Memory.applyWrites_cons, hkeep, Memory.get?_write, if_pos hb, List.getElem?_eq_getElem]
      · refine .inr fun m => ?_
        rw [Memory.applyWrites_cons, hkeep, Memory.get?_write, if_neg hb]

/-- The same effect on equal bytes leaves equal bytes, even where the two memories list them differently
(assumption log 2). -/
theorem byteAt_finish_congr (i : Instr) {s s' : State} (e : Effect) {b : Nat} (h : byteAt s' b = byteAt s b) :
    byteAt (finish i s' e) b = byteAt (finish i s e) b := by
  rcases Memory.get?_applyWrites_const_or_keep e.writes b with ⟨v, hv⟩ | hkeep
  · rw [byteAt_of_get? (hv s'.mem), byteAt_of_get? (hv s.mem)]
  · have hbyte (u : State) : byteAt (finish i u e) b = byteAt u b := byteAt_congr (hkeep u.mem) rfl
    rw [hbyte, hbyte, h]

/-- Settles O13: the rule reads its inputs only, so it answers the same in both states, and the completion makes
the same of what they agree on. -/
theorem completionDependsOnlyOnItsInputs : Obligations.CompletionDependsOnlyOnItsInputs := by
  intro i s s' t t' hargs hsize hacc hmem hrng h h'
  obtain rfl := eq_settle_of_exec h
  obtain rfl := eq_settle_of_exec h'
  rw [ruleOf_congr i hargs hsize hacc hmem hrng]
  cases ruleOf i s with
  | error r => exact ⟨rfl, rfl, fun _ => rfl, fun hok => (nomatch hok), hacc, hmem, hrng⟩
  | ok e =>
    refine ⟨rfl, rfl, fun herr => (nomatch herr), fun _ => ⟨rfl, rfl⟩, congrArg e.acc.getD hacc,
      fun a => byteAt_finish_congr i e (hmem a), fun k => ?_⟩
    rw [settle_ok, settle_ok, rngAnswer_finish, rngAnswer_finish, hrng]

end Sys2Proof.Machine
end

section
/-!
A step runs the command that CMD selects, and no step stops the unit (60_exceptions.md R300, R307).
-/

namespace Sys2Proof.Machine

theorem sequencerStep_of_decode {s : State} {i : Instr} (h : decode s.cmd = .ok i) :
    sequencerStep s = exec i s := by
  rw [sequencerStep, h]

/-- The table word of a command, 32 bits wide, is issued as it is. -/
theorem withFetchWord_encode (s : State) (i : Instr) :
    s.withFetchWord 32 (encode i).toNat = issuedNow s (encode i) := by
  rw [State.withFetchWord, Nat.mod_eq_of_lt (BitVec.isLt _), BitVec.ofNat_toNat, BitVec.setWidth_eq]

/-- Settles O3: the sequencer's turn by `hostGoesFirst_eq_false`; a word just issued has no move of the host
before it. -/
theorem stepRunsTheDecodedCommand : Obligations.StepRunsTheDecodedCommand := by
  have hturn : ∀ (s : State) (i : Instr), s.powerOnPin = false → s.seq = .busy →
      (s.latency = 0 ∨ ∀ l, hostCurrent s = some l → heldWhileBusy l = true) →
      decode s.cmd = .ok i → step s = exec i s := fun s i hp hs ht hd => by
    rw [step_of_not_hostGoesFirst hp hs (hostGoesFirst_eq_false ht), sequencerStep_of_decode hd]
  refine ⟨hturn, fun s i => ?_⟩
  rw [withFetchWord_encode]
  exact hturn (issuedNow s (encode i)) i rfl rfl (.inl rfl) (decode_encode i)

/-- Settles O8, by whose turn the step is. -/
theorem everyStepAnswersANextState : Obligations.EveryStepAnswersANextState := by
  intro s
  cases hp : s.powerOnPin with
  | true => exact ⟨powerOnReset s, by simp [step, hp]⟩
  | false =>
    cases hs : s.seq with
    | idle => exact ⟨hostMove s, step_of_idle hp hs⟩
    | busy =>
      cases hg : hostGoesFirst s with
      | true => exact ⟨hostMoveBusy s, step_of_hostGoesFirst hp hs hg⟩
      | false =>
        obtain ⟨t, ht, -⟩ := sequencerStep_completes s
        exact ⟨t, (step_of_not_hostGoesFirst hp hs hg).trans ht⟩

end Sys2Proof.Machine
end

section
/-!
The two resets and the state a run starts from (70_reset_and_hazards.md R340 to R343): all three hold the
reset values, because all three are `resetRegisters` of some state.
-/

namespace Sys2Proof.Machine

theorem resetValues_resetRegisters (s : State) : ResetValues (resetRegisters s) where
  ctrl := resetRegisters_irqEn s
  done := resetRegisters_done s
  err := resetRegisters_err s
  errCode := resetRegisters_errCode s
  cmd := resetRegisters_cmd s
  errInfo := resetRegisters_errInfo s
  result0 := resetRegisters_result0 s
  result1 := resetRegisters_result1 s
  args i := by simp
  seq := resetRegisters_seq s
  accPhase := rfl
  accThreshold := rfl
  accLen := rfl
  accCount := rfl
  accBase := rfl
  accXs j := by simp [Acc.reset]
  irq := irq_of_not_done (resetRegisters_done s)

/-- A power-on reset is a register reset on top of what it does to DMEM and to its own input. -/
theorem powerOnReset_eq_resetRegisters (s : State) : powerOnReset s =
    resetRegisters { s with mem := [], powerOns := s.powerOns + 1, powerOnPin := false } := rfl

theorem resetValues_powerOnReset (s : State) : ResetValues (powerOnReset s) :=
  powerOnReset_eq_resetRegisters s ▸ resetValues_resetRegisters _

/-- A register reset of the state a run starts from changes nothing. -/
theorem resetRegisters_reset : resetRegisters State.reset = State.reset := rfl

theorem resetValues_reset : ResetValues State.reset :=
  resetRegisters_reset ▸ resetValues_resetRegisters State.reset

theorem step_of_powerOnPin {s : State} (hp : s.powerOnPin = true) : step s = .next (powerOnReset s) := by
  simp [step, hp]

/-- Settles O18: word 1 of the map is CTRL, whose write with SRST is a soft reset; what no register write
touches is `csrWrite_keeps`. -/
theorem softResetKeepsDmem : Obligations.SoftResetKeepsDmem := by
  intro s off v hoff hv
  obtain ⟨hmem, hsize, hons, hrngIn, hdraws, -, hhost⟩ := csrWrite_keeps s off v
  have hreset : csrWrite s off v = softReset { s with irqEn := v.getLsbD 0 } :=
    (csrWrite_of_wordNumber s .ctrl v hoff).trans (writeCtrl_of_srst s hv)
  refine ⟨?_, hmem, fun a => byteAt_congr (by rw [hmem]) hons, hsize, hhost, hrngIn, hdraws⟩
  rw [hreset, softReset]
  exact resetValues_resetRegisters _

/-- Settles O19: an asserted reset input makes the step a power-on reset whatever the phase is. -/
theorem powerOnResetAbandonsTheCommand : Obligations.PowerOnResetAbandonsTheCommand := by
  refine ⟨fun s hp => ⟨powerOnReset s, step_of_powerOnPin hp, resetValues_powerOnReset s, fun a => ?_,
    powerOnReset_powerOnPin s, powerOnReset_dmemBytes s, powerOnReset_host s, powerOnReset_rngIn s,
    powerOnReset_rngDraws s⟩, resetValues_reset, Memory.get?_nil⟩
  rw [powerOnReset_mem, Memory.get?_nil]

/-- Nothing of DMEM is written at the start, and the default size is a legal one (00_scope.md R10). -/
theorem memoryInv_reset : MemoryInv State.reset where
  canonical := rfl
  inside := rfl
  size := by decide

/-- Settles O22: the reset state is a soft reset of itself, and a soft reset needs the invariant of DMEM
only. -/
theorem resetMeetsTheInvariant : Obligations.ResetMeetsTheInvariant :=
  inv_softReset memoryInv_reset

end Sys2Proof.Machine
end

section
/-!
An issued command completes (70_reset_and_hazards.md R356, R357): each step of a Busy unit is the completion
or uses up one of the host moves left.
-/

namespace Sys2Proof.Machine

theorem run_zero (s : State) : Sys2Proof.core.run 0 s = .next s := rfl

theorem run_succ_of_step {s u : State} (h : step s = .next u) (k : Nat) :
    Sys2Proof.core.run (k + 1) s = Sys2Proof.core.run k u := by
  have hcore : Sys2Proof.core.step s = .next u := h
  simp only [Host.Core.run, hcore]

/-- On the sequencer's turn one step completes the command. -/
theorem run_one_of_not_hostGoesFirst {s : State} (hp : s.powerOnPin = false) (hs : s.seq = .busy)
    (hg : hostGoesFirst s = false) :
    ∃ t, Sys2Proof.core.run 1 s = .next t ∧ t.seq = .idle ∧ t.done = true := by
  obtain ⟨t, ht, hidle, -⟩ := sequencerStep_completes s
  have hstep : step s = .next t := (step_of_not_hostGoesFirst hp hs hg).trans ht
  exact ⟨t, (run_succ_of_step hstep 0).trans (run_zero t), hidle, (done_irqEn_of_sequencerStep ht).1⟩

/-- Settles O7, by induction on the moves left to the host: it is the sequencer's turn, or the host takes
one of them and the unit is as it was otherwise. -/
theorem busyUnitCompletesWithinItsLatency : Obligations.BusyUnitCompletesWithinItsLatency := by
  intro s hp hs
  induction hn : s.latency generalizing s with
  | zero =>
    obtain ⟨t, ht⟩ := run_one_of_not_hostGoesFirst hp hs (hostGoesFirst_eq_false (.inl hn))
    exact ⟨1, t, le_rfl, ht⟩
  | succ n ih =>
    cases hg : hostGoesFirst s with
    | false =>
      obtain ⟨t, ht⟩ := run_one_of_not_hostGoesFirst hp hs hg
      exact ⟨1, t, by omega, ht⟩
    | true =>
      obtain ⟨a, hmove⟩ := hostMoveBusy_eq hg
      have hstep : step s = .next { s with latency := s.latency - 1, host := a } := by
        rw [step_of_hostGoesFirst hp hs hg, hmove]
      obtain ⟨k, t, hk, hrun, hdone⟩ :=
        ih { s with latency := s.latency - 1, host := a } hp hs (by simp [hn])
      exact ⟨k + 1, t, by omega, (run_succ_of_step hstep k).trans hrun, hdone⟩

end Sys2Proof.Machine
end
